-- ==== Sys2Proof/Word.lean ====
section
/-!
DEFINITION. The two bit-vector types of the CPB: the 32-bit register and address word, and the byte
(spec/00_scope.md R10, R11; spec/20_memory.md R60).
-/

namespace Sys2Proof

/-- A host-visible register, a command word or a memory address: `XLEN = ADDR_W = 32` (R10). -/
abbrev Word := BitVec 32

/-- One byte of memory (R11, R60). -/
abbrev Byte := BitVec 8

end Sys2Proof
end

