-- ==== Sys2Proof/Config.lean ====
section
/-!
DEFINITION. The parameters of R10 (spec/00_scope.md), each a field of `Config`; the values CPB-1 takes are
`Sys2Proof.Machine.cpb1` (Machine/Constants.lean). Two of them are OPEN, "model argument"
(spec/92_eei_decisions.md, 'Open parameters'): a machine carries one `OpenParams`, no step changes it, and a
statement about every state is therefore a statement about every choice of both. "The rest are fixed for
CPB-1" (R10): a test that compares with one reads it from `cpb1`, and where one is the width of a type or the
size of a register file it stands in the type (Laws/Config.lean shows that the two agree).
-/

namespace Sys2Proof

/-- The open parameters of R10. -/
structure OpenParams where
  /-- `MAX_DIM`, the "sane bound" on raster width and height (R10, R318). -/
  maxDim : Nat
  /-- `idct_kernel`: the eight rows of the matrix `K`; row `x` holds `K[x][0..7]` (R244). -/
  idctKernel : List (List Int)
deriving DecidableEq, Repr

/-- The configuration: the parameters of R10. -/
structure Config extends OpenParams where
  /-- `XLEN`, the width of every host-visible register. -/
  xlen : Nat
  /-- `ADDR_W`, the width of a memory address. -/
  addrW : Nat
  /-- `N_HTAB`, the number of Huffman table slots. -/
  nHtab : Nat
  /-- `HUF_MAXSYM`, the most symbols a Huffman table can have. -/
  hufMaxsym : Nat
  /-- `N_QTAB`, the number of quantisation table slots. -/
  nQtab : Nat
  /-- `N_COMP`, the number of DC predictor registers. -/
  nComp : Nat
  /-- `LZW_MINCS_MIN`, the least legal `minCodeSize`. -/
  lzwMincsMin : Nat
  /-- `LZW_MINCS_MAX`, the greatest legal `minCodeSize`. -/
  lzwMincsMax : Nat
  /-- `RLE_MAXELEM`, the largest element size of the high-bit-flag dialect. -/
  rleMaxelem : Nat
deriving DecidableEq, Repr

/-- The sum of the magnitudes of one row of the kernel. -/
def OpenParams.rowSum (row : List Int) : Nat := (row.map Int.natAbs).sum

/-- The constraints of spec/92_eei_decisions.md, 'Open parameters': `1 ≤ MAX_DIM ≤ 2^32 - 1`, and an 8×8
kernel with every absolute row sum below `2^14`. -/
def OpenParams.legal (c : OpenParams) : Bool :=
  decide (1 ≤ c.maxDim) && decide (c.maxDim ≤ 4294967295) && decide (c.idctKernel.length = 8) &&
    c.idctKernel.all fun row => decide (row.length = 8) && decide (OpenParams.rowSum row < 16384)

end Sys2Proof
end

