-- ==== Sys2Proof/Machine/Constants.lean ====
section
/-!
DEFINITION. The constants of the block, "read-only lookup data" and no state (spec/10_state.md R20): the
default inverse-DCT kernel, the zig-zag table, the identification word, and the configuration CPB-1 takes.
-/

namespace Sys2Proof.Machine

/-- The default `idct_kernel` `K` of R244, rows `x = 0..7`, columns `u = 0..7`. -/
def defaultKernel : List (List Int) := [
  [1448, 2009, 1892, 1703, 1448, 1138, 784, 400],
  [1448, 1703, 784, -400, -1448, -2009, -1892, -1138],
  [1448, 1138, -784, -2009, -1448, 400, 1892, 1703],
  [1448, 400, -1892, -1138, 1448, 1703, -784, -2009],
  [1448, -400, -1892, 1138, 1448, -1703, -784, 2009],
  [1448, -1138, -784, 2009, -1448, -400, 1892, -1703],
  [1448, -1703, 784, 400, -1448, 2009, -1892, 1138],
  [1448, -2009, 1892, -1703, 1448, -1138, 784, -400]]

/-- The values CPB-1 gives the parameters of R10; `idct_kernel` is the matrix of R244. -/
def cpb1 : Config where
  maxDim := 16384
  idctKernel := defaultKernel
  xlen := 32
  addrW := 32
  nHtab := 8
  hufMaxsym := 256
  nQtab := 4
  nComp := 4
  lzwMincsMin := 2
  lzwMincsMax := 8
  rleMaxelem := 4

/-- `ZZ[k]`, the raster index of zig-zag position `k` (R242). -/
def zigzag : List Nat := [
  0, 1, 8, 16, 9, 2, 3, 10, 17, 24, 32, 25, 18, 11, 4, 5,
  12, 19, 26, 33, 40, 48, 41, 34, 27, 20, 13, 6, 7, 14, 21, 28,
  35, 42, 49, 56, 57, 50, 43, 36, 29, 22, 15, 23, 30, 37, 44, 51,
  58, 59, 52, 45, 38, 31, 39, 46, 53, 60, 61, 54, 47, 55, 62, 63]

/-- The constant the `ID` register reads as: ASCII "CPB1" (R21). -/
def idWord : Word := 0x43504231

end Sys2Proof.Machine
end

