-- ==== Sys2Proof/Syntax.lean ====
section
/-!
DEFINITION. The 22 commands of spec/opcode_table.json, one constructor per row, each with the fields that
spec/30_encoding.md R92 and R93 give it.
-/

namespace Sys2Proof

/-- `ORDER`: bit order within a byte of a bit stream (R71, R91). -/
inductive Order where
  /-- `ORDER = 0`: the first bit of a byte is its bit 7. -/
  | msb
  /-- `ORDER = 1`: the first bit of a byte is its bit 0. -/
  | lsb
deriving DecidableEq, Repr

/-- A command of the CPB (R95). A field holds every value its bits can hold; the ranges of R93 and R102 are
checked by `Instr.wellFormed`. -/
inductive Instr where
  /-- `NOP` (R300). -/
  | nop
  /-- `CLRERR` (R301). -/
  | clrerr
  /-- `SRESET` (R302). -/
  | sreset
  /-- `BS.RD` (R126). -/
  | bsRd (order : Order) (stuff zfill : Bool) (n : BitVec 6)
  /-- `BS.WR` (R127). -/
  | bsWr (order : Order) (stuff : Bool) (n : BitVec 6)
  /-- `BS.FLUSH` (R128). -/
  | bsFlush (order : Order) (stuff pad : Bool)
  /-- `HUF.BUILD` (R151). -/
  | hufBuild (slot : BitVec 3)
  /-- `HUF.DEC` (R156). -/
  | hufDec (slot : BitVec 3) (stuff zfill : Bool)
  /-- `HUF.ENC` (R159). -/
  | hufEnc (slot : BitVec 3) (stuff : Bool) (sym : BitVec 8)
  /-- `LZW.DEC` (R181). -/
  | lzwDec (order : Order) (mincs : BitVec 4)
  /-- `RLE.PBD` (R211). -/
  | rlePbd
  /-- `RLE.PBE` (R213). -/
  | rlePbe
  /-- `RLE.HBD` (R216). -/
  | rleHbd (size : BitVec 3)
  /-- `RLE.HBE` (R218). -/
  | rleHbe (size : BitVec 3)
  /-- `JPG.LDQ` (R241). -/
  | jpgLdq (slot : BitVec 2)
  /-- `JPG.BLK` (R248). -/
  | jpgBlk (slot : BitVec 2)
  /-- `JPG.YCC` (R251). -/
  | jpgYcc
  /-- `JPG.DCP` (R252). -/
  | jpgDcp (comp : BitVec 2)
  /-- `JPG.RST` (R253). -/
  | jpgRst
  /-- `DXT1.BLK` (R273). -/
  | dxt1Blk
  /-- `DXT3.BLK` (R276). -/
  | dxt3Blk
  /-- `DXT5.BLK` (R279). -/
  | dxt5Blk
deriving DecidableEq, Repr

end Sys2Proof
end

