-- ==== Sys2Proof/WellFormed.lean ====
section
/-!
DEFINITION. Which commands have legal field values: the value constraints of spec/30_encoding.md R93 and
R102, step (3) of the decoder of R94. Step (2), the reserved bits, has no counterpart here: a command of
`Instr` has no bits but its fields.
-/

namespace Sys2Proof

/-- `N` of `BS.RD` and `BS.WR`: 1..32; "0 and 33..63 are illegal" (R93). -/
def legalBitCount (n : BitVec 6) : Bool := decide (1 ≤ n.toNat) && decide (n.toNat ≤ 32)

/-- `STUFF = 1` with `ORDER = 1` is illegal in `BS.RD`, `BS.WR` and `BS.FLUSH` (R102). -/
def legalStuffing (order : Order) (stuff : Bool) : Bool := !(stuff && order == .lsb)

/-- `MINCS` of `LZW.DEC`: `LZW_MINCS_MIN` to `LZW_MINCS_MAX`, 2..8; "0, 1 and 9..15 are illegal" (R10, R93). -/
def legalMinCodeSize (m : BitVec 4) : Bool :=
  decide (Machine.cpb1.lzwMincsMin ≤ m.toNat) && decide (m.toNat ≤ Machine.cpb1.lzwMincsMax)

/-- `S` of `RLE.HBD` and `RLE.HBE`: 1 to `RLE_MAXELEM`, 1..4; "0 and 5..7 are illegal" (R10, R93). -/
def legalElementSize (sz : BitVec 3) : Bool :=
  decide (1 ≤ sz.toNat) && decide (sz.toNat ≤ Machine.cpb1.rleMaxelem)

/-- The command's field values are legal (R93, R102). -/
def Instr.wellFormed : Instr → Bool
  | .nop => true
  | .clrerr => true
  | .sreset => true
  | .bsRd order stuff _ n => legalBitCount n && legalStuffing order stuff
  | .bsWr order stuff n => legalBitCount n && legalStuffing order stuff
  | .bsFlush order stuff _ => legalStuffing order stuff
  | .hufBuild _ => true
  | .hufDec _ _ _ => true
  | .hufEnc _ _ _ => true
  | .lzwDec _ m => legalMinCodeSize m
  | .rlePbd => true
  | .rlePbe => true
  | .rleHbd sz => legalElementSize sz
  | .rleHbe sz => legalElementSize sz
  | .jpgLdq _ => true
  | .jpgBlk _ => true
  | .jpgYcc => true
  | .jpgDcp _ => true
  | .jpgRst => true
  | .dxt1Blk => true
  | .dxt3Blk => true
  | .dxt5Blk => true

end Sys2Proof
end

