-- ==== Sys2Proof/Decode.lean ====
section
/-!
DEFINITION. The one command format `C` and its opcode map (spec/30_encoding.md R91 to R95): the decoder,
total on all 2^32 words, and the encoder. A command word is never stored in memory and has no byte order:
it is the value of one 32-bit register write (R90, R98).
-/

namespace Sys2Proof

/-- The fields of format `C`, bit 0 first (R91). -/
structure Fields where
  /-- `OPC`, bits [7:0]. -/
  opc : BitVec 8
  /-- `ORDER`, bit 8. -/
  order : Order := .msb
  /-- `STUFF`, bit 9. -/
  stuff : Bool := false
  /-- `ZFILL`, bit 10. -/
  zfill : Bool := false
  /-- `PAD`, bit 11. -/
  pad : Bool := false
  /-- `SLOT`, bits [14:12]. Bit 15 is reserved, always 0. -/
  slot : BitVec 3 := 0
  /-- `IMM`, bits [31:16]. -/
  imm : BitVec 16 := 0
deriving DecidableEq, Repr

/-- `ORDER = 1` is LSB-first (R91). -/
def Order.toBool (o : Order) : Bool := o == .lsb

/-- The bit order that the `ORDER` bit selects (R91). -/
def Order.ofBool (b : Bool) : Order := if b then .lsb else .msb

/-- The command word with the given fields (R91). -/
def Fields.word (f : Fields) : Word :=
  f.imm ++ 0#1 ++ f.slot ++ BitVec.ofBool f.pad ++ BitVec.ofBool f.zfill ++ BitVec.ofBool f.stuff ++
    BitVec.ofBool f.order.toBool ++ f.opc

/-- The fields of a command: the operation code of R95, the `MOD` fields of R92 and the immediate of R93;
every field the command does not use is 0. -/
def Instr.fields : Instr → Fields
  | .nop => { opc := 0x00 }
  | .clrerr => { opc := 0x01 }
  | .sreset => { opc := 0x02 }
  | .bsRd order stuff zfill n =>
    { opc := 0x10, order := order, stuff := stuff, zfill := zfill, imm := n.setWidth 16 }
  | .bsWr order stuff n => { opc := 0x11, order := order, stuff := stuff, imm := n.setWidth 16 }
  | .bsFlush order stuff pad => { opc := 0x12, order := order, stuff := stuff, pad := pad }
  | .hufBuild slot => { opc := 0x20, slot := slot }
  | .hufDec slot stuff zfill => { opc := 0x21, stuff := stuff, zfill := zfill, slot := slot }
  | .hufEnc slot stuff sym => { opc := 0x22, stuff := stuff, slot := slot, imm := sym.setWidth 16 }
  | .lzwDec order m => { opc := 0x30, order := order, imm := m.setWidth 16 }
  | .rlePbd => { opc := 0x40 }
  | .rlePbe => { opc := 0x41 }
  | .rleHbd sz => { opc := 0x42, imm := sz.setWidth 16 }
  | .rleHbe sz => { opc := 0x43, imm := sz.setWidth 16 }
  | .jpgLdq slot => { opc := 0x50, slot := slot.setWidth 3 }
  | .jpgBlk slot => { opc := 0x51, slot := slot.setWidth 3 }
  | .jpgYcc => { opc := 0x52 }
  | .jpgDcp comp => { opc := 0x53, slot := comp.setWidth 3 }
  | .jpgRst => { opc := 0x54 }
  | .dxt1Blk => { opc := 0x60 }
  | .dxt3Blk => { opc := 0x61 }
  | .dxt5Blk => { opc := 0x62 }

/-- `ORDER`, bit 8 of a command word (R91). -/
def orderOf (w : Word) : Order := Order.ofBool (w.getLsbD 8)

/-- `STUFF`, bit 9 of a command word (R91). -/
def stuffOf (w : Word) : Bool := w.getLsbD 9

/-- `ZFILL`, bit 10 of a command word (R91). -/
def zfillOf (w : Word) : Bool := w.getLsbD 10

/-- `PAD`, bit 11 of a command word (R91). -/
def padOf (w : Word) : Bool := w.getLsbD 11

/-- `SLOT`, bits [14:12] of a command word, for the commands that use all three (R92, R95). -/
def slotOf (w : Word) : BitVec 3 := w.extractLsb' 12 3

/-- `SLOT`, bits [13:12] of a command word, for the JPG commands, whose bit 14 must be 0 (R92, R95). -/
def smallSlotOf (w : Word) : BitVec 2 := w.extractLsb' 12 2

/-- The low `k` bits of `IMM`, the sub-field of R93 that starts at bit 16 of the command word. -/
def immOf (k : Nat) (w : Word) : BitVec k := w.extractLsb' 16 k

/-- One row of the opcode map (R95): the bits of `mask` must equal those of `pattern`; `build` reads the
fields from the others. -/
structure OpcodeRow where
  /-- The mnemonic, as spec/opcode_table.json spells it. -/
  mnemonic : String
  /-- The row's `match` column. -/
  pattern : Word
  /-- The row's `mask` column. -/
  mask : Word
  /-- The command a word of this row stands for. -/
  build : Word → Instr

/-- The opcode map (R95), in its own order. -/
def opcodeTable : List OpcodeRow := [
  ⟨"NOP", 0x00000000, 0xFFFFFFFF, fun _ => .nop⟩,
  ⟨"CLRERR", 0x00000001, 0xFFFFFFFF, fun _ => .clrerr⟩,
  ⟨"SRESET", 0x00000002, 0xFFFFFFFF, fun _ => .sreset⟩,
  ⟨"BS.RD", 0x00000010, 0xFFC0F8FF, fun w => .bsRd (orderOf w) (stuffOf w) (zfillOf w) (immOf 6 w)⟩,
  ⟨"BS.WR", 0x00000011, 0xFFC0FCFF, fun w => .bsWr (orderOf w) (stuffOf w) (immOf 6 w)⟩,
  ⟨"BS.FLUSH", 0x00000012, 0xFFFFF4FF, fun w => .bsFlush (orderOf w) (stuffOf w) (padOf w)⟩,
  ⟨"HUF.BUILD", 0x00000020, 0xFFFF8FFF, fun w => .hufBuild (slotOf w)⟩,
  ⟨"HUF.DEC", 0x00000021, 0xFFFF89FF, fun w => .hufDec (slotOf w) (stuffOf w) (zfillOf w)⟩,
  ⟨"HUF.ENC", 0x00000022, 0xFF008DFF, fun w => .hufEnc (slotOf w) (stuffOf w) (immOf 8 w)⟩,
  ⟨"LZW.DEC", 0x00000030, 0xFFF0FEFF, fun w => .lzwDec (orderOf w) (immOf 4 w)⟩,
  ⟨"RLE.PBD", 0x00000040, 0xFFFFFFFF, fun _ => .rlePbd⟩,
  ⟨"RLE.PBE", 0x00000041, 0xFFFFFFFF, fun _ => .rlePbe⟩,
  ⟨"RLE.HBD", 0x00000042, 0xFFF8FFFF, fun w => .rleHbd (immOf 3 w)⟩,
  ⟨"RLE.HBE", 0x00000043, 0xFFF8FFFF, fun w => .rleHbe (immOf 3 w)⟩,
  ⟨"JPG.LDQ", 0x00000050, 0xFFFFCFFF, fun w => .jpgLdq (smallSlotOf w)⟩,
  ⟨"JPG.BLK", 0x00000051, 0xFFFFCFFF, fun w => .jpgBlk (smallSlotOf w)⟩,
  ⟨"JPG.YCC", 0x00000052, 0xFFFFFFFF, fun _ => .jpgYcc⟩,
  ⟨"JPG.DCP", 0x00000053, 0xFFFFCFFF, fun w => .jpgDcp (smallSlotOf w)⟩,
  ⟨"JPG.RST", 0x00000054, 0xFFFFFFFF, fun _ => .jpgRst⟩,
  ⟨"DXT1.BLK", 0x00000060, 0xFFFFFFFF, fun _ => .dxt1Blk⟩,
  ⟨"DXT3.BLK", 0x00000061, 0xFFFFFFFF, fun _ => .dxt3Blk⟩,
  ⟨"DXT5.BLK", 0x00000062, 0xFFFFFFFF, fun _ => .dxt5Blk⟩]

/-- Why a word is illegal: the three steps of R94, in their order. Each is `IllegalCommand` to the host. -/
inductive DecodeError where
  /-- `OPC` is not in the opcode map (R94 (1), R97 (a)). -/
  | unknownOpcode
  /-- A bit that the selected command does not use is not 0 (R94 (2), R97 (b)). -/
  | reservedBit
  /-- A field value is out of range, or `STUFF = 1` with `ORDER = 1` (R94 (3), R97 (c)). -/
  | illegalField
deriving DecidableEq, Repr

/-- Step (1) of R94: the row whose operation code is the word's `OPC`. -/
def rowOf (w : Word) : Option OpcodeRow :=
  opcodeTable.find? fun r => r.pattern.extractLsb' 0 8 == w.extractLsb' 0 8

/-- The decoder of R94: total, and every word selects exactly one command or is illegal by name. -/
def decode (w : Word) : Except DecodeError Instr :=
  match rowOf w with
  | none => .error .unknownOpcode
  | some r =>
    if w &&& r.mask = r.pattern then
      if (r.build w).wellFormed then .ok (r.build w) else .error .illegalField
    else .error .reservedBit

/-- The command word of a command (R91 to R95). -/
def encode (i : Instr) : Word := i.fields.word

/-- The instruction the decoder reads from a table row's bits: the `nbits` low bits of `w`, the rest 0, as
the one 32-bit command word. -/
def decodeTableWord (nbits w : Nat) : Option Instr :=
  match decode (BitVec.ofNat 32 (w % 2 ^ nbits)) with
  | .ok i => some i
  | .error _ => none

end Sys2Proof
end

