-- ==== Sys2Proof/Machine/State.lean ====
section
/-!
DEFINITION. The machine's state: everything spec/10_state.md R20 gives the block, the memory it shares with
the host, and four fields of the model's own (`cfg`, `rst`, `pending`, `hostData`); the result codes; the
reasons a step can stop; and the state after reset (spec/70_reset_and_hazards.md R340).
-/

namespace Sys2Proof.Machine

/-- The result codes of R311; their numbers are `ResultCode.code` (Machine/Flags.lean). Codes 8..15 are
never written and have no constructor. -/
inductive ResultCode where
  | ok
  | truncatedData
  | invalidFormat
  | invalidDimensions
  /-- Reserved for the numbering; no command raises it (R322). -/
  | unsupportedFormat
  | decompressionFailed
  | illegalCommand
  | notReady
deriving DecidableEq, Repr

/-- The fields of `STATUS` (R24); the register's word is `Status.word` (Machine/Flags.lean). -/
structure Status where
  /-- `ERR`, bits [3:0]: result of the most recent command. -/
  err : ResultCode
  /-- `FIRST`, bits [7:4]: the first `ERR` other than OK; `ok` stands for "none". -/
  first : ResultCode
  /-- `DSTFULL`, bit 8. -/
  dstfull : Bool
  /-- `TRUNC`, bit 9. -/
  trunc : Bool
  /-- `EOS`, bit 10. -/
  eos : Bool
  /-- `S_DSTFULL`, bit 16. -/
  sDstfull : Bool
  /-- `S_TRUNC`, bit 17. -/
  sTrunc : Bool
  /-- `S_EOS`, bit 18. -/
  sEos : Bool
deriving DecidableEq, Repr

/-- `STATUS = 0` (R340, R301). -/
def Status.zero : Status :=
  { err := .ok, first := .ok, dstfull := false, trunc := false, eos := false,
    sDstfull := false, sTrunc := false, sEos := false }

/-- A window: `SRC_BASE`, `SRC_LEN` or `DST_BASE`, `DST_LEN` (R62). -/
structure Window where
  base : Word
  len : Word
deriving DecidableEq, Repr

/-- The read cursor (R28). -/
structure ReadCursor where
  /-- `RD_BYTE`. -/
  byte : Word
  /-- `RD_BIT`, three bits. -/
  bit : BitVec 3
deriving DecidableEq, Repr

/-- The write cursor (R31). -/
structure WriteCursor where
  /-- `WR_BYTE`. -/
  byte : Word
  /-- `WR_BIT`, three bits. -/
  bit : BitVec 3
  /-- `WR_ACC`, eight bits. -/
  acc : Byte
deriving DecidableEq, Repr

/-- The fields a Huffman table slot holds for one code length (R33). -/
structure HuffRow where
  /-- `L[len]`. -/
  count : BitVec 8
  /-- `mincode[len]`. -/
  mincode : BitVec 17
  /-- `maxcode[len]`, two's complement; −1 when `L[len] = 0`. -/
  maxcode : BitVec 18
  /-- `valptr[len]`. -/
  valptr : BitVec 9
deriving DecidableEq, Repr

/-- The contents of a valid Huffman table slot (R33). -/
structure HuffTable where
  /-- The sixteen lengths `len = 1..16`, in order. -/
  rows : List HuffRow
  /-- `total`, the number of symbols. -/
  total : BitVec 9
  /-- `values[0 .. total-1]`; the entries at `k ≥ total` "are not meaningful" and are not held. -/
  values : List Byte
deriving DecidableEq, Repr

/-- One dictionary entry (R35). -/
structure LzwEntry where
  /-- `prefix[c]`. -/
  prefixCode : BitVec 12
  /-- `suffix[c]`. -/
  suffix : Byte
deriving DecidableEq, Repr

/-- The LZW unit (R35): the defined dictionary entries by code, rising, and the three scalars. -/
structure LzwUnit where
  dict : List (Nat × LzwEntry)
  /-- `next_code`. -/
  nextCode : BitVec 13
  /-- `code_size`. -/
  codeSize : BitVec 4
  /-- `prev`, a code or NONE. -/
  prev : Option (BitVec 12)
deriving DecidableEq, Repr

/-- Memory (R60): the cells that differ from what an unlisted address reads as, by rising address. -/
abbrev Memory := List Host.Cell

/-- What the outside world does to the block, one transaction at a time (R5, R21, R23, R60, R340). `off` is a
byte offset into the block's 256-byte aperture, `bytes` the width of the access in bytes. -/
inductive HostOp where
  /-- The host writes a register; at offset 0 this launches a command (R90). -/
  | regWrite (off : BitVec 8) (bytes : Nat) (value : Word)
  /-- The host reads a register. -/
  | regRead (off : BitVec 8) (bytes : Nat)
  /-- The host stores a byte to memory. -/
  | memWrite (addr : Word) (value : Byte)
  /-- The host loads a byte from memory. -/
  | memRead (addr : Word)
  /-- The platform drives the reset input `rst`. -/
  | setRst (level : Bool)
deriving DecidableEq, Repr

/-- The machine's state. -/
structure State where
  /-- `CMD`: the last command word written (R21). -/
  cmd : Word
  /-- `STATUS` (R24). -/
  status : Status
  /-- `SRC_BASE`, `SRC_LEN`. -/
  src : Window
  /-- `DST_BASE`, `DST_LEN`. -/
  dst : Window
  /-- `RD_BYTE`, `RD_BIT`. -/
  rd : ReadCursor
  /-- `WR_BYTE`, `WR_BIT`, `WR_ACC`. -/
  wr : WriteCursor
  /-- `ARG0`. -/
  arg0 : Word
  /-- `ARG1`. -/
  arg1 : Word
  /-- `ARG2`. -/
  arg2 : Word
  /-- `ARG3`. -/
  arg3 : Word
  /-- `RES0`. -/
  res0 : Word
  /-- `RES1`. -/
  res1 : Word
  /-- `LZW_NEXT`. -/
  lzwNext : Word
  /-- `LZW_CSIZE`. -/
  lzwCsize : Word
  /-- `PRED[0..3]`, read at `PRED0` to `PRED3` (R37). -/
  pred : Vector Word 4
  /-- `HT[0..7]`; `none` is a slot with `valid = 0`, whose other fields have "no value" (R33, R34). -/
  huff : Vector (Option HuffTable) 8
  /-- `QT[0..3]`, entries in zig-zag order; `none` is a slot with `valid = 0` (R36). -/
  quant : Vector (Option (List (BitVec 16))) 4
  /-- The LZW dictionary and its scalars (R35). -/
  lzw : LzwUnit
  /-- Memory, a component the block and the host share (R20, R60). -/
  mem : Memory
  /-- The model's own: the open parameters (R10). No step changes it. -/
  cfg : OpenParams
  /-- The model's own: the level of the reset input `rst` (R340). -/
  rst : Bool
  /-- The model's own: the host's transactions still to come, oldest first. -/
  pending : List HostOp
  /-- The model's own: what the host's last read returned to it. -/
  hostData : Word
deriving DecidableEq, Repr

/-- Why the machine could stop with a fault: never. "There is no double fault, no lockup state and no state in
which the block stops accepting commands" (R321), and the block reports no memory access fault (R325); an
error is a result code in `STATUS`, not a stop (R310). -/
inductive Fault where
deriving DecidableEq, Repr

/-- Why a step can be refused. -/
inductive Refusal where
  /-- A command whose meaning is not written yet. No arm of `exec` answers it. Safe. -/
  | notModelled (mnemonic : String)
  /-- Raised by a host register access that is not an aligned 32-bit access, which "has no defined meaning; a
  model refuses it" (R23 (d), spec/93_implementation_defined.md U1). Safe: nothing is concluded from it. -/
  | unalignedRegisterAccess
deriving DecidableEq, Repr

/-- The state when `rst` is released (R340): every register 0, both table files invalid, predictors 0. The
dictionary has no defined entry. Memory lists nothing and no transaction is pending. -/
def State.reset : State where
  cmd := 0
  status := Status.zero
  src := { base := 0, len := 0 }
  dst := { base := 0, len := 0 }
  rd := { byte := 0, bit := 0 }
  wr := { byte := 0, bit := 0, acc := 0 }
  arg0 := 0
  arg1 := 0
  arg2 := 0
  arg3 := 0
  res0 := 0
  res1 := 0
  lzwNext := 0
  lzwCsize := 0
  pred := Vector.replicate 4 0
  huff := Vector.replicate 8 none
  quant := Vector.replicate 4 none
  lzw := { dict := [], nextCode := 0, codeSize := 0, prev := none }
  mem := []
  cfg := cpb1.toOpenParams
  rst := false
  pending := []
  hostData := 0

end Sys2Proof.Machine
end

