-- ==== Sys2Proof/Machine/Flags.lean ====
section
/-!
DEFINITION. `STATUS`: the numbers of the result codes, the word the host reads, and what the life of a
command does to its fields (spec/10_state.md R24, R25; spec/60_exceptions.md R311, R314).
-/

namespace Sys2Proof.Machine

/-- The number of a result code (R311). -/
def ResultCode.code : ResultCode → BitVec 4
  | .ok => 0
  | .truncatedData => 1
  | .invalidFormat => 2
  | .invalidDimensions => 3
  | .unsupportedFormat => 4
  | .decompressionFailed => 5
  | .illegalCommand => 6
  | .notReady => 7

/-- The word the host reads at `STATUS` (R24); bits [15:11] and [31:19] read as zero. -/
def Status.word (st : Status) : Word :=
  0#13 ++ BitVec.ofBool st.sEos ++ BitVec.ofBool st.sTrunc ++ BitVec.ofBool st.sDstfull ++
    0#5 ++ BitVec.ofBool st.eos ++ BitVec.ofBool st.trunc ++ BitVec.ofBool st.dstfull ++
    st.first.code ++ st.err.code

/-- Step 2 of R314: the per-command flags are cleared. -/
def Status.cleared (st : Status) : Status :=
  { st with dstfull := false, trunc := false, eos := false }

/-- Step 4 of R314: `ERR`, then `FIRST` if it is still 0, then the sticky flags. -/
def Status.finished (st : Status) (e : ResultCode) : Status :=
  { st with
    err := e
    first := if e ≠ .ok ∧ st.first = .ok then e else st.first
    sDstfull := st.sDstfull || st.dstfull
    sTrunc := st.sTrunc || st.trunc
    sEos := st.sEos || st.eos }

end Sys2Proof.Machine
end

