-- ==== Sys2Proof/Machine/Memory.lean ====
section
/-!
DEFINITION. Memory as the block sees it: plain storage of bytes over the whole 32-bit address space, with
single-byte accesses only (spec/20_memory.md R60, R61, R74). No address is absent and no access faults
(spec/60_exceptions.md R325).
-/

namespace Sys2Proof.Machine

/-- What an address that nothing has written reads as. The spec states no initial contents.
DESIGN CHOICE: 0x00 (notes/assumptions/1.md). Unsafe: another value is as good. -/
def unwritten : Byte := 0x00

/-- `MemRead(addr, 1)` (R60). -/
def Memory.read : Memory → Word → Byte
  | [], _ => unwritten
  | c :: rest, a => if c.1 = a.toNat then c.2 else Memory.read rest a

/-- Put a cell in front, unless its address would read as that value anyway. -/
def Memory.cons (a : Nat) (v : Byte) (rest : Memory) : Memory :=
  if v = unwritten then rest else (a, v) :: rest

/-- `MemWrite(addr, 1, v)` (R60), in canonical form. -/
def Memory.write : Memory → Word → Byte → Memory
  | [], a, v => Memory.cons a.toNat v []
  | c :: rest, a, v =>
    if a.toNat < c.1 then Memory.cons a.toNat v (c :: rest)
    else if a.toNat = c.1 then Memory.cons a.toNat v rest
    else c :: Memory.write rest a v

/-- The canonical form: addresses strictly rising, all inside the 32-bit address space, and no cell that
holds what an unlisted address reads as. -/
abbrev Memory.wf (m : Memory) : Prop :=
  m.Pairwise (fun x y => x.1 < y.1) ∧ ∀ c ∈ m, c.1 < 4294967296 ∧ c.2 ≠ unwritten

end Sys2Proof.Machine
end

