-- ==== Sys2Proof/Machine/Ops.lean ====
section
/-!
DEFINITION. The named operations every command is built from: the two windows and their checks, the three
ways of output, the life of a command with error completion (the block's only exceptional event, which has no
return), and the host's access to the registers.
-/

namespace Sys2Proof.Machine

/-! ## The windows -/

/-- The address of offset `i` of a window. R65 keeps the sum below `2^32` in every command that runs. -/
def Window.addr (w : Window) (i : Nat) : Word := w.base + BitVec.ofNat 32 i

/-- A window that does not wrap: `BASE + LEN ≤ 2^32` (R65 (a)). -/
def Window.fits (w : Window) : Bool := decide (w.base.toNat + w.len.toNat ≤ 4294967296)

/-- Two windows of non-zero length whose ranges intersect (R65 (b)). -/
def Window.overlaps (a b : Window) : Bool :=
  decide (0 < a.len.toNat) && decide (0 < b.len.toNat) &&
    decide (a.base.toNat < b.base.toNat + b.len.toNat) && decide (b.base.toNat < a.base.toNat + a.len.toNat)

/-- The address lies in the window: `[BASE, BASE + LEN)` (R62). -/
def Window.holds (w : Window) (a : Word) : Bool :=
  decide (w.base.toNat ≤ a.toNat) && decide (a.toNat < w.base.toNat + w.len.toNat)

/-- `Src(i)` (R63). A rule evaluates it only where it has established `i < SRC_LEN`. -/
def State.srcByte (s : State) (i : Nat) : Byte := s.mem.read (s.src.addr i)

/-- The test `i < SRC_LEN` and `Src(i)` in one: `none` is the document's "truncated" condition (R63). -/
def State.srcByte? (s : State) (i : Nat) : Option Byte :=
  if i < s.src.len.toNat then some (s.srcByte i) else none

/-- `Src(o), ..., Src(o + n - 1)`. -/
def State.srcBytes (s : State) (o : Nat) : Nat → List Byte
  | 0 => []
  | n + 1 => s.srcByte o :: s.srcBytes (o + 1) n

/-- All bytes of the source window. -/
def State.srcAll (s : State) : List Byte := s.srcBytes 0 s.src.len.toNat

/-- `Dst(i, v)` (R64). A rule performs it only where it has established `i < DST_LEN`. -/
def State.dstByte (s : State) (i : Nat) (v : Byte) : State :=
  { s with mem := s.mem.write (s.dst.addr i) v }

/-- `Dst` of consecutive offsets from `o`. -/
def State.dstBytes (s : State) (o : Nat) : List Byte → State
  | [] => s
  | v :: vs => (s.dstByte o v).dstBytes (o + 1) vs

/-- `Dst` of a list of offsets and values, in order (R76). -/
def State.dstPlaced (s : State) : List (Nat × Byte) → State
  | [] => s
  | (o, v) :: rest => (s.dstByte o v).dstPlaced rest

/-! ## Output -/

/-- `DSTFULL <- 1`. -/
def State.setDstfull (s : State) : State := { s with status := { s.status with dstfull := true } }

/-- `Emit(b)`, with the local counter `OUT` beside the state (R66). -/
def emit (b : Byte) (out : Nat) (s : State) : Nat × State :=
  if out < s.dst.len.toNat then (out + 1, s.dstByte out b) else (out, s.setDstfull)

/-- `Emit` of each byte, in order. -/
def emitAll : List Byte → Nat → State → Nat × State
  | [], out, s => (out, s)
  | b :: bs, out, s => let r := emit b out s; emitAll bs r.1 r.2

/-- `PutPacket(p)`: `none` is "does not fit", nothing written (R67). -/
def putPacket (p : List Byte) (out : Nat) (s : State) : Option (Nat × State) :=
  if out + p.length > s.dst.len.toNat then none else some (out + p.length, s.dstBytes out p)

/-- The loop of an encoder over its packets, each with the `adv` it stands for: it stops at the first packet
that does not fit. The results are `OUT`, `i` and the state (R67, R213, R218). -/
def putPackets : List (List Byte × Nat) → Nat → Nat → State → Nat × Nat × State
  | [], out, i, s => (out, i, s)
  | (p, adv) :: rest, out, i, s =>
    match putPacket p out s with
    | none => (out, i, s.setDstfull)
    | some (out', s') => putPackets rest out' (i + adv) s'

/-- `RES0 <- a; RES1 <- b`, each reduced to 32 bits (R14 (a)). -/
def State.withRes (s : State) (a b : Nat) : State :=
  { s with res0 := BitVec.ofNat 32 a, res1 := BitVec.ofNat 32 b }

/-! ## The table files -/

/-- `HT[t]`; `none` while `HT[t].valid = 0`. -/
def State.huffSlot (s : State) (t : BitVec 3) : Option HuffTable := s.huff[t.toNat]

/-- Write `HT[t]`. -/
def State.setHuff (s : State) (t : BitVec 3) (h : Option HuffTable) : State :=
  { s with huff := s.huff.set t.toNat h }

/-- `QT[q]`; `none` while `QT[q].valid = 0`. -/
def State.quantSlot (s : State) (q : BitVec 2) : Option (List (BitVec 16)) := s.quant[q.toNat]

/-- Write `QT[q]`. -/
def State.setQuant (s : State) (q : BitVec 2) (e : Option (List (BitVec 16))) : State :=
  { s with quant := s.quant.set q.toNat e }

/-- `PRED[c]`. -/
def State.predOf (s : State) (c : BitVec 2) : Word := s.pred[c.toNat]

/-- `PRED[c] <- v`. -/
def State.setPred (s : State) (c : BitVec 2) (v : Word) : State :=
  { s with pred := s.pred.set c.toNat v }

/-! ## The life of a command -/

end Sys2Proof.Machine

namespace Sys2Proof

/-- The command uses the source window (R96, column "src"). -/
def Instr.usesSrc : Instr → Bool
  | .bsRd _ _ _ _ => true
  | .hufBuild _ => true
  | .hufDec _ _ _ => true
  | .lzwDec _ _ => true
  | .rlePbd => true
  | .rlePbe => true
  | .rleHbd _ => true
  | .rleHbe _ => true
  | .jpgLdq _ => true
  | .jpgBlk _ => true
  | .jpgYcc => true
  | .dxt1Blk => true
  | .dxt3Blk => true
  | .dxt5Blk => true
  | .nop => false
  | .clrerr => false
  | .sreset => false
  | .bsWr _ _ _ => false
  | .bsFlush _ _ _ => false
  | .hufEnc _ _ _ => false
  | .jpgDcp _ => false
  | .jpgRst => false

/-- The command uses the destination window (R96, column "dst"). -/
def Instr.usesDst : Instr → Bool
  | .bsWr _ _ _ => true
  | .bsFlush _ _ _ => true
  | .hufEnc _ _ _ => true
  | .lzwDec _ _ => true
  | .rlePbd => true
  | .rlePbe => true
  | .rleHbd _ => true
  | .rleHbe _ => true
  | .jpgBlk _ => true
  | .jpgYcc => true
  | .dxt1Blk => true
  | .dxt3Blk => true
  | .dxt5Blk => true
  | .nop => false
  | .clrerr => false
  | .sreset => false
  | .bsRd _ _ _ _ => false
  | .hufBuild _ => false
  | .hufDec _ _ _ => false
  | .jpgLdq _ => false
  | .jpgDcp _ => false
  | .jpgRst => false

end Sys2Proof

namespace Sys2Proof.Machine

/-- The window checks of R65 pass for the command. -/
def windowsOk (i : Instr) (s : State) : Bool :=
  (!i.usesSrc || s.src.fits) && (!i.usesDst || s.dst.fits) &&
    !(i.usesSrc && i.usesDst && s.src.overlaps s.dst)

/-- Steps 1 and 2 of R314: `CMD <- w` and the per-command flags cleared. -/
def State.begun (s : State) (w : Word) : State := { s with cmd := w, status := s.status.cleared }

/-- Step 4 of R314, the completion of a command with result `e`. With `e ≠ OK` this is the block's only
exceptional event, error completion (R310): nothing is saved, nothing is vectored, and there is no return from
it (R320). -/
def State.complete (s : State) (e : ResultCode) : State := { s with status := s.status.finished e }

/-- An illegal command word (R94, R312): `IllegalCommand`, and nothing changes but `CMD` and `STATUS`. -/
def illegalWord (w : Word) (s : State) : State := (s.begun w).complete .illegalCommand

/-- The life of a command (R314): steps 1 and 2; then `IllegalCommand` if a field value is illegal or a window
check fails; otherwise the command's pseudocode, which answers the state it leaves and how it ended, with no
rollback (R315); then step 4. -/
def launch (i : Instr) (body : State → State × ResultCode) (s : State) : State :=
  if i.wellFormed && windowsOk i s then
    let r := body (s.begun (encode i))
    r.1.complete r.2
  else illegalWord (encode i) s

/-! ## The host's side of the registers -/

/-- A list of bits as a number, the first bit the least significant. -/
def bitsToNat : List Bool → Nat
  | [] => 0
  | b :: bs => b.toNat + 2 * bitsToNat bs

/-- What a host read of the register at a byte offset returns (R21, R23). An offset that is no register reads
as 0 (R23 (c)); `ID` is constant. -/
def readReg (off : BitVec 8) (s : State) : Word :=
  match off.toNat with
  | 0x00 => s.cmd
  | 0x04 => s.status.word
  | 0x08 => s.src.base
  | 0x0C => s.src.len
  | 0x10 => s.dst.base
  | 0x14 => s.dst.len
  | 0x18 => s.rd.byte
  | 0x1C => s.rd.bit.setWidth 32
  | 0x20 => s.wr.byte
  | 0x24 => s.wr.bit.setWidth 32
  | 0x28 => s.wr.acc.setWidth 32
  | 0x2C => s.arg0
  | 0x30 => s.arg1
  | 0x34 => s.arg2
  | 0x38 => s.arg3
  | 0x3C => s.res0
  | 0x40 => s.res1
  | 0x44 => s.lzwNext
  | 0x48 => s.lzwCsize
  | 0x4C => idWord
  | 0x50 => s.pred[0]
  | 0x54 => s.pred[1]
  | 0x58 => s.pred[2]
  | 0x5C => s.pred[3]
  | 0x60 => BitVec.ofNat 32 (bitsToNat (s.huff.toList.map Option.isSome))
  | 0x64 => BitVec.ofNat 32 (bitsToNat (s.quant.toList.map Option.isSome))
  | _ => 0

/-- A host write of the register at a byte offset other than that of `CMD` (R23): the legal bits are stored, a
read-only register and an offset that is no register ignore it, and there is no side effect. -/
def writeReg (off : BitVec 8) (v : Word) (s : State) : State :=
  match off.toNat with
  | 0x08 => { s with src := { s.src with base := v } }
  | 0x0C => { s with src := { s.src with len := v } }
  | 0x10 => { s with dst := { s.dst with base := v } }
  | 0x14 => { s with dst := { s.dst with len := v } }
  | 0x18 => { s with rd := { s.rd with byte := v } }
  | 0x1C => { s with rd := { s.rd with bit := v.setWidth 3 } }
  | 0x20 => { s with wr := { s.wr with byte := v } }
  | 0x24 => { s with wr := { s.wr with bit := v.setWidth 3 } }
  | 0x28 => { s with wr := { s.wr with acc := v.setWidth 8 } }
  | 0x2C => { s with arg0 := v }
  | 0x30 => { s with arg1 := v }
  | 0x34 => { s with arg2 := v }
  | 0x38 => { s with arg3 := v }
  | _ => s

/-- Every piece of the block's own state at its reset value (R340): memory, the open parameters and what
belongs to the outside world stay. -/
def State.blockReset (s : State) : State :=
  { State.reset with
    mem := s.mem, cfg := s.cfg, rst := s.rst, pending := s.pending, hostData := s.hostData }

/-- The access is an aligned 32-bit access (R23 (d)). -/
def aligned (off : BitVec 8) (bytes : Nat) : Bool := decide (bytes = 4) && decide (off.toNat % 4 = 0)

end Sys2Proof.Machine
end

