-- ==== Sys2Proof/Machine/Operands.lean ====
section
/-!
DEFINITION. The operand forms of the commands: the bit reader and the bit writer over the two cursors
(spec/40_bitstream.md R120 to R125), little-endian numbers (spec/20_memory.md R72), and the rasters of
spec/20_memory.md R68, R73.
-/

namespace Sys2Proof.Machine

/-! ## The bit reader -/

/-- The outcome of reading one bit (R120). -/
inductive BitOut where
  | bit (b : Bool)
  /-- The window has no more bits. -/
  | trunc
  /-- A JPEG marker stands at the cursor. -/
  | eos
deriving DecidableEq, Repr

/-- The bit of a byte that is read or written when `k` bits of it have been (R28, R121, R124). -/
def bitPos (order : Order) (k : BitVec 3) : Nat :=
  match order with
  | .msb => 7 - k.toNat
  | .lsb => k.toNat

/-- Consume one bit of the byte at the cursor; its last bit moves the cursor `skip` bytes on (R121). -/
def ReadCursor.advance (c : ReadCursor) (skip : Word) : ReadCursor :=
  if c.bit = 7 then { byte := c.byte + skip, bit := 0 } else { c with bit := c.bit + 1 }

/-- `RdBit(order, stuff)` over the source window `src` (R121). -/
def rdBit (src : Nat → Option Byte) (order : Order) (stuff : Bool) (c : ReadCursor) :
    BitOut × ReadCursor :=
  match src c.byte.toNat with
  | none => (.trunc, c)
  | some v =>
    if stuff && v == 0xFF then
      match src (c.byte.toNat + 1) with
      | none => (.trunc, c)
      | some next =>
        if next = 0x00 then (.bit (v.getLsbD (bitPos order c.bit)), c.advance 2) else (.eos, c)
    else (.bit (v.getLsbD (bitPos order c.bit)), c.advance 1)

/-- What `ReadBits` carries: the cursor, the value so far and the two flags. -/
structure BitRead where
  cur : ReadCursor
  val : Nat := 0
  trunc : Bool := false
  eos : Bool := false
deriving DecidableEq, Repr

/-- Add bit `i` of the read to the value: the first bit is the most significant in MSB-first order and bit 0 in
LSB-first order (R122). -/
def shiftIn (order : Order) (val i : Nat) (b : Bool) : Nat :=
  match order with
  | .msb => val <<< 1 ||| b.toNat
  | .lsb => val ||| b.toNat <<< i

/-- The loop of `ReadBits` (R122): `n` bits to go, the next of which is bit `i`. The Bool is false where the
loop executed `raise TruncatedData`. -/
def readLoop (src : Nat → Option Byte) (order : Order) (stuff zfill : Bool) :
    Nat → Nat → BitRead → BitRead × Bool
  | 0, _, a => (a, true)
  | n + 1, i, a =>
    match rdBit src order stuff a.cur with
    | (.bit b, c) => readLoop src order stuff zfill n (i + 1) { a with cur := c, val := shiftIn order a.val i b }
    | (.trunc, _) =>
      if zfill then
        readLoop src order stuff zfill n (i + 1) { a with trunc := true, val := shiftIn order a.val i false }
      else ({ a with trunc := true }, false)
    | (.eos, _) =>
      if zfill then
        readLoop src order stuff zfill n (i + 1) { a with eos := true, val := shiftIn order a.val i false }
      else ({ a with eos := true }, false)

/-- `ReadBits(n, order, stuff, zfill)` (R122): the state with the read cursor moved and the flags set, and the
value, or `none` where it raised `TruncatedData`. -/
def readBits (n : Nat) (order : Order) (stuff zfill : Bool) (s : State) : State × Option Nat :=
  let r := readLoop s.srcByte? order stuff zfill n 0 { cur := s.rd }
  ({ s with
      rd := r.1.cur
      status := { s.status with trunc := s.status.trunc || r.1.trunc, eos := s.status.eos || r.1.eos } },
    if r.2 then some r.1.val else none)

/-! ## The bit writer -/

/-- `v` with bit `k` set to `b`. -/
def setBit (v : Byte) (k : Nat) (b : Bool) : Byte :=
  if b then v ||| (1#8 <<< k) else v &&& ~~~(1#8 <<< k)

/-- `WrBit(b, order, stuff)` (R124); `none` where the completed byte has no room: the bit is not accepted and
nothing has changed. -/
def wrBit (order : Order) (stuff b : Bool) (s : State) : Option State :=
  let acc := setBit s.wr.acc (bitPos order s.wr.bit) b
  if s.wr.bit = 7 then
    let out := if stuff && acc == 0xFF then [acc, 0x00] else [acc]
    if s.wr.byte.toNat + out.length > s.dst.len.toNat then none
    else some
      { s.dstBytes s.wr.byte.toNat out with
        wr := { byte := s.wr.byte + BitVec.ofNat 32 out.length, bit := 0, acc := 0 } }
  else some { s with wr := { s.wr with bit := s.wr.bit + 1, acc := acc } }

/-- `WrBit` of each bit in order; the first one refused ends the command with `DSTFULL = 1` and
`TruncatedData`, and the bits before it stay written (R124, R125). -/
def writeBits (order : Order) (stuff : Bool) : List Bool → State → State × ResultCode
  | [], s => (s, .ok)
  | b :: bs, s =>
    match wrBit order stuff b s with
    | none => (s.setDstfull, .truncatedData)
    | some s' => writeBits order stuff bs s'

/-- The `n` low bits of `v` in the order `WriteBits` appends them (R125). -/
def bitsOf (order : Order) (n v : Nat) : List Bool :=
  match order with
  | .msb => (List.range n).map fun i => v.testBit (n - 1 - i)
  | .lsb => (List.range n).map fun i => v.testBit i

/-! ## Numbers and bytes -/

/-- The number whose bytes are given, the byte at the lower address first (R72). -/
def leNat : List Byte → Nat
  | [] => 0
  | b :: bs => b.toNat + 256 * leNat bs

/-- `sext_8` (R12, R14 (d)). -/
def sext8 (b : Byte) : Int := b.toInt

/-- `sext_16` of a number of 16 bits (R12). -/
def sext16 (v : Nat) : Int := (BitVec.ofNat 16 v).toInt

/-- `clamp8` (R12). -/
def clamp8 (v : Int) : Byte := if v < 0 then 0 else if 255 < v then 255 else BitVec.ofInt 8 v

/-- `v >> n`, the floor of `v / 2^n` (R11). -/
def asr (v : Int) (n : Nat) : Int := v / 2 ^ n

/-- The 16-bit little-endian numbers at offsets `0, 2, 4, ...` of the source window. -/
def srcHalves (s : State) (n : Nat) : List Nat :=
  (List.range n).map fun k => leNat (s.srcBytes (2 * k) 2)

/-! ## Rasters -/

/-- The test of R318 with `W = ARG[0]`, `H = ARG[1]`: a dimension is 0 or above `MAX_DIM`, or the raster does
not fit the destination window. -/
def badDimensions (bpp : Nat) (s : State) : Bool :=
  let w := s.arg0.toNat
  let h := s.arg1.toNat
  decide (w = 0) || decide (h = 0) || decide (s.cfg.maxDim < w) || decide (s.cfg.maxDim < h) ||
    decide (s.dst.len.toNat < w * h * bpp)

/-- The offsets and values of consecutive bytes from `o`. -/
def placedAt : Nat → List Byte → List (Nat × Byte)
  | _, [] => []
  | o, v :: vs => (o, v) :: placedAt (o + 1) vs

/-- The writes of one block of `side` × `side` pixels at block column `ARG[2]` and block row `ARG[3]` of a
raster of `W` × `H` pixels, row by row; a pixel outside the raster is skipped (R248, R280). All sums are exact. -/
def blockWrites (side bpp : Nat) (pixel : Nat → Nat → List Byte) (s : State) : List (Nat × Byte) :=
  (List.range side).flatMap fun dy => (List.range side).flatMap fun dx =>
    let x := s.arg2.toNat * side + dx
    let y := s.arg3.toNat * side + dy
    if x < s.arg0.toNat ∧ y < s.arg1.toNat then placedAt ((y * s.arg0.toNat + x) * bpp) (pixel dx dy) else []

end Sys2Proof.Machine
end

