-- ==== Sys2Proof/Machine/Bitstream.lean ====
section
/-!
DEFINITION. The bit cursor commands `BS.RD`, `BS.WR` and `BS.FLUSH` (spec/40_bitstream.md R126 to R129).
-/

namespace Sys2Proof.Machine

/-- The pseudocode of `BS.RD` (R126). -/
def bsRdBody (order : Order) (stuff zfill : Bool) (n : Nat) (s : State) : State × ResultCode :=
  match readBits n order stuff zfill s with
  | (s', none) => (s', .truncatedData)
  | (s', some v) => (s'.withRes v n, .ok)

/-- `BS.RD` (R126). -/
def execBsRd (order : Order) (stuff zfill : Bool) (n : BitVec 6) (s : State) :
    Host.Outcome State Fault Refusal :=
  .next (launch (.bsRd order stuff zfill n) (bsRdBody order stuff zfill n.toNat) s)

/-- `BS.WR` (R127). -/
def execBsWr (order : Order) (stuff : Bool) (n : BitVec 6) (s : State) :
    Host.Outcome State Fault Refusal :=
  .next (launch (.bsWr order stuff n)
    (fun s => writeBits order stuff (bitsOf order n.toNat s.arg0.toNat) s) s)

/-- The pad bits of `BS.FLUSH` (R128): `while WR_BIT != 0` runs `8 - WR_BIT` times, and not at all when
`WR_BIT = 0`, because each accepted bit adds 1 to `WR_BIT` modulo 8 (R124). -/
def padBits (pad : Bool) (k : BitVec 3) : List Bool := List.replicate ((8 - k.toNat) % 8) pad

/-- `BS.FLUSH` (R128). -/
def execBsFlush (order : Order) (stuff pad : Bool) (s : State) : Host.Outcome State Fault Refusal :=
  .next (launch (.bsFlush order stuff pad)
    (fun s => writeBits order stuff (padBits pad s.wr.bit) s) s)

end Sys2Proof.Machine
end

