-- ==== Sys2Proof/Machine/Dxt.lean ====
section
/-!
DEFINITION. The block-texture unit: `DXT1.BLK`, `DXT3.BLK` and `DXT5.BLK` (spec/45_dxt.md R270 to R282).
-/

namespace Sys2Proof.Machine

/-- A colour, three 8-bit channels. -/
structure Rgb where
  r : Nat
  g : Nat
  b : Nat
deriving DecidableEq, Repr

/-- `exp565(c)`: an RGB565 word widened by bit replication (R272). -/
def exp565 (c : Nat) : Rgb :=
  let r5 := c / 2048 % 32
  let g6 := c / 32 % 64
  let b5 := c % 32
  { r := r5 * 8 + r5 / 4, g := g6 * 4 + g6 / 16, b := b5 * 8 + b5 / 4 }

/-- The mean of two colours with the weights `i` and `j`, floor division per channel (R274). -/
def mix (i j : Nat) (e0 e1 : Rgb) : Rgb :=
  { r := (i * e0.r + j * e1.r) / (i + j)
    g := (i * e0.g + j * e1.g) / (i + j)
    b := (i * e0.b + j * e1.b) / (i + j) }

/-- The four bytes of an rgba8 pixel (R73, R270). -/
def rgba (c : Rgb) (a : Nat) : List Byte :=
  [BitVec.ofNat 8 c.r, BitVec.ofNat 8 c.g, BitVec.ofNat 8 c.b, BitVec.ofNat 8 a]

/-- Byte `i` of a block. -/
def byteAt (blk : List Byte) (i : Nat) : Nat := (blk.getD i 0).toNat

/-- Endpoint 0 of a colour block (R271). -/
def endpoint0 (blk : List Byte) : Nat := byteAt blk 0 + 256 * byteAt blk 1

/-- Endpoint 1 of a colour block (R271). -/
def endpoint1 (blk : List Byte) : Nat := byteAt blk 2 + 256 * byteAt blk 3

/-- `idx(dx, dy)` of a colour block (R271). -/
def colourIndex (blk : List Byte) (dx dy : Nat) : Nat := byteAt blk (4 + dy) / 4 ^ dx % 4

/-- The palette entry of an index in the four-colour branch (R274). -/
def fourColour (blk : List Byte) (idx : Nat) : Rgb :=
  let e0 := exp565 (endpoint0 blk)
  let e1 := exp565 (endpoint1 blk)
  match idx with
  | 0 => e0
  | 1 => e1
  | 2 => mix 2 1 e0 e1
  | _ => mix 1 2 e0 e1

/-- The palette entry of an index in the three-colour branch of DXT1, a colour and an alpha (R274). -/
def threeColour (blk : List Byte) (idx : Nat) : Rgb × Nat :=
  let e0 := exp565 (endpoint0 blk)
  let e1 := exp565 (endpoint1 blk)
  match idx with
  | 0 => (e0, 255)
  | 1 => (e1, 255)
  | 2 => (mix 1 1 e0 e1, 255)
  | _ => ({ r := 0, g := 0, b := 0 }, 0)

/-- The pixel `(dx, dy)` of a DXT1 block (R273, R274). -/
def dxt1Pixel (blk : List Byte) (dx dy : Nat) : List Byte :=
  let idx := colourIndex blk dx dy
  if endpoint0 blk ≤ endpoint1 blk then rgba (threeColour blk idx).1 (threeColour blk idx).2
  else rgba (fourColour blk idx) 255

/-- The nibble of pixel `p` of an explicit alpha block (R275). -/
def alphaNibble (blk : List Byte) (p : Nat) : Nat := byteAt blk (p / 2) / 16 ^ (p % 2) % 16

/-- The pixel `(dx, dy)` of a DXT3 block (R275, R276). -/
def dxt3Pixel (blk : List Byte) (dx dy : Nat) : List Byte :=
  let colour := blk.drop 8
  rgba (fourColour colour (colourIndex colour dx dy)) (alphaNibble blk (dy * 4 + dx) * 17)

/-- The 3-bit index of pixel `p` of an interpolated alpha block (R277). -/
def alphaIndex (blk : List Byte) (p : Nat) : Nat := leNat ((blk.drop 2).take 6) / 8 ^ p % 8

/-- `ramp[i]` of the endpoints `a0`, `a1` (R278). -/
def alphaRamp (a0 a1 i : Nat) : Nat :=
  if i = 0 then a0
  else if i = 1 then a1
  else if a1 < a0 then ((8 - i) * a0 + (i - 1) * a1) / 7
  else if i = 6 then 0
  else if i = 7 then 255
  else ((6 - i) * a0 + (i - 1) * a1) / 5

/-- The pixel `(dx, dy)` of a DXT5 block (R277, R279). -/
def dxt5Pixel (blk : List Byte) (dx dy : Nat) : List Byte :=
  let colour := blk.drop 8
  rgba (fourColour colour (colourIndex colour dx dy))
    (alphaRamp (byteAt blk 0) (byteAt blk 1) (alphaIndex blk (dy * 4 + dx)))

/-- The checks and the placement the three commands share: a block of `size` source bytes whose pixels `pixel`
decodes (R273, R280, R318). -/
def dxtBody (size : Nat) (pixel : List Byte → Nat → Nat → List Byte) (s : State) : State × ResultCode :=
  if badDimensions 4 s then (s, .invalidDimensions)
  else if s.src.len.toNat < size then (s, .truncatedData)
  else (s.dstPlaced (blockWrites 4 4 (pixel (s.srcBytes 0 size)) s), .ok)

/-- `DXT1.BLK` (R273). -/
def execDxt1Blk (s : State) : Host.Outcome State Fault Refusal :=
  .next (launch .dxt1Blk (dxtBody 8 dxt1Pixel) s)

/-- `DXT3.BLK` (R276). -/
def execDxt3Blk (s : State) : Host.Outcome State Fault Refusal :=
  .next (launch .dxt3Blk (dxtBody 16 dxt3Pixel) s)

/-- `DXT5.BLK` (R279). -/
def execDxt5Blk (s : State) : Host.Outcome State Fault Refusal :=
  .next (launch .dxt5Blk (dxtBody 16 dxt5Pixel) s)

end Sys2Proof.Machine
end

