-- ==== Sys2Proof/Machine/Huffman.lean ====
section
/-!
DEFINITION. The canonical Huffman unit: `HUF.BUILD`, `HUF.DEC` and `HUF.ENC` (spec/41_huffman.md R150 to R160).
-/

namespace Sys2Proof.Machine

/-- The rows of a table from the counts `L[len], L[len+1], ...`, the next code and the next position
(R151, R152); `none` where the Kraft inequality is violated. -/
def huffRows : List Byte → Nat → Nat → Nat → Option (List HuffRow)
  | [], _, _, _ => some []
  | l :: ls, len, code, k =>
    let code' := code + l.toNat
    if 2 ^ len < code' then none
    else
      (huffRows ls (len + 1) (2 * code') (k + l.toNat)).map fun rows =>
        { count := l
          mincode := BitVec.ofNat 17 code
          maxcode := if 0 < l.toNat then BitVec.ofInt 18 ((code' : Int) - 1) else -1
          valptr := BitVec.ofNat 9 k } :: rows

/-- The sum of the counts. -/
def totalOf (counts : List Byte) : Nat := (counts.map BitVec.toNat).sum

/-- The pseudocode of `HUF.BUILD` (R151); its bound 256 is `HUF_MAXSYM` (R10). -/
def hufBuildBody (slot : BitVec 3) (s : State) : State × ResultCode :=
  let s := s.setHuff slot none
  if s.src.len.toNat < 16 then (s, .truncatedData)
  else
    let counts := s.srcBytes 0 16
    let total := totalOf counts
    if cpb1.hufMaxsym < total then (s, .invalidFormat)
    else
      match huffRows counts 1 0 0 with
      | none => (s, .invalidFormat)
      | some rows =>
        if s.src.len.toNat < 16 + total then (s, .truncatedData)
        else
          ((s.setHuff slot (some
              { rows := rows, total := BitVec.ofNat 9 total, values := s.srcBytes 16 total })).withRes
            total (16 + total), .ok)

/-- `HUF.BUILD` (R151). -/
def execHufBuild (slot : BitVec 3) (s : State) : Host.Outcome State Fault Refusal :=
  .next (launch (.hufBuild slot) (hufBuildBody slot) s)

/-- `values[i]` of a table. R154 (c) keeps the index below `total`. -/
def HuffTable.value (h : HuffTable) (i : Nat) : Byte := h.values.getD i 0

/-- The loop of `HUF.DEC` (R156) over the rows of the table still to try; `len` is the length of the first of
them and `code` the bits read so far. -/
def hufDecLoop (h : HuffTable) (stuff zfill : Bool) :
    List HuffRow → Nat → Nat → State → State × ResultCode
  | [], _, _, s => (s, .decompressionFailed)
  | row :: rows, len, code, s =>
    match readBits 1 .msb stuff zfill s with
    | (s', none) => (s', .truncatedData)
    | (s', some b) =>
      let code' := code <<< 1 ||| b
      if (code' : Int) ≤ row.maxcode.toInt then
        (s'.withRes (h.value (row.valptr.toNat + code' - row.mincode.toNat)).toNat len, .ok)
      else hufDecLoop h stuff zfill rows (len + 1) code' s'

/-- The pseudocode of `HUF.DEC` (R156, R313). -/
def hufDecBody (slot : BitVec 3) (stuff zfill : Bool) (s : State) : State × ResultCode :=
  match s.huffSlot slot with
  | none => (s, .notReady)
  | some h => hufDecLoop h stuff zfill h.rows 1 0 s

/-- `HUF.DEC` (R156). -/
def execHufDec (slot : BitVec 3) (stuff zfill : Bool) (s : State) : Host.Outcome State Fault Refusal :=
  .next (launch (.hufDec slot stuff zfill) (hufDecBody slot stuff zfill) s)

/-- `len(k)` and `codeof(k)` of R153, sought in rows of which the first has length `len`: the row with
`valptr[len] ≤ k < valptr[len] + L[len]`. -/
def codeIn : List HuffRow → Nat → Nat → Option (Nat × Nat)
  | [], _, _ => none
  | row :: rows, len, k =>
    if row.valptr.toNat ≤ k ∧ k < row.valptr.toNat + row.count.toNat then
      some (len, row.mincode.toNat + (k - row.valptr.toNat))
    else codeIn rows (len + 1) k

/-- The length and the code of position `k` of a table (R153). -/
def HuffTable.codeOf (h : HuffTable) (k : Nat) : Option (Nat × Nat) := codeIn h.rows 1 k

/-- The pseudocode of `HUF.ENC` (R159, R160, R313). A position below `total` always has a code (R153). -/
def hufEncBody (slot : BitVec 3) (stuff : Bool) (sym : Byte) (s : State) : State × ResultCode :=
  match s.huffSlot slot with
  | none => (s, .notReady)
  | some h =>
    match (h.values.findIdx? (· == sym)).bind h.codeOf with
    | none => (s, .invalidFormat)
    | some (len, code) =>
      match writeBits .msb stuff (bitsOf .msb len code) s with
      | (s', .ok) => (s'.withRes code len, .ok)
      | (s', e) => (s', e)

/-- `HUF.ENC` (R159). -/
def execHufEnc (slot : BitVec 3) (stuff : Bool) (sym : BitVec 8) (s : State) :
    Host.Outcome State Fault Refusal :=
  .next (launch (.hufEnc slot stuff sym) (hufEncBody slot stuff sym) s)

end Sys2Proof.Machine
end

