-- ==== Sys2Proof/Machine/Jpeg.lean ====
section
/-!
DEFINITION. The JPEG transform unit: `JPG.LDQ`, `JPG.BLK`, `JPG.YCC`, `JPG.DCP` and `JPG.RST`
(spec/44_jpeg.md R240 to R255). All products and sums are exact integers.
-/

namespace Sys2Proof.Machine

/-! ## Quantisation tables -/

/-- The pseudocode of `JPG.LDQ` (R240, R241): the slot is invalid until the load has succeeded. -/
def jpgLdqBody (slot : BitVec 2) (s : State) : State × ResultCode :=
  let s := s.setQuant slot none
  if s.src.len.toNat < 128 then (s, .truncatedData)
  else (s.setQuant slot (some ((srcHalves s 64).map (BitVec.ofNat 16))), .ok)

/-- `JPG.LDQ` (R241). -/
def execJpgLdq (slot : BitVec 2) (s : State) : Host.Outcome State Fault Refusal :=
  .next (launch (.jpgLdq slot) (jpgLdqBody slot) s)

/-! ## The block -/

/-- `F`: the dequantised coefficients in raster order, `F[ZZ[k]] = C[k] · QT[q][k]` (R242, R243). -/
def dequantize (coeffs : List Int) (quant : List (BitVec 16)) : List Int :=
  (List.range 64).map fun r =>
    coeffs.getD (zigzag.idxOf r) 0 * ((quant.getD (zigzag.idxOf r) 0).toNat : Int)

/-- `K[x][u]` of the configuration's kernel (R244). -/
def kernelAt (k : List (List Int)) (x u : Nat) : Int := (k.getD x []).getD u 0

/-- The sum of `f 0` to `f 7`. -/
def sum8 (f : Nat → Int) : Int := f 0 + f 1 + f 2 + f 3 + f 4 + f 5 + f 6 + f 7

/-- The column pass: `T[y][u]` at index `8y + u` (R245). -/
def columnPass (k : List (List Int)) (f : List Int) : List Int :=
  (List.range 64).map fun i => sum8 fun v => kernelAt k (i / 8) v * f.getD (v * 8 + i % 8) 0

/-- The row pass: `P[y][x]` at index `8y + x` (R245). -/
def rowPass (k : List (List Int)) (t : List Int) : List Int :=
  (List.range 64).map fun i => sum8 fun u => kernelAt k (i % 8) u * t.getD (i / 8 * 8 + u) 0

/-- The one rounding, the level shift by +128 and the clamp (R245). -/
def sampleOf (p : Int) : Byte := clamp8 (asr (p + 8388608) 24 + 128)

/-- `idct_block(F)`: the 64 samples, `S[y·8 + x]` (R245). -/
def idctBlock (k : List (List Int)) (f : List Int) : List Byte :=
  (rowPass k (columnPass k f)).map sampleOf

/-- The coefficients `C[0..63]` of the source window, in zig-zag order (R248). -/
def coefficients (s : State) : List Int := (srcHalves s 64).map sext16

/-- The pseudocode of `JPG.BLK` (R248, R313, R318). -/
def jpgBlkBody (slot : BitVec 2) (s : State) : State × ResultCode :=
  match s.quantSlot slot with
  | none => (s, .notReady)
  | some quant =>
    if badDimensions 1 s then (s, .invalidDimensions)
    else if s.src.len.toNat < 128 then (s, .truncatedData)
    else
      let samples := idctBlock s.cfg.idctKernel (dequantize (coefficients s) quant)
      (s.dstPlaced (blockWrites 8 1 (fun dx dy => [samples.getD (dy * 8 + dx) 0]) s), .ok)

/-- `JPG.BLK` (R248). -/
def execJpgBlk (slot : BitVec 2) (s : State) : Host.Outcome State Fault Refusal :=
  .next (launch (.jpgBlk slot) (jpgBlkBody slot) s)

/-! ## Colour conversion -/

/-- `ycc(Y, Cb, Cr)` (R250), as the bytes R, G, B. -/
def yccPixel (y cb cr : Byte) : List Byte :=
  let b : Int := cb.toNat - 128
  let r : Int := cr.toNat - 128
  [clamp8 (y.toNat + asr (91881 * r + 32768) 16),
   clamp8 (y.toNat + asr (-22544 * b - 46793 * r + 32768) 16),
   clamp8 (y.toNat + asr (116130 * b + 32768) 16)]

/-- The pseudocode of `JPG.YCC` (R251). DESIGN CHOICE (notes/assumptions/22.md): with `N = 0` and an `ARG[j]` above
`SRC_LEN` the plane test of the pseudocode raises `TruncatedData`, while the rule's corner case says that `N = 0`
"does nothing and ends OK"; the model follows the pseudocode. Unsafe. -/
def jpgYccBody (s : State) : State × ResultCode :=
  let n := s.arg0.toNat
  if s.dst.len.toNat < 3 * n then (s, .invalidDimensions)
  else if s.src.len.toNat < s.arg1.toNat + n ∨ s.src.len.toNat < s.arg2.toNat + n ∨
      s.src.len.toNat < s.arg3.toNat + n then (s, .truncatedData)
  else
    (s.dstPlaced ((List.range n).flatMap fun i =>
      placedAt (3 * i) (yccPixel (s.srcByte (s.arg1.toNat + i)) (s.srcByte (s.arg2.toNat + i))
        (s.srcByte (s.arg3.toNat + i)))), .ok)

/-- `JPG.YCC` (R251). -/
def execJpgYcc (s : State) : Host.Outcome State Fault Refusal :=
  .next (launch .jpgYcc jpgYccBody s)

/-! ## DC prediction -/

/-- The pseudocode of `JPG.DCP` (R252). -/
def jpgDcpBody (comp : BitVec 2) (s : State) : State × ResultCode :=
  ({ s.setPred comp (s.predOf comp + s.arg0) with res0 := s.predOf comp + s.arg0 }, .ok)

/-- `JPG.DCP` (R252). -/
def execJpgDcp (comp : BitVec 2) (s : State) : Host.Outcome State Fault Refusal :=
  .next (launch (.jpgDcp comp) (jpgDcpBody comp) s)

/-- `JPG.RST` (R253). -/
def execJpgRst (s : State) : Host.Outcome State Fault Refusal :=
  .next (launch .jpgRst (fun s => ({ s with pred := Vector.replicate 4 0 }, .ok)) s)

end Sys2Proof.Machine
end

