-- ==== Sys2Proof/Machine/Lzw.lean ====
section
/-!
DEFINITION. The LZW unit: `LZW.DEC` (spec/42_lzw.md R180 to R189). The decoder reads the source window as it
stands at the launch and its output is emitted afterwards: the windows do not overlap, so the two orders are
the same command (spec/20_memory.md R65, R76), and its control flow does not depend on `DST_LEN` (R188 (d)).
-/

namespace Sys2Proof.Machine

/-- `clear_code` (R180). -/
def clearCode (m : Nat) : Nat := 2 ^ m

/-- `end_code` (R180). -/
def endCode (m : Nat) : Nat := 2 ^ m + 1

/-- Reset of the unit, at the start of the command and at a clear code (R182). The entries of the dictionary
that R182 leaves in place lie at or above `next_code`, so they are not defined (R35) and are not held. -/
def lzwStart (m : Nat) : LzwUnit :=
  { dict := [], nextCode := BitVec.ofNat 13 (endCode m + 1), codeSize := BitVec.ofNat 4 (m + 1), prev := none }

/-- `expand(c)` (R183). A chain of prefixes falls strictly, so 4096 steps are more than any code needs. -/
def expandCode (m : Nat) (dict : List (Nat × LzwEntry)) : Nat → Nat → List Byte
  | 0, _ => []
  | steps + 1, c =>
    if c < clearCode m then [BitVec.ofNat 8 c]
    else
      match dict.lookup c with
      | none => []
      | some e => expandCode m dict steps e.prefixCode.toNat ++ [e.suffix]

/-- `expand(c)` in the unit's dictionary (R183). -/
def LzwUnit.expand (m : Nat) (u : LzwUnit) (c : Nat) : List Byte := expandCode m u.dict 4096 c

/-- The code is in the dictionary (R183). -/
def LzwUnit.knows (m : Nat) (u : LzwUnit) (c : Nat) : Bool :=
  decide (c < clearCode m) || (decide (endCode m < c) && decide (c < u.nextCode.toNat))

/-- The bytes a code stands for: its expansion, or in the deferred case that of `prev` and its own first byte;
`none` for a code that has no expansion (R181, R185, R186). -/
def LzwUnit.bytesOf (m : Nat) (u : LzwUnit) (c : Nat) : Option (List Byte) :=
  if u.knows m c then some (u.expand m c)
  else if c = u.nextCode.toNat then
    u.prev.map fun p => u.expand m p.toNat ++ (u.expand m p.toNat).take 1
  else none

/-- Append the entry `(prev, first)` at `next_code` and let the width grow; a full table stays as it is
(R184). -/
def LzwUnit.append (u : LzwUnit) (prev : BitVec 12) (first : Byte) : LzwUnit :=
  if u.nextCode.toNat < 4096 then
    let next := u.nextCode + 1
    { u with
      dict := u.dict ++ [(u.nextCode.toNat, { prefixCode := prev, suffix := first })]
      nextCode := next
      codeSize :=
        if next.toNat = 2 ^ u.codeSize.toNat ∧ u.codeSize.toNat < 12 then u.codeSize + 1 else u.codeSize }
  else u

/-- The unit after code `c` has been emitted as `bytes` (R181, R184): an entry if a previous code existed, and
`prev <- code`. -/
def LzwUnit.after (u : LzwUnit) (c : Nat) (bytes : List Byte) : LzwUnit :=
  let grown :=
    match u.prev with
    | none => u
    | some p => u.append p (bytes.headD 0)
  { grown with prev := some (BitVec.ofNat 12 c) }

/-- What a run of the decoder leaves: the bytes to emit, in order, the codes read in full, and the rest. -/
structure LzwRun where
  out : List Byte := []
  ncodes : Nat := 0
  cur : ReadCursor
  trunc : Bool := false
  unit : LzwUnit
  err : ResultCode
deriving DecidableEq, Repr

/-- The loop of `LZW.DEC` (R181). Each turn consumes at least 3 bits of the window or ends the loop (R189), so
`8·SRC_LEN + 1` turns are more than any stream needs and the first case is never met. -/
def lzwLoop (src : Nat → Option Byte) (order : Order) (m : Nat) : Nat → ReadCursor → LzwUnit → LzwRun
  | 0, cur, u => { cur := cur, unit := u, err := .truncatedData }
  | turns + 1, cur, u =>
    match readLoop src order false false u.codeSize.toNat 0 { cur := cur } with
    | (r, false) => { cur := r.cur, trunc := r.trunc, unit := u, err := .truncatedData }
    | (r, true) =>
      if r.val = clearCode m then
        let rest := lzwLoop src order m turns r.cur (lzwStart m)
        { rest with ncodes := rest.ncodes + 1 }
      else if r.val = endCode m then { ncodes := 1, cur := r.cur, unit := u, err := .ok }
      else
        match u.bytesOf m r.val with
        | none => { ncodes := 1, cur := r.cur, unit := u, err := .decompressionFailed }
        | some bytes =>
          let rest := lzwLoop src order m turns r.cur (u.after r.val bytes)
          { rest with out := bytes ++ rest.out, ncodes := rest.ncodes + 1 }

/-- The pseudocode of `LZW.DEC` (R181), the lines "at every exit" included. -/
def lzwDecBody (order : Order) (m : Nat) (s : State) : State × ResultCode :=
  let r := lzwLoop s.srcByte? order m (8 * s.src.len.toNat + 1) s.rd (lzwStart m)
  let e := emitAll r.out 0 s
  ({ e.2.withRes e.1 r.ncodes with
      rd := r.cur
      status := { e.2.status with trunc := e.2.status.trunc || r.trunc }
      lzw := r.unit
      lzwNext := r.unit.nextCode.setWidth 32
      lzwCsize := r.unit.codeSize.setWidth 32 }, r.err)

/-- `LZW.DEC` (R181). -/
def execLzwDec (order : Order) (mincs : BitVec 4) (s : State) : Host.Outcome State Fault Refusal :=
  .next (launch (.lzwDec order mincs) (lzwDecBody order mincs.toNat) s)

end Sys2Proof.Machine
end

