-- ==== Sys2Proof/Machine/Rle.lean ====
section
/-!
DEFINITION. The run-length unit: `RLE.PBD`, `RLE.PBE`, `RLE.HBD` and `RLE.HBE` (spec/43_rle.md R210 to R222).
Each command reads the whole source window, from offset 0, before it writes: the windows do not overlap
(spec/20_memory.md R65, R76). In the decoders the bytes from `i` on stand for the index `i` of the pseudocode.
-/

namespace Sys2Proof.Machine

/-! ## The decoders -/

/-- What a run of a decoder leaves: the bytes to emit, in order, the source bytes consumed (`i`), and how it
ended. -/
structure RleRun where
  out : List Byte := []
  used : Nat := 0
  err : ResultCode := .ok
deriving DecidableEq, Repr

/-- A packet of `used` source bytes that outputs `bytes`, before a run. -/
def RleRun.after (bytes : List Byte) (used : Nat) (r : RleRun) : RleRun :=
  { r with out := bytes ++ r.out, used := used + r.used }

/-- The loop of `RLE.PBD` over the bytes from `i` on (R210, R211). Each turn consumes at least one byte, so as
many turns as there are bytes are enough. -/
def pbDecode : Nat → List Byte → RleRun
  | 0, _ => {}
  | _ + 1, [] => {}
  | turns + 1, h :: rest =>
    let n := sext8 h
    if 0 ≤ n then
      let c := n.toNat + 1
      if rest.length < c then { out := rest, used := 1 + rest.length, err := .truncatedData }
      else (pbDecode turns (rest.drop c)).after (rest.take c) (1 + c)
    else if n = -128 then (pbDecode turns rest).after [] 1
    else
      match rest with
      | [] => { used := 1, err := .truncatedData }
      | v :: rest' => (pbDecode turns rest').after (List.replicate (1 - n).toNat v) 2

/-- The loop of `RLE.HBD` over the bytes from `i` on, with elements of `sz` bytes (R215, R216). -/
def hbDecode (sz : Nat) : Nat → List Byte → RleRun
  | 0, _ => {}
  | _ + 1, [] => {}
  | turns + 1, h :: rest =>
    let c := (h.extractLsb' 0 7).toNat + 1
    if h.getLsbD 7 then
      if rest.length < sz then { used := 1, err := .truncatedData }
      else (hbDecode sz turns (rest.drop sz)).after (List.replicate c (rest.take sz)).flatten (1 + sz)
    else
      let tot := c * sz
      if rest.length < tot then { out := rest, used := 1 + rest.length, err := .truncatedData }
      else (hbDecode sz turns (rest.drop tot)).after (rest.take tot) (1 + tot)

/-- Emit what a decoder outputs; at every exit `RES0 <- OUT`, `RES1 <- i` (R211, R216). -/
def finishDecode (r : RleRun) (s : State) : State × ResultCode :=
  let e := emitAll r.out 0 s
  (e.2.withRes e.1 r.used, r.err)

/-- `RLE.PBD` (R211). -/
def execRlePbd (s : State) : Host.Outcome State Fault Refusal :=
  .next (launch .rlePbd (fun s => finishDecode (pbDecode s.srcAll.length s.srcAll) s) s)

/-- `RLE.HBD` (R216). -/
def execRleHbd (size : BitVec 3) (s : State) : Host.Outcome State Fault Refusal :=
  .next (launch (.rleHbd size) (fun s => finishDecode (hbDecode size.toNat s.srcAll.length s.srcAll) s) s)

/-! ## The encoders -/

/-- What an encoder makes a packet from: a run of two or more equal elements, or a row of elements as they
stand (R213, R218). -/
inductive Token (α : Type) where
  | run (count : Nat) (x : α)
  | literal (xs : List α)
deriving DecidableEq, Repr

/-- How many elements the token stands for: `adv` (R213, R218). -/
def Token.adv {α : Type} : Token α → Nat
  | .run count _ => count
  | .literal xs => xs.length

/-- How many of the elements after `x`, at most `cap`, continue its run (R213: the first inner loop). -/
def runMore {α : Type} [DecidableEq α] (x : α) : Nat → List α → Nat
  | 0, _ => 0
  | _ + 1, [] => 0
  | cap + 1, y :: ys => if y = x then 1 + runMore x cap ys else 0

/-- How many more elements, at most `cap`, a literal packet gathers: it stops before an element that equals
its successor (R213: the second inner loop). -/
def literalMore {α : Type} [DecidableEq α] : Nat → List α → Nat
  | 0, _ => 0
  | _ + 1, [] => 0
  | cap + 1, y :: ys => if ys.head? = some y then 0 else 1 + literalMore cap ys

/-- The tokens of a sequence, greedily and with at most 128 elements each (R213, R218). Each turn takes at
least one element. -/
def tokens {α : Type} [DecidableEq α] : Nat → List α → List (Token α)
  | 0, _ => []
  | _ + 1, [] => []
  | turns + 1, x :: xs =>
    if 0 < runMore x 127 xs then
      .run (1 + runMore x 127 xs) x :: tokens turns (xs.drop (runMore x 127 xs))
    else
      .literal (x :: xs.take (literalMore 127 xs)) :: tokens turns (xs.drop (literalMore 127 xs))

/-- The PackBits packet of a token (R213). -/
def pbPacket : Token Byte → List Byte
  | .run count x => [BitVec.ofNat 8 ((257 - count) % 256), x]
  | .literal xs => BitVec.ofNat 8 (xs.length - 1) :: xs

/-- The high-bit-flag packet of a token (R218). -/
def hbPacket : Token (List Byte) → List Byte
  | .run count x => (0x80 ||| BitVec.ofNat 8 (count - 1)) :: x
  | .literal xs => BitVec.ofNat 8 (xs.length - 1) :: xs.flatten

/-- The elements `E(0), E(1), ...` of `sz` bytes (R218). -/
def elements (sz : Nat) : Nat → List Byte → List (List Byte)
  | 0, _ => []
  | n + 1, bs => bs.take sz :: elements sz n (bs.drop sz)

/-- Put the packets; then `RES0 <- OUT` and `RES1 <- i · unit` (R213, R218). -/
def finishEncode (unit : Nat) (packets : List (List Byte × Nat)) (s : State) : State × ResultCode :=
  let r := putPackets packets 0 0 s
  (r.2.2.withRes r.1 (r.2.1 * unit), .ok)

/-- The packets of `RLE.PBE`, each with its `adv` (R213). -/
def pbPackets (bs : List Byte) : List (List Byte × Nat) :=
  (tokens bs.length bs).map fun t => (pbPacket t, t.adv)

/-- The packets of `RLE.HBE`, each with its `adv` in elements (R218). -/
def hbPackets (es : List (List Byte)) : List (List Byte × Nat) :=
  (tokens es.length es).map fun t => (hbPacket t, t.adv)

/-- `RLE.PBE` (R213). -/
def execRlePbe (s : State) : Host.Outcome State Fault Refusal :=
  .next (launch .rlePbe (fun s => finishEncode 1 (pbPackets s.srcAll) s) s)

/-- The pseudocode of `RLE.HBE` (R218). -/
def rleHbeBody (sz : Nat) (s : State) : State × ResultCode :=
  if s.src.len.toNat % sz ≠ 0 then (s, .invalidFormat)
  else finishEncode sz (hbPackets (elements sz (s.src.len.toNat / sz) s.srcAll)) s

/-- `RLE.HBE` (R218). -/
def execRleHbe (size : BitVec 3) (s : State) : Host.Outcome State Fault Refusal :=
  .next (launch (.rleHbe size) (rleHbeBody size.toNat) s)

end Sys2Proof.Machine
end

