-- ==== Sys2Proof/Machine/System.lean ====
section
/-!
DEFINITION. The system commands `NOP`, `CLRERR` and `SRESET` (spec/46_system.md R300 to R302).
-/

namespace Sys2Proof.Machine

/-- `NOP` (R300): nothing beyond what every command does. -/
def execNop (s : State) : Host.Outcome State Fault Refusal :=
  .next (launch .nop (fun s => (s, .ok)) s)

/-- `CLRERR` (R301): `CMD` holds the word and `STATUS <- 0` in place of step 4 of R314. -/
def execClrerr (s : State) : Host.Outcome State Fault Refusal :=
  .next { s.begun (encode .clrerr) with status := Status.zero }

/-- `SRESET` (R302): every piece of state takes its reset value, except that `CMD` holds the word; memory is not
touched. -/
def execSreset (s : State) : Host.Outcome State Fault Refusal :=
  .next { s.blockReset with cmd := encode .sreset }

end Sys2Proof.Machine
end

