-- ==== Sys2Proof/Machine/Dispatch.lean ====
section
/-! DEFINITION. What each command does: one arm per row of the opcode map (spec/30_encoding.md R95). -/

namespace Sys2Proof.Machine

def exec (i : Instr) (s : State) : Host.Outcome State Fault Refusal :=
  match i with
  | .nop => Sys2Proof.Machine.execNop s
  | .clrerr => Sys2Proof.Machine.execClrerr s
  | .sreset => Sys2Proof.Machine.execSreset s
  | .bsRd order stuff zfill n => Sys2Proof.Machine.execBsRd order stuff zfill n s
  | .bsWr order stuff n => Sys2Proof.Machine.execBsWr order stuff n s
  | .bsFlush order stuff pad => Sys2Proof.Machine.execBsFlush order stuff pad s
  | .hufBuild slot => Sys2Proof.Machine.execHufBuild slot s
  | .hufDec slot stuff zfill => Sys2Proof.Machine.execHufDec slot stuff zfill s
  | .hufEnc slot stuff sym => Sys2Proof.Machine.execHufEnc slot stuff sym s
  | .lzwDec order mincs => Sys2Proof.Machine.execLzwDec order mincs s
  | .rlePbd => Sys2Proof.Machine.execRlePbd s
  | .rlePbe => Sys2Proof.Machine.execRlePbe s
  | .rleHbd size => Sys2Proof.Machine.execRleHbd size s
  | .rleHbe size => Sys2Proof.Machine.execRleHbe size s
  | .jpgLdq slot => Sys2Proof.Machine.execJpgLdq slot s
  | .jpgBlk slot => Sys2Proof.Machine.execJpgBlk slot s
  | .jpgYcc => Sys2Proof.Machine.execJpgYcc s
  | .jpgDcp comp => Sys2Proof.Machine.execJpgDcp comp s
  | .jpgRst => Sys2Proof.Machine.execJpgRst s
  | .dxt1Blk => Sys2Proof.Machine.execDxt1Blk s
  | .dxt3Blk => Sys2Proof.Machine.execDxt3Blk s
  | .dxt5Blk => Sys2Proof.Machine.execDxt5Blk s

end Sys2Proof.Machine
end

