-- ==== Sys2Proof/Machine/Bus.lean ====
section
/-!
DEFINITION. What one transaction of the outside world does to the block: a command word at `CMD`, any other
register access, the host's own memory accesses and the reset input (spec/10_state.md R21 to R23,
spec/30_encoding.md R90, spec/60_exceptions.md R314, spec/70_reset_and_hazards.md R340).
-/

namespace Sys2Proof.Machine

/-- A write of word `w` to `CMD`: the word is decoded, and the command it selects runs to completion before the
write completes (R90, R314). -/
def runWord (w : Word) (s : State) : Host.Outcome State Fault Refusal :=
  match decode w with
  | .ok i => exec i s
  | .error _ => .next (illegalWord w s)

/-- The platform drives `rst`: when it is released the block takes its reset state (R340). -/
def driveRst (level : Bool) (s : State) : State :=
  if s.rst && !level then { s.blockReset with rst := false } else { s with rst := level }

/-- One transaction (R5). While `rst` is asserted a `CMD` write has no effect (R340). -/
def transact (op : HostOp) (s : State) : Host.Outcome State Fault Refusal :=
  match op with
  | .regWrite off bytes v =>
    if !aligned off bytes then .refused .unalignedRegisterAccess
    else if off = 0 then (if s.rst then .next s else runWord v s)
    else .next (writeReg off v s)
  | .regRead off bytes =>
    if !aligned off bytes then .refused .unalignedRegisterAccess
    else .next { s with hostData := readReg off s }
  | .memWrite a v => .next { s with mem := s.mem.write a v }
  | .memRead a => .next { s with hostData := (s.mem.read a).setWidth 32 }
  | .setRst level => .next (driveRst level s)

/-- The next transaction, taken off the front of those still to come; with none the block is idle and nothing
changes (R341). -/
def serve (s : State) : Host.Outcome State Fault Refusal :=
  match s.pending with
  | [] => .next s
  | op :: rest => transact op { s with pending := rest }

/-- `s` with the command word `w` as the host's next transaction and `rst` released. -/
def State.withCommand (s : State) (w : Word) : State :=
  { s with rst := false, pending := .regWrite 0 4 w :: s.pending }

end Sys2Proof.Machine
end

