-- ==== Sys2Proof/Machine/Step.lean ====
section
/-!
DEFINITION. One step: the block fetches nothing (spec/10_state.md R22), so a step serves the next transaction
of the outside world, and a command is one step whole (spec/00_scope.md R6).
-/

namespace Sys2Proof.Machine

/-- One step of the machine. -/
def step (s : State) : Host.Outcome State Fault Refusal := serve s

/-- `s` with the command word `w` of `nbits` bits where the next step takes its command from: the host's write
of `CMD` comes next. -/
def State.withFetchWord (s : State) (nbits w : Nat) : State :=
  s.withCommand (BitVec.ofNat 32 (w % 2 ^ nbits))

end Sys2Proof.Machine
end

