-- ==== Sys2Proof/Safety.lean ====
section
/-!
DEFINITION. The terms the claims about the machine are made in: what completion leaves in `STATUS`, which
states are in order, what an output in the destination window is, and the spec's own descriptions of streams,
packets, dictionaries, blocks and pixels, written apart from the definitions the machine runs.
-/

namespace Sys2Proof.Machine

/-! ## Completion -/

/-- `STATUS` after a command that ended with `e` and set the per-command flags as given: `ERR`, `FIRST` (the
first error stays), the flags, and their sticky copies (R24, R25, R314). -/
def Status.ended (st : Status) (e : ResultCode) (dstfull trunc eos : Bool) : Status where
  err := e
  first := if st.first = .ok then e else st.first
  dstfull := dstfull
  trunc := trunc
  eos := eos
  sDstfull := st.sDstfull || dstfull
  sTrunc := st.sTrunc || trunc
  sEos := st.sEos || eos

/-- What every command leaves in `CMD` and `STATUS`; all else is as before. -/
def State.ended (s : State) (i : Instr) (e : ResultCode) (dstfull trunc eos : Bool) : State :=
  { s with cmd := encode i, status := s.status.ended e dstfull trunc eos }

/-- A command that ended OK with none of the three flags. -/
def State.endedOk (s : State) (i : Instr) : State := s.ended i .ok false false false

end Sys2Proof.Machine

namespace Sys2Proof

open Machine

/-- The codes a command can end with (the table of R317). -/
def Instr.possibleErrors : Instr → List ResultCode
  | .nop => [.ok]
  | .clrerr => [.ok]
  | .sreset => [.ok]
  | .bsRd _ _ _ _ => [.ok, .truncatedData, .illegalCommand]
  | .bsWr _ _ _ => [.ok, .truncatedData, .illegalCommand]
  | .bsFlush _ _ _ => [.ok, .truncatedData, .illegalCommand]
  | .hufBuild _ => [.ok, .truncatedData, .invalidFormat, .illegalCommand]
  | .hufDec _ _ _ => [.ok, .truncatedData, .decompressionFailed, .illegalCommand, .notReady]
  | .hufEnc _ _ _ => [.ok, .truncatedData, .invalidFormat, .illegalCommand, .notReady]
  | .lzwDec _ _ => [.ok, .truncatedData, .decompressionFailed, .illegalCommand]
  | .rlePbd => [.ok, .truncatedData, .illegalCommand]
  | .rlePbe => [.ok, .illegalCommand]
  | .rleHbd _ => [.ok, .truncatedData, .illegalCommand]
  | .rleHbe _ => [.ok, .invalidFormat, .illegalCommand]
  | .jpgLdq _ => [.ok, .truncatedData, .illegalCommand]
  | .jpgBlk _ => [.ok, .truncatedData, .invalidDimensions, .illegalCommand, .notReady]
  | .jpgYcc => [.ok, .truncatedData, .invalidDimensions, .illegalCommand]
  | .jpgDcp _ => [.ok, .illegalCommand]
  | .jpgRst => [.ok, .illegalCommand]
  | .dxt1Blk => [.ok, .truncatedData, .invalidDimensions, .illegalCommand]
  | .dxt3Blk => [.ok, .truncatedData, .invalidDimensions, .illegalCommand]
  | .dxt5Blk => [.ok, .truncatedData, .invalidDimensions, .illegalCommand]

/-- The command moves the read cursor (R32, R96 column "rd cur"). -/
def Instr.movesReadCursor : Instr → Prop
  | .bsRd _ _ _ _ | .hufDec _ _ _ | .lzwDec _ _ => True
  | _ => False

/-- The command moves the write cursor (R32, R96 column "wr cur"). -/
def Instr.movesWriteCursor : Instr → Prop
  | .bsWr _ _ _ | .bsFlush _ _ _ | .hufEnc _ _ _ => True
  | _ => False

/-- A window check of R65 fails for the command: a window it uses wraps past `2^32`, or it uses both, neither is
empty and they intersect. -/
abbrev Instr.windowError (i : Instr) (s : State) : Prop :=
  (i.usesSrc = true ∧ 4294967296 < s.src.base.toNat + s.src.len.toNat) ∨
    (i.usesDst = true ∧ 4294967296 < s.dst.base.toNat + s.dst.len.toNat) ∨
    (i.usesSrc = true ∧ i.usesDst = true ∧ 0 < s.src.len.toNat ∧ 0 < s.dst.len.toNat ∧
      s.src.base.toNat < s.dst.base.toNat + s.dst.len.toNat ∧ s.dst.base.toNat < s.src.base.toNat + s.src.len.toNat)

/-- The command's rule writes `RES0` (the table of R27). -/
def Instr.writesRes0 : Instr → Prop
  | .bsRd _ _ _ _ | .hufBuild _ | .hufDec _ _ _ | .hufEnc _ _ _ | .lzwDec _ _ | .rlePbd | .rlePbe
  | .rleHbd _ | .rleHbe _ | .jpgDcp _ => True
  | _ => False

/-- The command's rule writes `RES1` (the table of R27). -/
def Instr.writesRes1 : Instr → Prop
  | .jpgDcp _ => False
  | i => i.writesRes0

end Sys2Proof

namespace Sys2Proof.Machine

/-! ## States in order -/

/-- The fields of a slot are those a successful build gives them (R151, R154): sixteen rows that follow from
their counts, at most 256 symbols, and as many values. -/
abbrev HuffTable.wf (h : HuffTable) : Prop :=
  h.rows.length = 16 ∧ huffRows (h.rows.map HuffRow.count) 1 0 0 = some h.rows ∧
    h.total.toNat = totalOf (h.rows.map HuffRow.count) ∧ h.total.toNat ≤ 256 ∧
    h.values.length = h.total.toNat

/-- The bounds of the LZW unit (R35, R183, R189): `next_code ≤ 4096`, `code_size ≤ 12`, `next_code ≤
2^code_size` with equality only at width 12, and every defined entry has a smaller code as its prefix. -/
abbrev LzwUnit.wf (u : LzwUnit) : Prop :=
  u.nextCode.toNat ≤ 4096 ∧ u.codeSize.toNat ≤ 12 ∧
    (u.nextCode.toNat < 2 ^ u.codeSize.toNat ∨ (u.codeSize.toNat = 12 ∧ u.nextCode.toNat = 4096)) ∧
    ∀ e ∈ u.dict, e.2.prefixCode.toNat < e.1 ∧ e.1 < u.nextCode.toNat

/-- What `STATUS` always satisfies (R24, R25, R314, R322): an error of the last command has been recorded in
`FIRST`, a flag in its sticky copy, and `UnsupportedFormat` is in neither field. -/
abbrev Status.wf (st : Status) : Prop :=
  (st.err ≠ .ok → st.first ≠ .ok) ∧ (st.dstfull = true → st.sDstfull = true) ∧
    (st.trunc = true → st.sTrunc = true) ∧ (st.eos = true → st.sEos = true) ∧
    st.err ≠ .unsupportedFormat ∧ st.first ≠ .unsupportedFormat

/-- The machine's invariant: memory in canonical form, every valid slot as a successful load leaves it, the LZW
unit within its bounds and shown in its two registers, and `STATUS` in order. -/
structure State.wf (s : State) : Prop where
  mem : s.mem.wf
  huff : ∀ (t : BitVec 3) (h : HuffTable), s.huffSlot t = some h → h.wf
  quant : ∀ (q : BitVec 2) (e : List (BitVec 16)), s.quantSlot q = some e → e.length = 64
  lzw : s.lzw.wf
  lzwNext : s.lzwNext = s.lzw.nextCode.setWidth 32
  lzwCsize : s.lzwCsize = s.lzw.codeSize.setWidth 32
  status : s.status.wf

/-- The read cursor is inside the source window or at its end (R30). -/
abbrev State.cursorInWindow (s : State) : Prop :=
  s.rd.byte.toNat ≤ s.src.len.toNat ∧ (s.rd.byte.toNat = s.src.len.toNat → s.rd.bit = 0)

/-! ## Registers -/

/-- The bits of a register that a host write stores: none of a read-only register or of an offset that is no
register (R21, R23 (a) to (c)). -/
def writableBits (off : BitVec 8) : Word :=
  match off.toNat with
  | 0x08 | 0x0C | 0x10 | 0x14 | 0x18 | 0x20 | 0x2C | 0x30 | 0x34 | 0x38 => 0xFFFFFFFF
  | 0x1C | 0x24 => 0x7
  | 0x28 => 0xFF
  | _ => 0

/-! ## Memory -/

/-- The two states are equal but for memory. -/
def State.sameButMemory (s t : State) : Prop := { s with mem := [] } = { t with mem := [] }

/-- Memory of `t` is that of `s` but for the first bytes of the destination window of `s`, as many as fit, which
hold `out` (R64, R66). -/
def State.outputs (s t : State) (out : List Byte) : Prop :=
  (∀ j, j < min out.length s.dst.len.toNat → t.mem.read (s.dst.addr j) = out.getD j 0) ∧
    ∀ a, (∀ j, j < min out.length s.dst.len.toNat → a ≠ s.dst.addr j) → t.mem.read a = s.mem.read a

/-- Memory of `t` is that of `s` but for one byte per offset `o` of the destination window with
`value o = some v`, which holds `v`. -/
def State.places (s t : State) (value : Nat → Option Byte) : Prop :=
  (∀ o v, value o = some v → t.mem.read (s.dst.addr o) = v) ∧
    ∀ a, (∀ o v, value o = some v → a ≠ s.dst.addr o) → t.mem.read a = s.mem.read a

/-! ## Bit streams -/

/-- The position of the read cursor in bits. -/
def ReadCursor.pos (c : ReadCursor) : Nat := 8 * c.byte.toNat + c.bit.toNat

/-- The read cursor at a position in bits. -/
def ReadCursor.ofPos (p : Nat) : ReadCursor := { byte := BitVec.ofNat 32 (p / 8), bit := BitVec.ofNat 3 (p % 8) }

/-- Bit `k` of a byte in stream order (R71): MSB-first it is bit `7 - k`, LSB-first bit `k`. -/
def streamBitOf (order : Order) (v : Byte) (k : Nat) : Bool :=
  match order with
  | .msb => v.getLsbD (7 - k)
  | .lsb => v.getLsbD k

/-- Bit `p` of the source window read as a bit stream without stuffing. -/
def State.srcBit (s : State) (order : Order) (p : Nat) : Bool := streamBitOf order (s.srcByte (p / 8)) (p % 8)

/-- Bit `p` of the stream that starts with the pending bits of `WR_ACC` and goes on with `bit 0, bit 1, ...`. -/
def State.appendedBit (s : State) (order : Order) (bit : Nat → Bool) (p : Nat) : Bool :=
  if p < s.wr.bit.toNat then streamBitOf order s.wr.acc p else bit (p - s.wr.bit.toNat)

/-- `t` is `s` after the `n` bits `bit 0, bit 1, ...` have been accepted by the write cursor and no stuffed zero was
inserted: complete bytes stand in the destination window from `WR_BYTE` on, the rest in `WR_ACC`, whose unwritten
positions are zero once a byte has been completed (R31, R124). -/
def State.appends (s t : State) (order : Order) (n : Nat) (bit : Nat → Bool) : Prop :=
  let total := s.wr.bit.toNat + n
  t.wr.byte.toNat = s.wr.byte.toNat + total / 8 ∧ t.wr.bit.toNat = total % 8 ∧
    (∀ k, k < 8 → streamBitOf order t.wr.acc k =
      if k < total % 8 then s.appendedBit order bit (total / 8 * 8 + k)
      else decide (total / 8 = 0) && streamBitOf order s.wr.acc k) ∧
    (∀ j, j < total / 8 → ∀ k, k < 8 →
      streamBitOf order (t.mem.read (s.dst.addr (s.wr.byte.toNat + j))) k = s.appendedBit order bit (8 * j + k)) ∧
    ∀ a, (∀ j, j < total / 8 → a ≠ s.dst.addr (s.wr.byte.toNat + j)) → t.mem.read a = s.mem.read a

/-- The destination window has room for the bytes that `n` more bits complete, and none of them is `0xFF` if
stuffing is on (R124). -/
abbrev State.roomFor (s : State) (order : Order) (stuff : Bool) (n : Nat) (bit : Nat → Bool) : Prop :=
  (s.wr.bit.toNat + n < 8 ∨ s.wr.byte.toNat + (s.wr.bit.toNat + n) / 8 ≤ s.dst.len.toNat) ∧
    (stuff = true → ∀ j, j < (s.wr.bit.toNat + n) / 8 → ∃ k, k < 8 ∧ s.appendedBit order bit (8 * j + k) = false)

/-- The place in the assembled number of the bit read as number `j` of `n` (R122, R125). -/
def bitWeight (order : Order) (n j : Nat) : Nat :=
  match order with
  | .msb => n - 1 - j
  | .lsb => j

/-- Bit number `j` of the `n` low bits of `v` in the order `WriteBits` appends them (R125). -/
def bitOf (order : Order) (n v j : Nat) : Bool := v.testBit (bitWeight order n j)

/-- Of the bytes that `n` more bits complete those before byte `j` fit and none is a stuffed `0xFF`, and byte `j`, with
the zero that stuffing puts after an `0xFF`, does not fit: the bit that completes it is refused (R124). -/
abbrev State.refusedAt (s : State) (order : Order) (stuff : Bool) (n : Nat) (bit : Nat → Bool) (j : Nat) : Prop :=
  j < (s.wr.bit.toNat + n) / 8 ∧
    (∀ i, i < j → s.wr.byte.toNat + i + 1 ≤ s.dst.len.toNat ∧
      (stuff = true → ∃ k, k < 8 ∧ s.appendedBit order bit (8 * i + k) = false)) ∧
    (s.dst.len.toNat < s.wr.byte.toNat + j + 1 ∨
      stuff = true ∧ (∀ k, k < 8 → s.appendedBit order bit (8 * j + k) = true) ∧
        s.dst.len.toNat < s.wr.byte.toNat + j + 2)

/-- The number that `n` bits of a stream stand for (R122). -/
def numberOf (order : Order) (n : Nat) (bit : Nat → Bool) : Nat :=
  ((List.range n).map fun j => (bit j).toNat * 2 ^ bitWeight order n j).sum

/-! ## Huffman -/

/-- The Kraft inequality for the counts of the lengths `1, 2, ...`, as sums of code space at each length. -/
def kraft (counts : List Byte) : Prop :=
  ∀ len, len < counts.length →
    ((List.range (len + 1)).map fun j => (counts.getD j 0).toNat * 2 ^ (len - j)).sum ≤ 2 ^ (len + 1)

/-! ## LZW with a dictionary of strings -/

/-- A decoder state whose dictionary holds the byte strings of the codes `end_code + 1, ...` themselves. -/
structure LzwStrings where
  table : List (List Byte)
  width : Nat
  prev : Option (List Byte)

/-- What a run of the string decoder leaves. -/
structure LzwStringRun where
  out : List Byte := []
  ncodes : Nat := 0
  cur : ReadCursor
  trunc : Bool := false
  final : LzwStrings
  err : ResultCode

/-- The first code the dictionary can assign (R180). -/
def firstFree (m : Nat) : Nat := 2 ^ m + 2

/-- The string decoder after a clear code (R182). -/
def LzwStrings.start (m : Nat) : LzwStrings := { table := [], width := m + 1, prev := none }

/-- The string of a code: a literal, a table entry, or in the deferred case the previous string and its own first
byte (R180, R183, R186). -/
def LzwStrings.stringOf (m : Nat) (r : LzwStrings) (c : Nat) : Option (List Byte) :=
  if c < 2 ^ m then some [BitVec.ofNat 8 c]
  else if c < firstFree m + r.table.length then r.table[c - firstFree m]?
  else if c = firstFree m + r.table.length then r.prev.map fun p => p ++ p.take 1
  else none

/-- After string `w`: the previous string and the first byte of `w` become a table entry while the table has
room, and the width grows when the next code reaches `2^width` (R184). -/
def LzwStrings.after (m : Nat) (r : LzwStrings) (w : List Byte) : LzwStrings :=
  match r.prev with
  | none => { r with prev := some w }
  | some p =>
    if firstFree m + r.table.length < 4096 then
      { table := r.table ++ [p ++ w.take 1]
        width := if firstFree m + r.table.length + 1 = 2 ^ r.width ∧ r.width < 12 then r.width + 1 else r.width
        prev := some w }
    else { r with prev := some w }

/-- The decoder of spec/42_lzw.md with a dictionary of strings. -/
def lzwStringDecode (src : Nat → Option Byte) (order : Order) (m : Nat) :
    Nat → ReadCursor → LzwStrings → LzwStringRun
  | 0, cur, r => { cur := cur, final := r, err := .truncatedData }
  | turns + 1, cur, r =>
    match readLoop src order false false r.width 0 { cur := cur } with
    | (b, false) => { cur := b.cur, trunc := b.trunc, final := r, err := .truncatedData }
    | (b, true) =>
      if b.val = 2 ^ m then
        let rest := lzwStringDecode src order m turns b.cur (LzwStrings.start m)
        { rest with ncodes := rest.ncodes + 1 }
      else if b.val = 2 ^ m + 1 then { ncodes := 1, cur := b.cur, final := r, err := .ok }
      else
        match r.stringOf m b.val with
        | none => { ncodes := 1, cur := b.cur, final := r, err := .decompressionFailed }
        | some w =>
          let rest := lzwStringDecode src order m turns b.cur (r.after m w)
          { rest with out := w ++ rest.out, ncodes := rest.ncodes + 1 }

/-! ## Run-length packets -/

/-- The packets of a PackBits stream (R210). -/
inductive PbPacket where
  | literal (bytes : List Byte)
  | rep (times : Nat) (v : Byte)
  | noop

/-- The packet has a header byte. -/
def PbPacket.legal : PbPacket → Prop
  | .literal bytes => 1 ≤ bytes.length ∧ bytes.length ≤ 128
  | .rep times _ => 2 ≤ times ∧ times ≤ 128
  | .noop => True

/-- The bytes of the packet: header `n`, with `n + 1` literal bytes, or `1 - n` repeats (R210). -/
def PbPacket.stream : PbPacket → List Byte
  | .literal bytes => BitVec.ofInt 8 ((bytes.length : Int) - 1) :: bytes
  | .rep times v => [BitVec.ofInt 8 (1 - (times : Int)), v]
  | .noop => [0x80]

/-- What the packet outputs (R210). -/
def PbPacket.output : PbPacket → List Byte
  | .literal bytes => bytes
  | .rep times v => List.replicate times v
  | .noop => []

/-- The packets of a high-bit-flag stream (R215). -/
inductive HbPacket where
  | literal (elements : List (List Byte))
  | rep (times : Nat) (element : List Byte)

/-- Elements of `sz` bytes, 1 to 128 of them (R215). -/
def HbPacket.legal (sz : Nat) : HbPacket → Prop
  | .literal es => 1 ≤ es.length ∧ es.length ≤ 128 ∧ ∀ e ∈ es, e.length = sz
  | .rep times e => 1 ≤ times ∧ times ≤ 128 ∧ e.length = sz

/-- The bytes of the packet (R215). -/
def HbPacket.stream : HbPacket → List Byte
  | .literal es => BitVec.ofNat 8 (es.length - 1) :: es.flatten
  | .rep times e => BitVec.ofNat 8 (128 + (times - 1)) :: e

/-- What the packet outputs (R215). -/
def HbPacket.output : HbPacket → List Byte
  | .literal es => es.flatten
  | .rep times e => (List.replicate times e).flatten

/-- The elements a token stands for. -/
def Token.items {α : Type} : Token α → List α
  | .run count x => List.replicate count x
  | .literal xs => xs

/-- A token an encoder makes: a run of 2 to 128, or 1 to 128 elements no two neighbours of which are equal
(R213). -/
def Token.legal {α : Type} : Token α → Prop
  | .run count _ => 2 ≤ count ∧ count ≤ 128
  | .literal xs => 1 ≤ xs.length ∧ xs.length ≤ 128 ∧ xs.IsChain (· ≠ ·)

/-- `q` may come right after the first token: a run ends because it is full or the next element differs; a row of
literals ends because it is full or a run follows, and never one element too early or too late (R213). -/
def Token.follows {α : Type} : Token α → Token α → Prop
  | .run count x, q => count = 128 ∨ q.items.head? ≠ some x
  | .literal xs, q => (xs.length = 128 ∨ ∃ count x, q = .run count x) ∧ xs.getLast? ≠ q.items.head?

/-- The tokens are those of the greedy encoder (R213, R218). -/
def greedy {α : Type} (ts : List (Token α)) : Prop :=
  (∀ t ∈ ts, t.legal) ∧ ts.IsChain Token.follows

/-- The PackBits packet of a token (R210, R213). -/
def Token.pb : Token Byte → PbPacket
  | .run count x => .rep count x
  | .literal xs => .literal xs

/-- The high-bit-flag packet of a token (R215, R218). -/
def Token.hb : Token (List Byte) → HbPacket
  | .run count x => .rep count x
  | .literal xs => .literal xs

/-- The bytes of a PackBits packet that is cut short: a literal header and fewer bytes than it announces, or a repeat
header alone (R211). -/
inductive PbCut where
  | literal (announced : Nat) (bytes : List Byte)
  | rep (times : Nat)

/-- The header byte exists and something is missing. -/
def PbCut.legal : PbCut → Prop
  | .literal announced bytes => announced ≤ 128 ∧ bytes.length < announced
  | .rep times => 2 ≤ times ∧ times ≤ 128

/-- The bytes that are there (R210). -/
def PbCut.stream : PbCut → List Byte
  | .literal announced bytes => BitVec.ofNat 8 (announced - 1) :: bytes
  | .rep times => [BitVec.ofInt 8 (1 - (times : Int))]

/-- What a cut packet outputs: the literal bytes that are there, nothing for a repeat (R211). -/
def PbCut.output : PbCut → List Byte
  | .literal _ bytes => bytes
  | .rep _ => []

/-- The bytes of a high-bit-flag packet that is cut short (R216). -/
inductive HbCut where
  | literal (announced : Nat) (bytes : List Byte)
  | rep (times : Nat) (bytes : List Byte)

/-- The header byte exists and something is missing, with elements of `sz` bytes. -/
def HbCut.legal (sz : Nat) : HbCut → Prop
  | .literal announced bytes => announced ≤ 128 ∧ bytes.length < announced * sz
  | .rep times bytes => 1 ≤ times ∧ times ≤ 128 ∧ bytes.length < sz

/-- The bytes that are there (R215). -/
def HbCut.stream : HbCut → List Byte
  | .literal announced bytes => BitVec.ofNat 8 (announced - 1) :: bytes
  | .rep times bytes => BitVec.ofNat 8 (128 + (times - 1)) :: bytes

/-- What a cut packet outputs, and how many of its bytes are consumed: a cut literal is read to its end, of a cut
repeat only the header (R216). -/
def HbCut.output : HbCut → List Byte × Nat
  | .literal _ bytes => (bytes, 1 + bytes.length)
  | .rep _ _ => ([], 1)

/-! ## JPEG -/

/-- Coefficient `C[k]` of the source window (R248). -/
def State.coefficient (s : State) (k : Nat) : Int :=
  (BitVec.ofNat 16 ((s.srcByte (2 * k)).toNat + 256 * (s.srcByte (2 * k + 1)).toNat)).toInt

/-- The raster indices of the zig-zag order as R242 generates them: the anti-diagonals `row + col = 0..14` in order, an
even one with the row decreasing, an odd one with the row increasing. -/
def zigzagWalk : List Nat :=
  (List.range 15).flatMap fun d =>
    let cells := ((List.range 8).filter fun row => decide (row ≤ d ∧ d - row < 8)).map fun row => row * 8 + (d - row)
    if d % 2 = 0 then cells.reverse else cells

/-- The dequantised coefficient at raster index `r` (R242, R243). -/
def State.dequantized (s : State) (quant : List (BitVec 16)) (r : Nat) : Int :=
  s.coefficient (zigzagWalk.idxOf r) * ((quant.getD (zigzagWalk.idxOf r) 0).toNat : Int)

/-- The inverse transform as one double sum, with the one rounding, the level shift and the clamp of R245: the
sample at row `y`, column `x` of the block. -/
def State.blockSample (s : State) (quant : List (BitVec 16)) (y x : Nat) : Byte :=
  clamp8
    ((((List.range 8).flatMap fun v => (List.range 8).map fun u =>
        kernelAt s.cfg.idctKernel x u * kernelAt s.cfg.idctKernel y v * s.dequantized quant (v * 8 + u)).sum +
      8388608) / 16777216 + 128)

/-- `2048 · cos(p·π/16)` rounded, for `p = 0..8`: the magnitudes of R244 by phase. -/
def cosineMagnitudes : List Int := [2048, 2009, 1892, 1703, 1448, 1138, 784, 400, 0]

/-- `2048 · cos(p·π/16)` rounded, for any phase `p`, by the symmetries of the cosine. -/
def cosineEntry (p : Nat) : Int :=
  let q := min (p % 32) (32 - p % 32)
  if q ≤ 8 then cosineMagnitudes.getD q 0 else -cosineMagnitudes.getD (16 - q) 0

/-- `round(4096 · a(u) · cos((2x+1)·u·π/16))` with `a(0) = sqrt(1/8)` and `a(u) = 1/2` for `u > 0` (R244). -/
def kernelReference (x u : Nat) : Int := if u = 0 then 1448 else cosineEntry ((2 * x + 1) * u)

/-- The raster of the operands is legal and fits (R318). -/
abbrev State.rasterOk (s : State) (bpp : Nat) : Prop :=
  1 ≤ s.arg0.toNat ∧ 1 ≤ s.arg1.toNat ∧ s.arg0.toNat ≤ s.cfg.maxDim ∧ s.arg1.toNat ≤ s.cfg.maxDim ∧
    s.arg0.toNat * s.arg1.toNat * bpp ≤ s.dst.len.toNat

/-- The byte a raster command puts at offset `o`: byte `o mod bpp` of the pixel the offset belongs to, if that
pixel lies in block (`ARG[2]`, `ARG[3]`) of `side` × `side` pixels and in the raster (R73, R248, R280). -/
def State.blockByte (s : State) (side bpp : Nat) (pixel : Nat → Nat → List Byte) (o : Nat) : Option Byte :=
  let x := o / bpp % s.arg0.toNat
  let y := o / bpp / s.arg0.toNat
  if y < s.arg1.toNat ∧ x / side = s.arg2.toNat ∧ y / side = s.arg3.toNat then
    some ((pixel (x % side) (y % side)).getD (o % bpp) 0)
  else none

/-- `ycc` channel by channel (R250), as the bytes R, G, B; division of integers rounds down. -/
def yccReference (y cb cr : Int) : List Byte :=
  [clamp8 (y + (91881 * (cr - 128) + 32768) / 65536),
   clamp8 (y + (-22544 * (cb - 128) - 46793 * (cr - 128) + 32768) / 65536),
   clamp8 (y + (116130 * (cb - 128) + 32768) / 65536)]

/-! ## DXT -/

/-- A five-bit channel widened by bit replication (R272). -/
def widen5 (v : BitVec 5) : Nat := v.toNat <<< 3 ||| v.toNat >>> 2

/-- A six-bit channel widened by bit replication (R272). -/
def widen6 (v : BitVec 6) : Nat := v.toNat <<< 2 ||| v.toNat >>> 4

/-- The channels R, G, B of an RGB565 word (R272). -/
def channels565 (c : BitVec 16) : List Nat :=
  [widen5 (c.extractLsb' 11 5), widen6 (c.extractLsb' 5 6), widen5 (c.extractLsb' 0 5)]

/-- A 16-bit little-endian word of the source window (R72, R271). -/
def State.srcWord16 (s : State) (o : Nat) : BitVec 16 := s.srcByte (o + 1) ++ s.srcByte o

/-- Palette entry `idx` as the four channels R, G, B, A; `dxt1` turns on the three-colour mode of
`endpoint0 ≤ endpoint1`, compared unsigned on the 16-bit words (R274). -/
def paletteEntry (dxt1 : Bool) (c0 c1 : BitVec 16) (idx : Nat) : List Nat :=
  let mixed (f : Nat → Nat → Nat) := List.zipWith f (channels565 c0) (channels565 c1) ++ [255]
  if idx = 0 then channels565 c0 ++ [255]
  else if idx = 1 then channels565 c1 ++ [255]
  else if dxt1 && decide (c0.toNat ≤ c1.toNat) then
    (if idx = 2 then mixed fun a b => (a + b) / 2 else [0, 0, 0, 0])
  else if idx = 2 then mixed fun a b => (2 * a + b) / 3
  else mixed fun a b => (a + 2 * b) / 3

/-- `idx(dx, dy)` of the colour block at offset `o` of the source window (R271). -/
def State.indexAt (s : State) (o dx dy : Nat) : Nat := (s.srcByte (o + 4 + dy)).toNat >>> (2 * dx) &&& 3

/-- The palette entry of pixel `(dx, dy)` of the colour block at offset `o` (R271, R274). -/
def State.colourAt (s : State) (dxt1 : Bool) (o dx dy : Nat) : List Nat :=
  paletteEntry dxt1 (s.srcWord16 o) (s.srcWord16 (o + 2)) (s.indexAt o dx dy)

/-- The bytes of a pixel from its four channels. -/
def pixelBytes (c : List Nat) : List Byte := c.map (BitVec.ofNat 8)

/-- The explicit alpha of pixel `p` (R275). -/
def State.explicitAlpha (s : State) (p : Nat) : Nat :=
  ((s.srcByte (p / 2)).toNat >>> (4 * (p % 2)) &&& 15) * 17

/-- The 48-bit index field of a DXT5 block (R277). -/
def State.indexField (s : State) : BitVec 48 :=
  s.srcByte 7 ++ s.srcByte 6 ++ s.srcByte 5 ++ s.srcByte 4 ++ s.srcByte 3 ++ s.srcByte 2

/-- The eight alphas of the ramp of `a0` and `a1` (R278). -/
def rampReference (a0 a1 : Nat) : List Nat :=
  if a0 > a1 then
    [a0, a1, (6 * a0 + 1 * a1) / 7, (5 * a0 + 2 * a1) / 7, (4 * a0 + 3 * a1) / 7, (3 * a0 + 4 * a1) / 7,
      (2 * a0 + 5 * a1) / 7, (1 * a0 + 6 * a1) / 7]
  else
    [a0, a1, (4 * a0 + 1 * a1) / 5, (3 * a0 + 2 * a1) / 5, (2 * a0 + 3 * a1) / 5, (1 * a0 + 4 * a1) / 5, 0, 255]

/-- The interpolated alpha of pixel `p` (R277, R278). -/
def State.interpolatedAlpha (s : State) (p : Nat) : Nat :=
  (rampReference (s.srcByte 0).toNat (s.srcByte 1).toNat).getD (s.indexField.toNat >>> (3 * p) &&& 7) 0

end Sys2Proof.Machine
end

