-- ==== Sys2Proof/Certificates/Slice0/Obligations.lean ====
section
/-!
DEFINITION. The statements for the provers, each with the rule of the spec it formalises or rests on. Where a
docstring says "the model's choice" the statement rests on the log entry of notes/assumptions it names; where it says
"the spec's inference" the rule is one that the spec itself marks as derived from others.
-/

open Sys2Proof Sys2Proof.Machine

/-! ## The block and its host -/

/-- R21, R340: after reset every register reads 0 but `ID`, no table slot is valid and every predictor is 0. -/
def Obligations.ResetState : Prop :=
  (∀ off : BitVec 8, readReg off State.reset = if off = 0x4C then 0x43504231 else 0) ∧
    (∀ t : BitVec 3, State.reset.huffSlot t = none) ∧
    (∀ q : BitVec 2, State.reset.quantSlot q = none) ∧
    ∀ c : BitVec 2, State.reset.predOf c = 0

/-- R340: a `CMD` write while `rst` is asserted has no effect; the release of `rst` leaves every register, slot and
predictor at its reset value and memory as it was. That `rst` is a level the outside world drives in a transaction
of its own is the model's choice (notes/assumptions/4.md). -/
def Obligations.ResetInput : Prop :=
  (∀ (s : State) (w : Word), s.rst = true → transact (.regWrite 0 4 w) s = .next s) ∧
    ∀ s : State, s.rst = true → ∃ t, transact (.setRst false) s = .next t ∧ t.rst = false ∧ t.mem = s.mem ∧
      (∀ off : BitVec 8, readReg off t = if off = 0x4C then 0x43504231 else 0) ∧
      (∀ h : BitVec 3, t.huffSlot h = none) ∧ (∀ q : BitVec 2, t.quantSlot q = none) ∧
      ∀ c : BitVec 2, t.predOf c = 0

/-- R90: a step that serves the host's write of a legal command word to `CMD` is that command, whole. The queue of
host transactions is the model's choice (notes/assumptions/2.md). -/
def Obligations.StepRunsCommand : Prop :=
  (∀ (s : State) (rest : List HostOp) (w : Word) (i : Instr), s.rst = false →
      s.pending = .regWrite 0 4 w :: rest → decode w = .ok i → step s = exec i { s with pending := rest }) ∧
    ∀ (s : State) (w : Nat) (i : Instr), decodeTableWord 32 w = some i →
      step (s.withFetchWord 32 w) = exec i { s with rst := false }

/-- R341, R60, R61: with no transaction to serve a step changes nothing; the host's own stores and loads are those
of plain storage. The queue is the model's choice (notes/assumptions/2.md), and so is the field `hostData` in which a
load leaves its byte, zero-extended (notes/assumptions/19.md). -/
def Obligations.OutsideTransactions : Prop :=
  (∀ s : State, s.pending = [] → step s = .next s) ∧
    (∀ (s : State) (op : HostOp) (rest : List HostOp), s.pending = op :: rest →
      step s = transact op { s with pending := rest }) ∧
    (∀ (s : State) (a : Word), transact (.memRead a) s = .next { s with hostData := (s.mem.read a).setWidth 32 }) ∧
    ∀ (s : State) (a : Word) (v : Byte), s.mem.wf → ∃ t, transact (.memWrite a v) s = .next t ∧
      t = { s with mem := t.mem } ∧ ∀ b, t.mem.read b = if b = a then v else s.mem.read b

/-- R23: an access that is not an aligned 32-bit access is refused; a read returns the register and changes nothing;
an offset that is no register reads 0; a write of a register other than `CMD` stores its legal bits there and
changes no other register and no other state. That the value a read returns stands in the field `hostData` is the
model's choice (notes/assumptions/19.md). -/
def Obligations.RegisterAccess : Prop :=
  ∀ (s : State) (off : BitVec 8) (bytes : Nat) (v : Word), s.rst = false →
    (bytes ≠ 4 ∨ off.toNat % 4 ≠ 0 →
      transact (.regWrite off bytes v) s = .refused .unalignedRegisterAccess ∧
        transact (.regRead off bytes) s = .refused .unalignedRegisterAccess) ∧
    (bytes = 4 ∧ off.toNat % 4 = 0 →
      transact (.regRead off bytes) s = .next { s with hostData := readReg off s } ∧
      (0x68 ≤ off.toNat → readReg off s = 0) ∧
      (off ≠ 0 → ∃ t, transact (.regWrite off bytes v) s = .next t ∧
        (∀ r, readReg r t =
          if r = off ∧ writableBits off ≠ 0 then v &&& writableBits off else readReg r s) ∧
        t = { s with
              src := t.src, dst := t.dst, rd := t.rd, wr := t.wr
              arg0 := t.arg0, arg1 := t.arg1, arg2 := t.arg2, arg3 := t.arg3 }))

/-- R24, R311, R21: the fields of `STATUS` with the numbers of the result codes, `HTVALID`, `QTVALID` and
`PRED0..3`. -/
def Obligations.ReadOnlyFields : Prop :=
  [ResultCode.ok, .truncatedData, .invalidFormat, .invalidDimensions, .unsupportedFormat, .decompressionFailed,
      .illegalCommand, .notReady].map ResultCode.code = [0, 1, 2, 3, 4, 5, 6, 7] ∧
    ∀ s : State,
      (readReg 0x04 s).extractLsb' 0 4 = s.status.err.code ∧
      (readReg 0x04 s).extractLsb' 4 4 = s.status.first.code ∧
      (readReg 0x04 s).getLsbD 8 = s.status.dstfull ∧ (readReg 0x04 s).getLsbD 9 = s.status.trunc ∧
      (readReg 0x04 s).getLsbD 10 = s.status.eos ∧ (readReg 0x04 s).extractLsb' 11 5 = 0 ∧
      (readReg 0x04 s).getLsbD 16 = s.status.sDstfull ∧ (readReg 0x04 s).getLsbD 17 = s.status.sTrunc ∧
      (readReg 0x04 s).getLsbD 18 = s.status.sEos ∧ (readReg 0x04 s).extractLsb' 19 13 = 0 ∧
      (∀ t : BitVec 3, (readReg 0x60 s).getLsbD t.toNat = (s.huffSlot t).isSome) ∧
      (readReg 0x60 s).extractLsb' 8 24 = 0 ∧
      (∀ q : BitVec 2, (readReg 0x64 s).getLsbD q.toNat = (s.quantSlot q).isSome) ∧
      (readReg 0x64 s).extractLsb' 4 28 = 0 ∧
      ∀ c : BitVec 2, readReg (0x50 + 4 * c.setWidth 8) s = s.predOf c

/-! ## Encoding -/

/-- R91 to R95, R99: words written out from the encoding decode to the command they stand for. -/
def Obligations.SampleWords : Prop :=
  decode 0x00000000 = .ok .nop ∧ decode 0x00000002 = .ok .sreset ∧
    decode 0x00080210 = .ok (.bsRd .msb true false 8) ∧ decode 0x00200111 = .ok (.bsWr .lsb false 32) ∧
    decode 0x00000A12 = .ok (.bsFlush .msb true true) ∧ decode 0x00005020 = .ok (.hufBuild 5) ∧
    decode 0x00007621 = .ok (.hufDec 7 true true) ∧ decode 0x00433222 = .ok (.hufEnc 3 true 0x43) ∧
    decode 0x00080130 = .ok (.lzwDec .lsb 8) ∧ decode 0x00000040 = .ok .rlePbd ∧
    decode 0x00030043 = .ok (.rleHbe 3) ∧ decode 0x00003051 = .ok (.jpgBlk 3) ∧
    decode 0x00002053 = .ok (.jpgDcp 2) ∧ decode 0x00000062 = .ok .dxt5Blk

/-- R91 to R95: the word of every command with legal fields decodes to that command. -/
def Obligations.DecodeEncode : Prop :=
  ∀ i : Instr, i.wellFormed = true → decode (encode i) = .ok i

/-- R94: a word that decodes selects exactly one command: one with legal fields, and the word is its encoding. -/
def Obligations.EncodeDecode : Prop :=
  ∀ (w : Word) (i : Instr), decode w = .ok i → i.wellFormed = true ∧ encode i = w

/-- R97: exactly these words are illegal: an operation code that is not listed, a non-zero bit that is reserved for
the command, a field value out of range, stuffing with LSB-first order. Each one changes `CMD` and `STATUS` only. -/
def Obligations.IllegalEncodings : Prop :=
  ∀ w : Word,
    ((∃ e, decode w = .error e) ↔
      let opc := w.toNat % 256
      (0x03 ≤ opc ∧ opc ≤ 0x0F ∨ 0x13 ≤ opc ∧ opc ≤ 0x1F ∨ 0x23 ≤ opc ∧ opc ≤ 0x2F ∨ 0x31 ≤ opc ∧ opc ≤ 0x3F ∨
        0x44 ≤ opc ∧ opc ≤ 0x4F ∨ 0x55 ≤ opc ∧ opc ≤ 0x5F ∨ 0x63 ≤ opc) ∨
      (∃ r ∈ opcodeTable, r.pattern.toNat % 256 = opc ∧ w &&& r.mask ≠ r.pattern) ∨
      ((opc = 0x10 ∨ opc = 0x11) ∧ (w.toNat / 65536 % 64 = 0 ∨ 32 < w.toNat / 65536 % 64)) ∨
      ((opc = 0x10 ∨ opc = 0x11 ∨ opc = 0x12) ∧ w.getLsbD 8 = true ∧ w.getLsbD 9 = true) ∨
      (opc = 0x30 ∧ (w.toNat / 65536 % 16 < 2 ∨ 8 < w.toNat / 65536 % 16)) ∨
      ((opc = 0x42 ∨ opc = 0x43) ∧ (w.toNat / 65536 % 8 = 0 ∨ 4 < w.toNat / 65536 % 8))) ∧
    ∀ s : State, (∃ e, decode w = .error e) →
      runWord w s = .next { s with cmd := w, status := s.status.ended .illegalCommand false false false }

/-! ## The life of a command -/

/-- R312: an illegal word, and a command whose window checks fail, end with `IllegalCommand` and change nothing but
`CMD` and `STATUS`. `windowsOk` says that no check of R65 fails. That a term of `Instr` with illegal field values runs
as the illegal word is the model's choice (notes/assumptions/12.md). -/
def Obligations.IllegalCommandEffect : Prop :=
  (∀ (s : State) (rest : List HostOp) (w : Word) (e : DecodeError), s.rst = false →
      s.pending = .regWrite 0 4 w :: rest → decode w = .error e →
      step s = .next
        { s with pending := rest, cmd := w, status := s.status.ended .illegalCommand false false false }) ∧
    (∀ (i : Instr) (s : State), windowsOk i s = true ↔ ¬ i.windowError s) ∧
    ∀ (i : Instr) (s : State), i.wellFormed = false ∨ i.windowError s →
      exec i s = .next (s.ended i .illegalCommand false false false)

/-- R317 (the spec's inference): every command completes, leaves its word in `CMD`, and ends with one of the codes
listed for it. -/
def Obligations.ResultCodes : Prop :=
  ∀ (i : Instr) (s : State), ∃ t, exec i s = .next t ∧ t.cmd = encode i ∧ t.status.err ∈ i.possibleErrors

/-- R25, R314: what a command other than `CLRERR` and `SRESET` does to `STATUS`: `ERR` and the three flags are its
own, `FIRST` keeps the first error, the sticky flags accumulate. -/
def Obligations.StatusLife : Prop :=
  ∀ (i : Instr) (s t : State), i ≠ .clrerr → i ≠ .sreset → exec i s = .next t →
    t.status.first = (if s.status.first = .ok then t.status.err else s.status.first) ∧
      t.status.sDstfull = (s.status.sDstfull || t.status.dstfull) ∧
      t.status.sTrunc = (s.status.sTrunc || t.status.trunc) ∧
      t.status.sEos = (s.status.sEos || t.status.eos)

/-- R319 (the spec's inference), R122, R124, R66, R67: which commands can set which flag, and which errors come with
none. -/
def Obligations.FlagsByCommand : Prop :=
  ∀ (i : Instr) (s t : State), exec i s = .next t →
    (t.status.trunc = true → i.movesReadCursor) ∧
      (t.status.eos = true →
        (∃ zfill n, i = .bsRd .msb true zfill n) ∨ ∃ slot zfill, i = .hufDec slot true zfill) ∧
      (t.status.dstfull = true → i.movesWriteCursor ∨ (∃ order m, i = .lzwDec order m) ∨ i = .rlePbd ∨
        i = .rlePbe ∨ (∃ sz, i = .rleHbd sz) ∨ ∃ sz, i = .rleHbe sz) ∧
      (t.status.err ∈ [.illegalCommand, .notReady, .invalidFormat, .invalidDimensions] →
        t.status.dstfull = false ∧ t.status.trunc = false ∧ t.status.eos = false)

/-- R27, R32, R34 to R37, R69, R96: the frame of every command but `SRESET`. No command changes a window, an operand
register or anything outside the block; each register, slot and cursor changes only under the commands listed for
it; memory changes only under a command that uses the destination window. -/
def Obligations.CommandFrame : Prop :=
  ∀ (i : Instr) (s t : State), i ≠ .sreset → exec i s = .next t →
    t.src = s.src ∧ t.dst = s.dst ∧ t.arg0 = s.arg0 ∧ t.arg1 = s.arg1 ∧ t.arg2 = s.arg2 ∧ t.arg3 = s.arg3 ∧
      t.cfg = s.cfg ∧ t.rst = s.rst ∧ t.pending = s.pending ∧ t.hostData = s.hostData ∧
      (¬ i.movesReadCursor → t.rd = s.rd) ∧
      (¬ i.movesWriteCursor → t.wr = s.wr) ∧
      (¬ i.writesRes0 → t.res0 = s.res0) ∧
      (¬ i.writesRes1 → t.res1 = s.res1) ∧
      ((∀ order m, i ≠ .lzwDec order m) → t.lzwNext = s.lzwNext ∧ t.lzwCsize = s.lzwCsize ∧ t.lzw = s.lzw) ∧
      (∀ c, i ≠ .jpgDcp c → i ≠ .jpgRst → t.predOf c = s.predOf c) ∧
      (∀ slot, i ≠ .hufBuild slot → t.huffSlot slot = s.huffSlot slot) ∧
      (∀ q, i ≠ .jpgLdq q → t.quantSlot q = s.quantSlot q) ∧
      (i.usesDst = false → t.mem = s.mem)

/-- R300: `NOP` clears `ERR` and the per-command flags and changes nothing else but `CMD`. -/
def Obligations.NopEffect : Prop :=
  ∀ s : State, exec .nop s = .next
    { s with
      cmd := 0x00000000
      status := { s.status with err := .ok, dstfull := false, trunc := false, eos := false } }

/-- R301: `CLRERR` makes `STATUS` 0 and changes nothing else but `CMD`. -/
def Obligations.ClrerrEffect : Prop :=
  ∀ s : State, ∃ t, exec .clrerr s = .next t ∧ readReg 0x04 t = 0 ∧
    t = { s with cmd := 0x00000001, status := t.status }

/-- R302: `SRESET` puts every register, slot and predictor at its reset value, leaves its own word in `CMD`, and
does not touch memory. That it leaves the model's own fields, the parameters, the level of `rst`, the transactions to
come and the host's last read, is the model's choice (notes/assumptions/4.md). -/
def Obligations.SresetEffect : Prop :=
  ∀ s : State, ∃ t, exec .sreset s = .next t ∧ t.mem = s.mem ∧
    t.cfg = s.cfg ∧ t.rst = s.rst ∧ t.pending = s.pending ∧ t.hostData = s.hostData ∧
    (∀ off : BitVec 8, readReg off t =
      if off = 0 then 0x00000002 else if off = 0x4C then 0x43504231 else 0) ∧
    (∀ h : BitVec 3, t.huffSlot h = none) ∧ (∀ q : BitVec 2, t.quantSlot q = none) ∧
    ∀ c : BitVec 2, t.predOf c = 0

/-! ## Memory safety and invariants -/

/-- R62, R8: whatever the state, no command changes a byte outside the destination window, and one that does not use
that window changes no byte at all. -/
def Obligations.WritesStayInWindow : Prop :=
  ∀ (i : Instr) (s t : State) (a : Word), exec i s = .next t →
    ¬ (i.usesDst = true ∧ s.dst.holds a = true) → t.mem.read a = s.mem.read a

/-- R62, R8: what a command does depends on memory only through the source window, and not at all if it does not use
that window: from two memories that agree there it leaves the same registers, and each byte is written the same in
both runs or in neither. -/
def Obligations.ReadsStayInWindow : Prop :=
  ∀ (i : Instr) (s t : State) (m : Memory), s.mem.wf → m.wf →
    (i.usesSrc = true → ∀ a, s.src.holds a = true → m.read a = s.mem.read a) → exec i s = .next t →
    ∃ t', exec i { s with mem := m } = .next t' ∧ t.sameButMemory t' ∧
      ∀ a, t'.mem.read a = t.mem.read a ∨ (t'.mem.read a = m.read a ∧ t.mem.read a = s.mem.read a)

/-- R24, R33, R35, R36, R154, R189, R322 (in part the spec's inferences): every step keeps the invariant `State.wf`:
memory in its canonical form (the model's choice, notes/assumptions/1.md), every valid slot as a successful load
leaves it, the LZW unit within its bounds and shown in its two registers (the model's choice, notes/assumptions/6.md
and 7.md), `STATUS` in order. -/
def Obligations.StepKeepsInvariant : Prop :=
  ∀ s t : State, s.wf → step s = .next t → t.wf

/-- R340: the invariant holds after reset. That memory lists nothing there, in canonical form, and that the scalars of
the LZW unit are 0 like the two registers that show them, is the model's choice (notes/assumptions/1.md, 6.md, 7.md and
21.md). -/
def Obligations.ResetHasInvariant : Prop :=
  State.reset.wf

/-- R29, R30 (the spec's inference): no command but `SRESET` moves the read cursor backwards; a cursor whose byte is
at most `SRC_LEN` stays so; and one that is in the window, or at its end with `RD_BIT = 0`, stays so. -/
def Obligations.ReadCursorMonotone : Prop :=
  ∀ (i : Instr) (s t : State), i ≠ .sreset → exec i s = .next t →
    s.rd.pos ≤ t.rd.pos ∧
      (s.rd.byte.toNat ≤ s.src.len.toNat → t.rd.byte.toNat ≤ t.src.len.toNat) ∧
      (s.cursorInWindow → t.cursorInWindow)

/-! ## Bit cursor -/

/-- R126, R122, R121: `BS.RD` with enough bits in the window, none of them in an `0xFF` byte if stuffing is on:
`RES0` is the number the bits stand for, and the cursor moves past them. -/
def Obligations.BsRdValue : Prop :=
  ∀ (order : Order) (stuff zfill : Bool) (n : BitVec 6) (s : State),
    (Instr.bsRd order stuff zfill n).wellFormed = true → s.src.fits = true →
    s.rd.pos + n.toNat ≤ 8 * s.src.len.toNat →
    (stuff = true → ∀ b, b < s.src.len.toNat → s.rd.pos / 8 ≤ b → 8 * b < s.rd.pos + n.toNat → s.srcByte b ≠ 0xFF) →
    exec (.bsRd order stuff zfill n) s = .next
      { s.endedOk (.bsRd order stuff zfill n) with
        rd := ReadCursor.ofPos (s.rd.pos + n.toNat)
        res0 := BitVec.ofNat 32 (numberOf order n.toNat fun j => s.srcBit order (s.rd.pos + j))
        res1 := n.setWidth 32 }

/-- R126, R122: `BS.RD` that runs out of the window, without stuffing. The cursor ends at the end of the window (it
stays if it was there or beyond), `TRUNC` is set, and the command ends with `TruncatedData`, or with the missing
bits taken as 0. -/
def Obligations.BsRdPastEnd : Prop :=
  ∀ (order : Order) (zfill : Bool) (n : BitVec 6) (s : State),
    legalBitCount n = true → s.src.fits = true → 8 * s.src.len.toNat < s.rd.pos + n.toNat →
    exec (.bsRd order false zfill n) s = .next
      (let i := Instr.bsRd order false zfill n
       let c := if s.rd.byte.toNat < s.src.len.toNat then { byte := s.src.len, bit := 0 } else s.rd
       if zfill then
         { s.ended i .ok false true false with
           rd := c
           res0 := BitVec.ofNat 32 (numberOf order n.toNat fun j =>
             decide (s.rd.pos + j < 8 * s.src.len.toNat) && s.srcBit order (s.rd.pos + j))
           res1 := n.setWidth 32 }
       else { s.ended i .truncatedData false true false with rd := c })

/-- R121, R122: with stuffing on, an `0xFF` at the cursor that a byte other than `0x00` follows stops the reader
there: `EOS` is set and the cursor stays. -/
def Obligations.BsRdStopsAtMarker : Prop :=
  ∀ (zfill : Bool) (n : BitVec 6) (s : State), legalBitCount n = true → s.src.fits = true →
    s.rd.byte.toNat + 1 < s.src.len.toNat → s.srcByte s.rd.byte.toNat = 0xFF →
    s.srcByte (s.rd.byte.toNat + 1) ≠ 0x00 →
    exec (.bsRd .msb true zfill n) s = .next
      (let i := Instr.bsRd .msb true zfill n
       if zfill then { s.ended i .ok false false true with res0 := 0, res1 := n.setWidth 32 }
       else s.ended i .truncatedData false false true)

/-- R121, R122: with stuffing on, a bit of an `0xFF` byte that `0x00` follows is a 1, and after its last bit the
cursor skips the `0x00`; an `0xFF` in the last byte of the window is the end of the data: `TRUNC`, with
`TruncatedData` if `ZFILL = 0` and with a 0 for the bit if `ZFILL = 1`. -/
def Obligations.BsRdStuffedByte : Prop :=
  ∀ s : State, s.src.fits = true → s.rd.byte.toNat < s.src.len.toNat → s.srcByte s.rd.byte.toNat = 0xFF →
    (s.rd.byte.toNat + 1 < s.src.len.toNat → s.srcByte (s.rd.byte.toNat + 1) = 0x00 → ∀ zfill,
      exec (.bsRd .msb true zfill 1) s = .next
        { s.endedOk (.bsRd .msb true zfill 1) with
          rd := if s.rd.bit = 7 then { byte := s.rd.byte + 2, bit := 0 } else { s.rd with bit := s.rd.bit + 1 }
          res0 := 1
          res1 := 1 }) ∧
    (s.rd.byte.toNat + 1 = s.src.len.toNat →
      exec (.bsRd .msb true false 1) s = .next (s.ended (.bsRd .msb true false 1) .truncatedData false true false) ∧
        exec (.bsRd .msb true true 1) s = .next
          { s.ended (.bsRd .msb true true 1) .ok false true false with res0 := 0, res1 := 1 })

/-- R127, R125, R124: `BS.WR` with room for the bytes it completes appends the `N` low bits of `ARG0`, and changes
nothing but the write cursor, those bytes, `CMD` and `STATUS`. -/
def Obligations.BsWrAppends : Prop :=
  ∀ (order : Order) (stuff : Bool) (n : BitVec 6) (s : State),
    (Instr.bsWr order stuff n).wellFormed = true → s.dst.fits = true → s.mem.wf →
    s.roomFor order stuff n.toNat (bitOf order n.toNat s.arg0.toNat) →
    ∃ t, exec (.bsWr order stuff n) s = .next t ∧
      t = { s.endedOk (.bsWr order stuff n) with wr := t.wr, mem := t.mem } ∧
      s.appends t order n.toNat (bitOf order n.toNat s.arg0.toNat)

/-- R124, R315: `BS.WR` without room accepts bits until one would complete a byte that does not fit, an `0xFF` together
with its stuffed zero, keeps them, and ends with `TruncatedData` and `DSTFULL`. In the first clause the byte is the first
past the end of the window, without stuffing; in the second it is byte `j`, and no stuffed zero was inserted before. -/
def Obligations.BsWrFull : Prop :=
  ∀ (order : Order) (n : BitVec 6) (s : State), legalBitCount n = true → s.dst.fits = true → s.mem.wf →
    (8 ≤ s.wr.bit.toNat + n.toNat → s.dst.len.toNat < s.wr.byte.toNat + (s.wr.bit.toNat + n.toNat) / 8 →
      ∃ t, exec (.bsWr order false n) s = .next t ∧
        t = { s.ended (.bsWr order false n) .truncatedData true false false with wr := t.wr, mem := t.mem } ∧
        s.appends t order (8 * (s.dst.len.toNat - s.wr.byte.toNat) + 7 - s.wr.bit.toNat)
          (bitOf order n.toNat s.arg0.toNat)) ∧
    ∀ (stuff : Bool) (j : Nat), legalStuffing order stuff = true →
      s.refusedAt order stuff n.toNat (bitOf order n.toNat s.arg0.toNat) j →
      ∃ t, exec (.bsWr order stuff n) s = .next t ∧
        t = { s.ended (.bsWr order stuff n) .truncatedData true false false with wr := t.wr, mem := t.mem } ∧
        s.appends t order (8 * j + 7 - s.wr.bit.toNat) (bitOf order n.toNat s.arg0.toNat)

/-- R124: with stuffing on, a bit that completes an `0xFF` stores `FF 00` and moves the cursor two bytes on, or is
refused where both do not fit. -/
def Obligations.StuffedWrite : Prop :=
  ∀ s : State, s.dst.fits = true → s.mem.wf → s.wr.bit = 7 → s.wr.acc ||| 1 = 0xFF → s.arg0.getLsbD 0 = true →
    (s.wr.byte.toNat + 2 ≤ s.dst.len.toNat →
      ∃ t, exec (.bsWr .msb true 1) s = .next t ∧
        t = { s.endedOk (.bsWr .msb true 1) with
              wr := { byte := s.wr.byte + 2, bit := 0, acc := 0 }, mem := t.mem } ∧
        ∀ a, t.mem.read a =
          if a = s.dst.addr s.wr.byte.toNat then 0xFF
          else if a = s.dst.addr (s.wr.byte.toNat + 1) then 0x00 else s.mem.read a) ∧
    (s.dst.len.toNat < s.wr.byte.toNat + 2 →
      exec (.bsWr .msb true 1) s = .next (s.ended (.bsWr .msb true 1) .truncatedData true false false))

/-- R128, R315: `BS.FLUSH` completes the pending byte with `PAD` bits and does nothing when no bit is pending; with
stuffing on, a resulting `0xFF` is stored as `FF 00`. Where the byte, or an `0xFF` with its stuffed zero, does not fit,
the pad bits before the last are kept, no memory changes, and the command ends with `TruncatedData` and `DSTFULL`. -/
def Obligations.BsFlushCompletes : Prop :=
  ∀ (order : Order) (stuff pad : Bool) (s : State), (Instr.bsFlush order stuff pad).wellFormed = true →
    s.dst.fits = true → s.mem.wf →
    (s.roomFor order stuff ((8 - s.wr.bit.toNat) % 8) (fun _ => pad) →
      ∃ t, exec (.bsFlush order stuff pad) s = .next t ∧
        t = { s.endedOk (.bsFlush order stuff pad) with wr := t.wr, mem := t.mem } ∧
        s.appends t order ((8 - s.wr.bit.toNat) % 8) (fun _ => pad)) ∧
    (stuff = true → s.wr.bit ≠ 0 → s.wr.byte.toNat + 2 ≤ s.dst.len.toNat →
      (∀ k, k < 8 → s.appendedBit order (fun _ => pad) k = true) →
      ∃ t, exec (.bsFlush order stuff pad) s = .next t ∧
        t = { s.endedOk (.bsFlush order stuff pad) with
              wr := { byte := s.wr.byte + 2, bit := 0, acc := 0 }, mem := t.mem } ∧
        ∀ a, t.mem.read a =
          if a = s.dst.addr s.wr.byte.toNat then 0xFF
          else if a = s.dst.addr (s.wr.byte.toNat + 1) then 0x00 else s.mem.read a) ∧
    (s.refusedAt order stuff ((8 - s.wr.bit.toNat) % 8) (fun _ => pad) 0 →
      ∃ t, exec (.bsFlush order stuff pad) s = .next t ∧
        t = { s.ended (.bsFlush order stuff pad) .truncatedData true false false with wr := t.wr } ∧
        s.appends t order (7 - s.wr.bit.toNat) (fun _ => pad))

/-- R125 (the spec's inference): bits written by `BS.WR` and then flushed are read back by `BS.RD` with the same
`N`, order and stuffing, from where they were written, as the same number. -/
def Obligations.WriteReadRoundTrip : Prop :=
  ∀ (order : Order) (stuff pad zfill : Bool) (n : BitVec 6) (s s₁ s₂ : State), s.mem.wf →
    exec (.bsWr order stuff n) s = .next s₁ → s₁.status.err = .ok →
    exec (.bsFlush order stuff pad) s₁ = .next s₂ → s₂.status.err = .ok →
    ∃ t, exec (.bsRd order stuff zfill n)
        { s₂ with src := s₂.dst, rd := { byte := s.wr.byte, bit := s.wr.bit } } = .next t ∧
      t.status.err = .ok ∧ t.status.trunc = false ∧ t.status.eos = false ∧
      t.res0.toNat = s.arg0.toNat % 2 ^ n.toNat ∧ t.res1.toNat = n.toNat

/-! ## Huffman -/

/-- R150 to R152: `HUF.BUILD` of a whole image whose counts satisfy the Kraft inequality makes the slot valid, with
the counts and symbols of the image and the canonical `mincode`, `maxcode` and `valptr` of each length. -/
def Obligations.HufBuildTable : Prop :=
  ∀ (slot : BitVec 3) (s : State), s.src.fits = true → 16 ≤ s.src.len.toNat →
    totalOf (s.srcBytes 0 16) ≤ 256 → kraft (s.srcBytes 0 16) → 16 + totalOf (s.srcBytes 0 16) ≤ s.src.len.toNat →
    ∃ h : HuffTable,
      exec (.hufBuild slot) s = .next
        { (s.endedOk (.hufBuild slot)).setHuff slot (some h) with
          res0 := BitVec.ofNat 32 (totalOf (s.srcBytes 0 16))
          res1 := BitVec.ofNat 32 (16 + totalOf (s.srcBytes 0 16)) } ∧
      h.total.toNat = totalOf (s.srcBytes 0 16) ∧ h.values = s.srcBytes 16 (totalOf (s.srcBytes 0 16)) ∧
      h.rows.length = 16 ∧
      ∀ (l : Nat) (r : HuffRow), h.rows[l]? = some r →
        r.count = s.srcByte l ∧
        r.mincode.toNat = ((List.range l).map fun j => (s.srcByte j).toNat * 2 ^ (l - j)).sum ∧
        r.valptr.toNat = ((List.range l).map fun j => (s.srcByte j).toNat).sum ∧
        r.maxcode.toInt = if s.srcByte l = 0 then -1 else (r.mincode.toNat : Int) + (s.srcByte l).toNat - 1

/-- R151, R316: `HUF.BUILD` fails on a short image, on more than 256 symbols or counts that violate the Kraft
inequality, and on missing symbols, in this order; the slot is then invalid and no result is written. -/
def Obligations.HufBuildFails : Prop :=
  ∀ (slot : BitVec 3) (s : State) (e : ResultCode), s.src.fits = true →
    (s.src.len.toNat < 16 ∧ e = .truncatedData ∨
      16 ≤ s.src.len.toNat ∧ (256 < totalOf (s.srcBytes 0 16) ∨ ¬ kraft (s.srcBytes 0 16)) ∧ e = .invalidFormat ∨
      16 ≤ s.src.len.toNat ∧ totalOf (s.srcBytes 0 16) ≤ 256 ∧ kraft (s.srcBytes 0 16) ∧
        s.src.len.toNat < 16 + totalOf (s.srcBytes 0 16) ∧ e = .truncatedData) →
    exec (.hufBuild slot) s = .next ((s.ended (.hufBuild slot) e false false false).setHuff slot none)

/-- R154 (the spec's inference): the codes of a valid table: every position below `total` has one, of 1 to 16 bits,
no other position has one, and no code is a prefix of the code of another position. -/
def Obligations.CanonicalCodes : Prop :=
  ∀ h : HuffTable, h.wf →
    (∀ k, k < h.total.toNat → ∃ len code, h.codeOf k = some (len, code) ∧ 1 ≤ len ∧ len ≤ 16 ∧ code < 2 ^ len) ∧
    (∀ k, h.total.toNat ≤ k → h.codeOf k = none) ∧
    ∀ j k lenj codej lenk codek, j ≠ k → h.codeOf j = some (lenj, codej) → h.codeOf k = some (lenk, codek) →
      lenj ≤ lenk → codek / 2 ^ (lenk - lenj) ≠ codej

/-- R156, R153 and R154 (the spec's inferences): where the code of position `k` stands at the cursor, in no `0xFF`
byte if stuffing is on (codes through a stuffed `0xFF` are those of `Obligations.HuffmanRoundTrip`), `HUF.DEC` returns
the symbol of `k` and the length of the code and moves the cursor past it. -/
def Obligations.HufDecSymbol : Prop :=
  ∀ (slot : BitVec 3) (stuff zfill : Bool) (s : State) (h : HuffTable) (k len code : Nat),
    s.src.fits = true → s.huffSlot slot = some h → h.wf → h.codeOf k = some (len, code) →
    s.rd.pos + len ≤ 8 * s.src.len.toNat →
    (stuff = true → ∀ b, b < s.src.len.toNat → s.rd.pos / 8 ≤ b → 8 * b < s.rd.pos + len → s.srcByte b ≠ 0xFF) →
    (∀ j, j < len → s.srcBit .msb (s.rd.pos + j) = bitOf .msb len code j) →
    exec (.hufDec slot stuff zfill) s = .next
      { s.endedOk (.hufDec slot stuff zfill) with
        rd := ReadCursor.ofPos (s.rd.pos + len)
        res0 := (h.values.getD k 0).setWidth 32
        res1 := BitVec.ofNat 32 len }

/-- R156: where no code of the table stands at the cursor, without stuffing: after 16 bits `HUF.DEC` ends with
`DecompressionFailed`, and if the window ends first and bits are not filled in, with `TruncatedData`. -/
def Obligations.HufDecFails : Prop :=
  ∀ (slot : BitVec 3) (s : State) (h : HuffTable), s.src.fits = true → s.huffSlot slot = some h → h.wf →
    (∀ k len code, k < 256 → h.codeOf k = some (len, code) → s.rd.pos + len ≤ 8 * s.src.len.toNat →
      ∃ j, j < len ∧ s.srcBit .msb (s.rd.pos + j) ≠ bitOf .msb len code j) →
    (s.rd.pos + 16 ≤ 8 * s.src.len.toNat → ∀ zfill,
      exec (.hufDec slot false zfill) s = .next
        { s.ended (.hufDec slot false zfill) .decompressionFailed false false false with
          rd := ReadCursor.ofPos (s.rd.pos + 16) }) ∧
    (8 * s.src.len.toNat < s.rd.pos + 16 →
      exec (.hufDec slot false false) s = .next
        { s.ended (.hufDec slot false false) .truncatedData false true false with
          rd := if s.rd.byte.toNat < s.src.len.toNat then { byte := s.src.len, bit := 0 } else s.rd })

/-- R159, R160, R153 (the spec's inference), R315: `HUF.ENC` of a symbol of the table, with room for the bytes it
completes, appends the code of the symbol's first position and returns the code and its length. Where byte `j`, or an
`0xFF` with its stuffed zero, does not fit, it keeps the bits before the one that completes it and ends with
`TruncatedData` and `DSTFULL`, with no result. -/
def Obligations.HufEncAppends : Prop :=
  ∀ (slot : BitVec 3) (stuff : Bool) (sym : BitVec 8) (s : State) (h : HuffTable) (k len code : Nat),
    s.dst.fits = true → s.mem.wf → s.huffSlot slot = some h → h.wf → h.values[k]? = some sym →
    (∀ j, j < k → h.values[j]? ≠ some sym) → h.codeOf k = some (len, code) →
    (s.roomFor .msb stuff len (bitOf .msb len code) →
      ∃ t, exec (.hufEnc slot stuff sym) s = .next t ∧
        t = { s.endedOk (.hufEnc slot stuff sym) with
              wr := t.wr, mem := t.mem, res0 := BitVec.ofNat 32 code, res1 := BitVec.ofNat 32 len } ∧
        s.appends t .msb len (bitOf .msb len code)) ∧
    ∀ j, s.refusedAt .msb stuff len (bitOf .msb len code) j →
      ∃ t, exec (.hufEnc slot stuff sym) s = .next t ∧
        t = { s.ended (.hufEnc slot stuff sym) .truncatedData true false false with wr := t.wr, mem := t.mem } ∧
        s.appends t .msb (8 * j + 7 - s.wr.bit.toNat) (bitOf .msb len code)

/-- R159: a symbol that the table does not hold is `InvalidFormat`, and nothing is written. -/
def Obligations.HufEncAbsent : Prop :=
  ∀ (slot : BitVec 3) (stuff : Bool) (sym : BitVec 8) (s : State) (h : HuffTable), s.dst.fits = true →
    s.huffSlot slot = some h → sym ∉ h.values →
    exec (.hufEnc slot stuff sym) s = .next (s.ended (.hufEnc slot stuff sym) .invalidFormat false false false)

/-- R313: a command that reads an invalid slot ends with `NotReady`, after the window checks and before anything
else. -/
def Obligations.InvalidSlotNotReady : Prop :=
  ∀ s : State,
    (∀ (slot : BitVec 3) (stuff zfill : Bool), windowsOk (.hufDec slot stuff zfill) s = true →
      s.huffSlot slot = none → exec (.hufDec slot stuff zfill) s =
        .next (s.ended (.hufDec slot stuff zfill) .notReady false false false)) ∧
    (∀ (slot : BitVec 3) (stuff : Bool) (sym : BitVec 8), windowsOk (.hufEnc slot stuff sym) s = true →
      s.huffSlot slot = none → exec (.hufEnc slot stuff sym) s =
        .next (s.ended (.hufEnc slot stuff sym) .notReady false false false)) ∧
    ∀ slot : BitVec 2, windowsOk (.jpgBlk slot) s = true → s.quantSlot slot = none →
      exec (.jpgBlk slot) s = .next (s.ended (.jpgBlk slot) .notReady false false false)

/-- R154 (d) (the spec's inference), R159, R156: a symbol encoded by `HUF.ENC`, flushed, and decoded by `HUF.DEC`
with the same slot and stuffing from where it was written, is the same symbol, of the same code length. -/
def Obligations.HuffmanRoundTrip : Prop :=
  ∀ (slot : BitVec 3) (stuff pad zfill : Bool) (sym : BitVec 8) (s s₁ s₂ : State) (h : HuffTable), s.mem.wf →
    s.huffSlot slot = some h → h.wf →
    exec (.hufEnc slot stuff sym) s = .next s₁ → s₁.status.err = .ok →
    exec (.bsFlush .msb stuff pad) s₁ = .next s₂ → s₂.status.err = .ok →
    ∃ t, exec (.hufDec slot stuff zfill)
        { s₂ with src := s₂.dst, rd := { byte := s.wr.byte, bit := s.wr.bit } } = .next t ∧
      t.status.err = .ok ∧ t.status.trunc = false ∧ t.status.eos = false ∧
      t.res0 = sym.setWidth 32 ∧ t.res1 = s₁.res1

/-! ## LZW -/

/-- R180 to R187: `LZW.DEC` is the decoder whose dictionary holds the byte strings themselves: the same bytes, codes
read, cursor, error, `LZW_NEXT` and `LZW_CSIZE`; output past the end of the window is dropped and sets `DSTFULL`. -/
def Obligations.LzwRefinesStrings : Prop :=
  ∀ (order : Order) (mincs : BitVec 4) (s : State), legalMinCodeSize mincs = true →
    windowsOk (.lzwDec order mincs) s = true → s.mem.wf →
    let m := mincs.toNat
    let r := lzwStringDecode s.srcByte? order m (8 * s.src.len.toNat + 1) s.rd (LzwStrings.start m)
    ∃ t, exec (.lzwDec order mincs) s = .next t ∧
      t = { s.ended (.lzwDec order mincs) r.err (decide (s.dst.len.toNat < r.out.length)) r.trunc false with
            rd := r.cur
            res0 := BitVec.ofNat 32 (min r.out.length s.dst.len.toNat)
            res1 := BitVec.ofNat 32 r.ncodes
            lzwNext := BitVec.ofNat 32 (firstFree m + r.final.table.length)
            lzwCsize := BitVec.ofNat 32 r.final.width
            lzw := t.lzw
            mem := t.mem } ∧
      s.outputs t r.out

/-- R182: a stream that begins with a clear code decodes as the stream after it, with one more code read. -/
def Obligations.LzwLeadingClear : Prop :=
  ∀ (order : Order) (mincs : BitVec 4) (s t : State), legalMinCodeSize mincs = true →
    s.rd.pos + (mincs.toNat + 1) ≤ 8 * s.src.len.toNat →
    numberOf order (mincs.toNat + 1) (fun j => s.srcBit order (s.rd.pos + j)) = 2 ^ mincs.toNat →
    windowsOk (.lzwDec order mincs) s = true →
    exec (.lzwDec order mincs) { s with rd := ReadCursor.ofPos (s.rd.pos + (mincs.toNat + 1)) } = .next t →
    exec (.lzwDec order mincs) s = .next { t with res1 := t.res1 + 1 }

/-! ## Run lengths -/

/-- R210 to R212: `RLE.PBD` outputs what the packets of the stream stand for, clamped to the window; a stream whose
last packet is cut short ends with `TruncatedData` after the bytes that are there. -/
def Obligations.RlePbdDecodes : Prop :=
  ∀ (s : State) (ps : List PbPacket), windowsOk .rlePbd s = true → s.mem.wf → (∀ p ∈ ps, p.legal) →
    (s.srcAll = ps.flatMap PbPacket.stream →
      ∃ t, exec .rlePbd s = .next t ∧
        t = { s.ended .rlePbd .ok (decide (s.dst.len.toNat < (ps.flatMap PbPacket.output).length)) false false with
              res0 := BitVec.ofNat 32 (min (ps.flatMap PbPacket.output).length s.dst.len.toNat)
              res1 := s.src.len
              mem := t.mem } ∧
        s.outputs t (ps.flatMap PbPacket.output)) ∧
    ∀ c : PbCut, c.legal → s.srcAll = ps.flatMap PbPacket.stream ++ c.stream →
      let out := ps.flatMap PbPacket.output ++ c.output
      ∃ t, exec .rlePbd s = .next t ∧
        t = { s.ended .rlePbd .truncatedData (decide (s.dst.len.toNat < out.length)) false false with
              res0 := BitVec.ofNat 32 (min out.length s.dst.len.toNat)
              res1 := s.src.len
              mem := t.mem } ∧
        s.outputs t out

/-- R215, R216: `RLE.HBD` outputs what the packets of the stream stand for, clamped to the window; a stream whose
last packet is cut short ends with `TruncatedData`, after the literal bytes that are there, or at the header of a
repeat. -/
def Obligations.RleHbdDecodes : Prop :=
  ∀ (size : BitVec 3) (s : State) (ps : List HbPacket), legalElementSize size = true →
    windowsOk (.rleHbd size) s = true → s.mem.wf → (∀ p ∈ ps, p.legal size.toNat) →
    (s.srcAll = ps.flatMap HbPacket.stream →
      ∃ t, exec (.rleHbd size) s = .next t ∧
        t = { s.ended (.rleHbd size) .ok
                (decide (s.dst.len.toNat < (ps.flatMap HbPacket.output).length)) false false with
              res0 := BitVec.ofNat 32 (min (ps.flatMap HbPacket.output).length s.dst.len.toNat)
              res1 := s.src.len
              mem := t.mem } ∧
        s.outputs t (ps.flatMap HbPacket.output)) ∧
    ∀ c : HbCut, c.legal size.toNat → s.srcAll = ps.flatMap HbPacket.stream ++ c.stream →
      let out := ps.flatMap HbPacket.output ++ c.output.1
      ∃ t, exec (.rleHbd size) s = .next t ∧
        t = { s.ended (.rleHbd size) .truncatedData (decide (s.dst.len.toNat < out.length)) false false with
              res0 := BitVec.ofNat 32 (min out.length s.dst.len.toNat)
              res1 := BitVec.ofNat 32 ((ps.flatMap HbPacket.stream).length + c.output.2)
              mem := t.mem } ∧
        s.outputs t out

/-- R213, R67: `RLE.PBE` cuts the source into the tokens of the greedy encoder and stores the packets of the first
`n` of them: all, or as many as fit, with `DSTFULL`. -/
def Obligations.RlePbeEncodes : Prop :=
  ∀ s : State, windowsOk .rlePbe s = true → s.mem.wf →
    ∃ (ts : List (Token Byte)) (n : Nat) (t : State),
      greedy ts ∧ ts.flatMap Token.items = s.srcAll ∧ n ≤ ts.length ∧
      let out := (ts.take n).flatMap fun k => k.pb.stream
      out.length ≤ s.dst.len.toNat ∧
      (n < ts.length → s.dst.len.toNat < ((ts.take (n + 1)).flatMap fun k => k.pb.stream).length) ∧
      exec .rlePbe s = .next t ∧
      t = { s.ended .rlePbe .ok (decide (n < ts.length)) false false with
            res0 := BitVec.ofNat 32 out.length
            res1 := BitVec.ofNat 32 ((ts.take n).flatMap Token.items).length
            mem := t.mem } ∧
      s.outputs t out

/-- R218, R67: `RLE.HBE` refuses a source that is not a whole number of elements with `InvalidFormat`; otherwise it
does for elements of `S` bytes what `RLE.PBE` does for bytes. -/
def Obligations.RleHbeEncodes : Prop :=
  ∀ (size : BitVec 3) (s : State), legalElementSize size = true → windowsOk (.rleHbe size) s = true →
    (s.src.len.toNat % size.toNat ≠ 0 →
      exec (.rleHbe size) s = .next (s.ended (.rleHbe size) .invalidFormat false false false)) ∧
    (s.src.len.toNat % size.toNat = 0 → s.mem.wf →
      ∃ (ts : List (Token (List Byte))) (n : Nat) (t : State),
        greedy ts ∧ (∀ e ∈ ts.flatMap Token.items, e.length = size.toNat) ∧
        (ts.flatMap Token.items).flatten = s.srcAll ∧ n ≤ ts.length ∧
        let out := (ts.take n).flatMap fun k => k.hb.stream
        out.length ≤ s.dst.len.toNat ∧
        (n < ts.length → s.dst.len.toNat < ((ts.take (n + 1)).flatMap fun k => k.hb.stream).length) ∧
        exec (.rleHbe size) s = .next t ∧
        t = { s.ended (.rleHbe size) .ok (decide (n < ts.length)) false false with
              res0 := BitVec.ofNat 32 out.length
              res1 := BitVec.ofNat 32 (((ts.take n).flatMap Token.items).length * size.toNat)
              mem := t.mem } ∧
        s.outputs t out)

/-- R214 (the spec's inference): `RLE.PBD` applied to the output of `RLE.PBE`, into any window `d` that is large
enough and does not overlap it, yields the first `RES1` bytes of the encoder's source, which is all of it unless a
packet did not fit. -/
def Obligations.PackBitsRoundTrip : Prop :=
  ∀ (s t : State) (d : Window), s.mem.wf → windowsOk .rlePbe s = true → exec .rlePbe s = .next t →
    d.fits = true → Window.overlaps { base := t.dst.base, len := t.res0 } d = false →
    t.res1.toNat ≤ d.len.toNat →
    (t.status.dstfull = false → t.res1 = s.src.len) ∧
    ∃ u, exec .rlePbd { t with src := { base := t.dst.base, len := t.res0 }, dst := d } = .next u ∧
      u.status.err = .ok ∧ u.status.dstfull = false ∧ u.res0 = t.res1 ∧
      ∀ j, j < t.res1.toNat → u.mem.read (d.addr j) = s.srcByte j

/-- R219 (the spec's inference): `RLE.HBD` applied to the output of `RLE.HBE` with the same element size, into any
window `d` that is large enough and does not overlap it, yields the first `RES1` bytes of the encoder's source. -/
def Obligations.HighBitRoundTrip : Prop :=
  ∀ (size : BitVec 3) (s t : State) (d : Window), s.mem.wf → legalElementSize size = true →
    windowsOk (.rleHbe size) s = true → s.src.len.toNat % size.toNat = 0 → exec (.rleHbe size) s = .next t →
    d.fits = true → Window.overlaps { base := t.dst.base, len := t.res0 } d = false →
    t.res1.toNat ≤ d.len.toNat →
    (t.status.dstfull = false → t.res1 = s.src.len) ∧
    ∃ u, exec (.rleHbd size) { t with src := { base := t.dst.base, len := t.res0 }, dst := d } = .next u ∧
      u.status.err = .ok ∧ u.status.dstfull = false ∧ u.res0 = t.res1 ∧
      ∀ j, j < t.res1.toNat → u.mem.read (d.addr j) = s.srcByte j

/-- R213: how large a PackBits encoding can get: at most a third more than its input, rounded up. That is more than
the `N + ceil(N / 128)` of the rule's remark, which its pseudocode does not keep (notes/assumptions/13.md). -/
def Obligations.PackBitsExpansion : Prop :=
  (∀ bs : List Byte, ((pbPackets bs).flatMap Prod.fst).length ≤ bs.length + (bs.length + 2) / 3) ∧
    ∃ bs : List Byte, bs.length + (bs.length + 127) / 128 < ((pbPackets bs).flatMap Prod.fst).length

/-! ## JPEG -/

/-- R240, R241: `JPG.LDQ` of a whole image makes the slot valid with the 64 little-endian entries; of a short one it
leaves the slot invalid and ends with `TruncatedData`. -/
def Obligations.JpgLdqLoads : Prop :=
  ∀ (slot : BitVec 2) (s : State), s.src.fits = true →
    (128 ≤ s.src.len.toNat → exec (.jpgLdq slot) s = .next
      ((s.endedOk (.jpgLdq slot)).setQuant slot (some ((List.range 64).map fun k => s.srcWord16 (2 * k))))) ∧
    (s.src.len.toNat < 128 → exec (.jpgLdq slot) s = .next
      ((s.ended (.jpgLdq slot) .truncatedData false false false).setQuant slot none))

/-- R242 to R245, R248, R249: `JPG.BLK` on a legal raster places the samples of the block that lie in the raster,
each computed as one double sum with one rounding from the coefficients in the order of R242's walk of the
anti-diagonals, and changes nothing else but `CMD` and `STATUS`. -/
def Obligations.JpgBlkPlaces : Prop :=
  ∀ (slot : BitVec 2) (s : State) (quant : List (BitVec 16)), windowsOk (.jpgBlk slot) s = true → s.mem.wf →
    s.quantSlot slot = some quant → s.rasterOk 1 → 128 ≤ s.src.len.toNat →
    ∃ t, exec (.jpgBlk slot) s = .next t ∧ t = { s.endedOk (.jpgBlk slot) with mem := t.mem } ∧
      s.places t (s.blockByte 8 1 fun dx dy => [s.blockSample quant dy dx])

/-- R242: the zig-zag table is the walk of the anti-diagonals. R244: the default kernel is an 8×8 matrix whose every
entry is the rounded cosine of its phase, and CPB-1's parameters meet their constraints. R247 (the spec's inference):
its symmetry, its near-orthogonality, the all-zero block, and the block with only `F[0]`. -/
def Obligations.DefaultKernel : Prop :=
  zigzag = zigzagWalk ∧
    cpb1.legal = true ∧ cpb1.idctKernel = defaultKernel ∧
    (∀ x, x < 8 → ∀ u, u < 8 → kernelAt defaultKernel x u = kernelReference x u) ∧
    (∀ x, x < 8 → ∀ u, u < 8 → kernelAt defaultKernel (7 - x) u = (-1) ^ u * kernelAt defaultKernel x u) ∧
    (∀ u, u < 8 → ∀ v, v < 8 →
      (((List.range 8).map fun x => kernelAt defaultKernel x u * kernelAt defaultKernel x v).sum -
        (if u = v then 16777216 else 0)).natAbs ≤ 5452) ∧
    ∀ d : Int, idctBlock defaultKernel (d :: List.replicate 63 0) =
      List.replicate 64 (clamp8 ((1448 * 1448 * d + 8388608) / 16777216 + 128))

/-- R246 (the spec's inference): with a kernel that meets the constraints of spec/92_eei_decisions.md, coefficients
of magnitude below `2^31` keep both passes inside the range of 64-bit signed arithmetic. -/
def Obligations.TransformFitsInt64 : Prop :=
  ∀ (c : OpenParams) (f : List Int), c.legal = true → (∀ v ∈ f, v.natAbs < 2 ^ 31) →
    (∀ v ∈ columnPass c.idctKernel f, v.natAbs < 2 ^ 45) ∧
      ∀ v ∈ rowPass c.idctKernel (columnPass c.idctKernel f), v.natAbs < 2 ^ 59

/-- R250, R251: `JPG.YCC` whose output and planes fit writes the `3N` bytes R, G, B of each sample in turn, and
changes nothing else but `CMD` and `STATUS`. -/
def Obligations.JpgYccConverts : Prop :=
  ∀ s : State, windowsOk .jpgYcc s = true → s.mem.wf → 3 * s.arg0.toNat ≤ s.dst.len.toNat →
    s.arg1.toNat + s.arg0.toNat ≤ s.src.len.toNat → s.arg2.toNat + s.arg0.toNat ≤ s.src.len.toNat →
    s.arg3.toNat + s.arg0.toNat ≤ s.src.len.toNat →
    ∃ t, exec .jpgYcc s = .next t ∧ t = { s.endedOk .jpgYcc with mem := t.mem } ∧
      s.places t fun o =>
        if o < 3 * s.arg0.toNat then
          some ((yccReference (s.srcByte (s.arg1.toNat + o / 3)).toNat (s.srcByte (s.arg2.toNat + o / 3)).toNat
            (s.srcByte (s.arg3.toNat + o / 3)).toNat).getD (o % 3) 0)
        else none

/-- R252, R253: `JPG.DCP` adds `ARG0` to one predictor and returns the sum; `JPG.RST` zeroes all four. -/
def Obligations.Predictors : Prop :=
  ∀ s : State,
    (∀ c : BitVec 2, exec (.jpgDcp c) s = .next
      { (s.endedOk (.jpgDcp c)).setPred c (BitVec.ofNat 32 ((s.predOf c).toNat + s.arg0.toNat)) with
        res0 := BitVec.ofNat 32 ((s.predOf c).toNat + s.arg0.toNat) }) ∧
    ∃ t, exec .jpgRst s = .next t ∧ t = { s.endedOk .jpgRst with pred := t.pred } ∧ ∀ c, t.predOf c = 0

/-! ## Rasters -/

/-- R318: a dimension that is 0 or above `MAX_DIM`, or a raster that does not fit the destination window, is
`InvalidDimensions`, and nothing is read or written; and nothing else is ever a cause. -/
def Obligations.InvalidDimensionsEffect : Prop :=
  ∀ s : State,
    let bad (bpp : Nat) : Prop := s.arg0 = 0 ∨ s.arg1 = 0 ∨ s.cfg.maxDim < s.arg0.toNat ∨
      s.cfg.maxDim < s.arg1.toNat ∨ s.dst.len.toNat < s.arg0.toNat * s.arg1.toNat * bpp
    (∀ slot : BitVec 2, windowsOk (.jpgBlk slot) s = true → s.quantSlot slot ≠ none → bad 1 →
      exec (.jpgBlk slot) s = .next (s.ended (.jpgBlk slot) .invalidDimensions false false false)) ∧
    (∀ i ∈ [Instr.dxt1Blk, .dxt3Blk, .dxt5Blk], windowsOk i s = true → bad 4 →
      exec i s = .next (s.ended i .invalidDimensions false false false)) ∧
    (windowsOk .jpgYcc s = true → s.dst.len.toNat < 3 * s.arg0.toNat →
      exec .jpgYcc s = .next (s.ended .jpgYcc .invalidDimensions false false false)) ∧
    ∀ (i : Instr) (t : State), exec i s = .next t → t.status.err = .invalidDimensions →
      ((∃ slot, i = .jpgBlk slot) ∧ bad 1) ∨ (i ∈ [Instr.dxt1Blk, .dxt3Blk, .dxt5Blk] ∧ bad 4) ∨
        (i = .jpgYcc ∧ s.dst.len.toNat < 3 * s.arg0.toNat)

/-- R316 (5), R315: on a legal raster, a source window too short for the block, or for a plane, is `TruncatedData`,
and nothing is written. That `JPG.YCC` with `N = 0` and a plane offset above `SRC_LEN` is among them is the model's choice
(notes/assumptions/22.md). -/
def Obligations.ShortOperands : Prop :=
  ∀ s : State,
    (∀ slot : BitVec 2, windowsOk (.jpgBlk slot) s = true → s.quantSlot slot ≠ none → s.rasterOk 1 →
      s.src.len.toNat < 128 →
      exec (.jpgBlk slot) s = .next (s.ended (.jpgBlk slot) .truncatedData false false false)) ∧
    (∀ p ∈ [(Instr.dxt1Blk, 8), (.dxt3Blk, 16), (.dxt5Blk, 16)], windowsOk p.1 s = true → s.rasterOk 4 →
      s.src.len.toNat < p.2 → exec p.1 s = .next (s.ended p.1 .truncatedData false false false)) ∧
    (windowsOk .jpgYcc s = true → 3 * s.arg0.toNat ≤ s.dst.len.toNat →
      s.src.len.toNat < s.arg1.toNat + s.arg0.toNat ∨ s.src.len.toNat < s.arg2.toNat + s.arg0.toNat ∨
        s.src.len.toNat < s.arg3.toNat + s.arg0.toNat →
      exec .jpgYcc s = .next (s.ended .jpgYcc .truncatedData false false false))

/-- R270 to R280: the three DXT commands on a legal raster place the pixels of the block that lie in the raster,
with the palette, the explicit alpha and the interpolated alpha of the rules, and change nothing else but `CMD` and
`STATUS`. -/
def Obligations.DxtPlaces : Prop :=
  ∀ s : State, s.mem.wf → s.rasterOk 4 →
    (windowsOk .dxt1Blk s = true → 8 ≤ s.src.len.toNat →
      ∃ t, exec .dxt1Blk s = .next t ∧ t = { s.endedOk .dxt1Blk with mem := t.mem } ∧
        s.places t (s.blockByte 4 4 fun dx dy => pixelBytes (s.colourAt true 0 dx dy))) ∧
    (windowsOk .dxt3Blk s = true → 16 ≤ s.src.len.toNat →
      ∃ t, exec .dxt3Blk s = .next t ∧ t = { s.endedOk .dxt3Blk with mem := t.mem } ∧
        s.places t (s.blockByte 4 4 fun dx dy =>
          pixelBytes ((s.colourAt false 8 dx dy).take 3 ++ [s.explicitAlpha (dy * 4 + dx)]))) ∧
    (windowsOk .dxt5Blk s = true → 16 ≤ s.src.len.toNat →
      ∃ t, exec .dxt5Blk s = .next t ∧ t = { s.endedOk .dxt5Blk with mem := t.mem } ∧
        s.places t (s.blockByte 4 4 fun dx dy =>
          pixelBytes ((s.colourAt false 8 dx dy).take 3 ++ [s.interpolatedAlpha (dy * 4 + dx)])))

/-- R281 (the spec's inference): in `DXT1.BLK` a pixel of index 3 is opaque with the colour `(e0 + 2 e1) / 3` when
`c0 > c1`, and transparent black when `c0 ≤ c1`, compared as unsigned 16-bit words. -/
def Obligations.Dxt1AlphaMode : Prop :=
  ∀ (s t : State) (dx dy : Nat), windowsOk .dxt1Blk s = true → s.mem.wf → s.rasterOk 4 → 8 ≤ s.src.len.toNat →
    dx < 4 → dy < 4 → s.indexAt 0 dx dy = 3 → s.arg2.toNat * 4 + dx < s.arg0.toNat →
    s.arg3.toNat * 4 + dy < s.arg1.toNat → exec .dxt1Blk s = .next t →
    let o := ((s.arg3.toNat * 4 + dy) * s.arg0.toNat + (s.arg2.toNat * 4 + dx)) * 4
    let e0 := channels565 (s.srcWord16 0)
    let e1 := channels565 (s.srcWord16 2)
    ((s.srcWord16 2).toNat < (s.srcWord16 0).toNat →
      t.mem.read (s.dst.addr (o + 3)) = 255 ∧
        ∀ j, j < 3 → t.mem.read (s.dst.addr (o + j)) = BitVec.ofNat 8 ((e0.getD j 0 + 2 * e1.getD j 0) / 3)) ∧
    ((s.srcWord16 0).toNat ≤ (s.srcWord16 2).toNat →
      ∀ j, j < 4 → t.mem.read (s.dst.addr (o + j)) = 0)
end

