-- ==== Sys2Proof/Laws/Config.lean ====
section
/-!
SUPPORT. The values CPB-1 gives the fixed parameters of R10 (spec/00_scope.md), and that the types of the model
are those the parameters name.
-/

namespace Sys2Proof.Machine

@[simp] theorem cpb1_maxDim : cpb1.maxDim = 16384 := rfl
@[simp] theorem cpb1_idctKernel : cpb1.idctKernel = defaultKernel := rfl
@[simp] theorem cpb1_hufMaxsym : cpb1.hufMaxsym = 256 := rfl
@[simp] theorem cpb1_lzwMincsMin : cpb1.lzwMincsMin = 2 := rfl
@[simp] theorem cpb1_lzwMincsMax : cpb1.lzwMincsMax = 8 := rfl
@[simp] theorem cpb1_rleMaxelem : cpb1.rleMaxelem = 4 := rfl

/-- A register has `XLEN` bits. -/
theorem word_is_xlen : Word = BitVec cpb1.xlen := rfl

/-- An address has `ADDR_W` bits. -/
theorem word_is_addrW : Word = BitVec cpb1.addrW := rfl

/-- There are `N_HTAB` Huffman slots, and `SLOT` names each of them. -/
theorem huff_slots (s : State) : s.huff.size = cpb1.nHtab ∧ 2 ^ 3 = cpb1.nHtab := ⟨rfl, rfl⟩

/-- A symbol is one byte, and there are `HUF_MAXSYM` of them. -/
theorem symbols : 2 ^ 8 = cpb1.hufMaxsym := rfl

/-- There are `N_QTAB` quantisation slots, and `SLOT` names each of them. -/
theorem quant_slots (s : State) : s.quant.size = cpb1.nQtab ∧ 2 ^ 2 = cpb1.nQtab := ⟨rfl, rfl⟩

/-- There are `N_COMP` predictors, and `SLOT` names each of them. -/
theorem predictors (s : State) : s.pred.size = cpb1.nComp ∧ 2 ^ 2 = cpb1.nComp := ⟨rfl, rfl⟩

/-- The legal values of `MINCS`, as numbers. -/
@[simp] theorem legalMinCodeSize_iff (m : BitVec 4) : legalMinCodeSize m = true ↔ 2 ≤ m.toNat ∧ m.toNat ≤ 8 := by
  rw [legalMinCodeSize, Bool.and_eq_true, decide_eq_true_iff, decide_eq_true_iff]
  exact Iff.rfl

/-- The legal values of `S`, as numbers. -/
@[simp] theorem legalElementSize_iff (sz : BitVec 3) : legalElementSize sz = true ↔ 1 ≤ sz.toNat ∧ sz.toNat ≤ 4 := by
  rw [legalElementSize, Bool.and_eq_true, decide_eq_true_iff, decide_eq_true_iff]
  exact Iff.rfl

end Sys2Proof.Machine
end

