-- ==== Sys2Proof/Laws/Memory.lean ====
section
/-!
SUPPORT. The laws of memory: a read after a write, other addresses, the canonical form, and that equal reads make
equal memories.
-/

namespace Sys2Proof.Machine.Memory

@[simp] theorem read_nil (a : Word) : Memory.read [] a = unwritten := rfl

theorem read_cons (c : Host.Cell) (m : Memory) (a : Word) :
    Memory.read (c :: m) a = if c.1 = a.toNat then c.2 else Memory.read m a := rfl

theorem toNat_ne {a b : Word} (h : b ≠ a) : a.toNat ≠ b.toNat :=
  fun e => h (BitVec.eq_of_toNat_eq e.symm)

/-- Putting a cell in front changes no other address. -/
theorem read_cons_other {a b : Word} (h : b ≠ a) (v : Byte) (m : Memory) :
    (Memory.cons a.toNat v m).read b = m.read b := by
  unfold Memory.cons
  split
  · rfl
  · simp [read_cons, toNat_ne h]

/-- A write leaves every other address alone, in any memory. -/
theorem read_write_other {a b : Word} (h : b ≠ a) (v : Byte) (m : Memory) :
    (m.write a v).read b = m.read b := by
  induction m with
  | nil => exact read_cons_other h v []
  | cons c rest ih =>
    unfold Memory.write
    split
    · exact read_cons_other h v _
    · split
      · next he => rw [read_cons_other h, read_cons, if_neg (by rw [← he]; exact toNat_ne h)]
      · simp only [read_cons, ih]

/-- An address below every cell reads as unwritten. -/
theorem read_below {m : Memory} {a : Word} (h : ∀ c ∈ m, a.toNat < c.1) : m.read a = unwritten := by
  induction m with
  | nil => rfl
  | cons c rest ih =>
    have hc := h c (by simp)
    rw [read_cons, if_neg (by omega)]
    exact ih fun x hx => h x (by simp [hx])

/-- Putting a cell in front of cells with larger addresses sets the address. -/
theorem read_cons_same {m : Memory} {a : Word} (h : ∀ c ∈ m, a.toNat < c.1) (v : Byte) :
    (Memory.cons a.toNat v m).read a = v := by
  unfold Memory.cons
  split
  · next hv => rw [read_below h, hv]
  · simp [read_cons]

theorem wf_tail {c : Host.Cell} {m : Memory} (h : Memory.wf (c :: m)) : Memory.wf m :=
  ⟨(List.pairwise_cons.mp h.1).2, fun x hx => h.2 x (by simp [hx])⟩

theorem wf_nil : Memory.wf [] := ⟨List.Pairwise.nil, by simp⟩

theorem wf_cons {m : Memory} (hm : m.wf) {a : Nat} (ha : a < 4294967296) (h : ∀ c ∈ m, a < c.1) (v : Byte) :
    (Memory.cons a v m).wf := by
  unfold Memory.cons
  split
  · exact hm
  · next hv =>
    refine ⟨List.pairwise_cons.mpr ⟨h, hm.1⟩, fun c hc => ?_⟩
    rcases List.mem_cons.mp hc with rfl | hc
    · exact ⟨ha, hv⟩
    · exact hm.2 c hc

/-- A write is read back (R61). -/
theorem read_write_same {m : Memory} (hm : m.wf) (a : Word) (v : Byte) : (m.write a v).read a = v := by
  induction m with
  | nil => exact read_cons_same (by simp) v
  | cons c rest ih =>
    have hp := List.pairwise_cons.mp hm.1
    unfold Memory.write
    split
    · next hl =>
      refine read_cons_same (fun x hx => ?_) v
      rcases List.mem_cons.mp hx with rfl | hx
      · exact hl
      · exact hl.trans (hp.1 x hx)
    · split
      · next he => exact read_cons_same (fun x hx => he ▸ hp.1 x hx) v
      · next he => rw [read_cons, if_neg (fun e => he e.symm), ih (wf_tail hm)]

theorem read_write {m : Memory} (hm : m.wf) (a b : Word) (v : Byte) :
    (m.write a v).read b = if b = a then v else m.read b := by
  split
  · next h => rw [h, read_write_same hm]
  · next h => exact read_write_other h v m

/-- Every cell after a write is an old one or the one written. -/
theorem mem_write {m : Memory} {a : Word} {v : Byte} {c : Host.Cell} (h : c ∈ m.write a v) :
    c ∈ m ∨ c = (a.toNat, v) := by
  induction m with
  | nil =>
    simp only [Memory.write, Memory.cons] at h
    split at h <;> simp_all
  | cons d rest ih =>
    simp only [Memory.write, Memory.cons] at h
    split at h
    · (split at h <;> simp_all); tauto
    · split at h
      · (split at h <;> simp_all); tauto
      · rcases List.mem_cons.mp h with h | h
        · simp [h]
        · rcases ih h with h | h <;> simp [h]

/-- A write keeps the canonical form. -/
theorem write_wf {m : Memory} (hm : m.wf) (a : Word) (v : Byte) : (m.write a v).wf := by
  have ha : a.toNat < 4294967296 := a.isLt
  induction m with
  | nil => exact wf_cons wf_nil ha (by simp) v
  | cons c rest ih =>
    have hp := List.pairwise_cons.mp hm.1
    unfold Memory.write
    split
    · next hl =>
      refine wf_cons hm ha (fun x hx => ?_) v
      rcases List.mem_cons.mp hx with rfl | hx
      · exact hl
      · exact hl.trans (hp.1 x hx)
    · split
      · next he => exact wf_cons (wf_tail hm) ha (fun x hx => he ▸ hp.1 x hx) v
      · next hl he =>
        have hw := ih (wf_tail hm)
        refine ⟨List.pairwise_cons.mpr ⟨fun x hx => ?_, hw.1⟩, fun x hx => ?_⟩
        · rcases mem_write hx with hx | rfl
          · exact hp.1 x hx
          · exact Nat.lt_of_le_of_ne (Nat.le_of_not_lt hl) (fun e => he e.symm)
        · rcases List.mem_cons.mp hx with rfl | hx
          · exact hm.2 _ (by simp)
          · exact hw.2 x hx

/-- In canonical form the cells are what is read: equal reads make equal memories. -/
theorem ext {m n : Memory} (hm : m.wf) (hn : n.wf) (h : ∀ a, m.read a = n.read a) : m = n := by
  induction m generalizing n with
  | nil =>
    cases n with
    | nil => rfl
    | cons d t =>
      have hd := hn.2 d (by simp)
      have := h (BitVec.ofNat 32 d.1)
      rw [read_cons, if_pos (by simp [Nat.mod_eq_of_lt hd.1])] at this
      exact absurd this.symm hd.2
  | cons c s ih =>
    have hc := hm.2 c (by simp)
    have hcN : (BitVec.ofNat 32 c.1).toNat = c.1 := by simp [Nat.mod_eq_of_lt hc.1]
    have hps := List.pairwise_cons.mp hm.1
    cases n with
    | nil =>
      have := h (BitVec.ofNat 32 c.1)
      rw [read_cons, if_pos hcN.symm] at this
      exact absurd this hc.2
    | cons d t =>
      have hd := hn.2 d (by simp)
      have hdN : (BitVec.ofNat 32 d.1).toNat = d.1 := by simp [Nat.mod_eq_of_lt hd.1]
      have hpt := List.pairwise_cons.mp hn.1
      have hcd : c.1 = d.1 := by
        rcases Nat.lt_trichotomy c.1 d.1 with hl | he | hl
        · have := h (BitVec.ofNat 32 c.1)
          rw [read_cons, if_pos hcN.symm, read_below (m := d :: t)] at this
          · exact absurd this hc.2
          · intro x hx
            rw [hcN]
            rcases List.mem_cons.mp hx with rfl | hx
            · exact hl
            · exact hl.trans (hpt.1 x hx)
        · exact he
        · have := h (BitVec.ofNat 32 d.1)
          rw [read_cons (c := d), if_pos hdN.symm, read_below (m := c :: s)] at this
          · exact absurd this.symm hd.2
          · intro x hx
            rw [hdN]
            rcases List.mem_cons.mp hx with rfl | hx
            · exact hl
            · exact hl.trans (hps.1 x hx)
      have hv : c.2 = d.2 := by
        have := h (BitVec.ofNat 32 c.1)
        rwa [read_cons, if_pos hcN.symm, read_cons, if_pos (by rw [hcN, hcd])] at this
      have hst : s = t := by
        refine ih (wf_tail hm) (wf_tail hn) fun a => ?_
        by_cases ha : a.toNat = c.1
        · rw [read_below fun x hx => ha ▸ hps.1 x hx, read_below fun x hx => (ha.trans hcd) ▸ hpt.1 x hx]
        · have := h a
          rwa [read_cons, if_neg (fun e => ha e.symm), read_cons,
            if_neg (fun e => ha (e.symm.trans hcd.symm))] at this
      rw [hst, Prod.ext hcd hv]

end Sys2Proof.Machine.Memory
end

