-- ==== Sys2Proof/Laws/State.lean ====
section
/-!
SUPPORT. What each named update of the state leaves in each field, so that no proof unfolds a record update.
-/

namespace Sys2Proof.Machine.State

variable (s : State)

/-! ### Steps 1 and 2 of R314 -/

@[simp] theorem begun_cmd (w : Word) : (s.begun w).cmd = w := rfl
@[simp] theorem begun_status (w : Word) : (s.begun w).status = s.status.cleared := rfl
@[simp] theorem begun_src (w : Word) : (s.begun w).src = s.src := rfl
@[simp] theorem begun_dst (w : Word) : (s.begun w).dst = s.dst := rfl
@[simp] theorem begun_rd (w : Word) : (s.begun w).rd = s.rd := rfl
@[simp] theorem begun_wr (w : Word) : (s.begun w).wr = s.wr := rfl
@[simp] theorem begun_arg0 (w : Word) : (s.begun w).arg0 = s.arg0 := rfl
@[simp] theorem begun_arg1 (w : Word) : (s.begun w).arg1 = s.arg1 := rfl
@[simp] theorem begun_arg2 (w : Word) : (s.begun w).arg2 = s.arg2 := rfl
@[simp] theorem begun_arg3 (w : Word) : (s.begun w).arg3 = s.arg3 := rfl
@[simp] theorem begun_res0 (w : Word) : (s.begun w).res0 = s.res0 := rfl
@[simp] theorem begun_res1 (w : Word) : (s.begun w).res1 = s.res1 := rfl
@[simp] theorem begun_lzwNext (w : Word) : (s.begun w).lzwNext = s.lzwNext := rfl
@[simp] theorem begun_lzwCsize (w : Word) : (s.begun w).lzwCsize = s.lzwCsize := rfl
@[simp] theorem begun_pred (w : Word) : (s.begun w).pred = s.pred := rfl
@[simp] theorem begun_huff (w : Word) : (s.begun w).huff = s.huff := rfl
@[simp] theorem begun_quant (w : Word) : (s.begun w).quant = s.quant := rfl
@[simp] theorem begun_lzw (w : Word) : (s.begun w).lzw = s.lzw := rfl
@[simp] theorem begun_mem (w : Word) : (s.begun w).mem = s.mem := rfl
@[simp] theorem begun_cfg (w : Word) : (s.begun w).cfg = s.cfg := rfl
@[simp] theorem begun_rst (w : Word) : (s.begun w).rst = s.rst := rfl
@[simp] theorem begun_pending (w : Word) : (s.begun w).pending = s.pending := rfl
@[simp] theorem begun_hostData (w : Word) : (s.begun w).hostData = s.hostData := rfl

/-! ### Step 4 of R314 -/

@[simp] theorem complete_cmd (e : ResultCode) : (s.complete e).cmd = s.cmd := rfl
@[simp] theorem complete_status (e : ResultCode) : (s.complete e).status = s.status.finished e := rfl
@[simp] theorem complete_src (e : ResultCode) : (s.complete e).src = s.src := rfl
@[simp] theorem complete_dst (e : ResultCode) : (s.complete e).dst = s.dst := rfl
@[simp] theorem complete_rd (e : ResultCode) : (s.complete e).rd = s.rd := rfl
@[simp] theorem complete_wr (e : ResultCode) : (s.complete e).wr = s.wr := rfl
@[simp] theorem complete_arg0 (e : ResultCode) : (s.complete e).arg0 = s.arg0 := rfl
@[simp] theorem complete_arg1 (e : ResultCode) : (s.complete e).arg1 = s.arg1 := rfl
@[simp] theorem complete_arg2 (e : ResultCode) : (s.complete e).arg2 = s.arg2 := rfl
@[simp] theorem complete_arg3 (e : ResultCode) : (s.complete e).arg3 = s.arg3 := rfl
@[simp] theorem complete_res0 (e : ResultCode) : (s.complete e).res0 = s.res0 := rfl
@[simp] theorem complete_res1 (e : ResultCode) : (s.complete e).res1 = s.res1 := rfl
@[simp] theorem complete_lzwNext (e : ResultCode) : (s.complete e).lzwNext = s.lzwNext := rfl
@[simp] theorem complete_lzwCsize (e : ResultCode) : (s.complete e).lzwCsize = s.lzwCsize := rfl
@[simp] theorem complete_pred (e : ResultCode) : (s.complete e).pred = s.pred := rfl
@[simp] theorem complete_huff (e : ResultCode) : (s.complete e).huff = s.huff := rfl
@[simp] theorem complete_quant (e : ResultCode) : (s.complete e).quant = s.quant := rfl
@[simp] theorem complete_lzw (e : ResultCode) : (s.complete e).lzw = s.lzw := rfl
@[simp] theorem complete_mem (e : ResultCode) : (s.complete e).mem = s.mem := rfl
@[simp] theorem complete_cfg (e : ResultCode) : (s.complete e).cfg = s.cfg := rfl
@[simp] theorem complete_rst (e : ResultCode) : (s.complete e).rst = s.rst := rfl
@[simp] theorem complete_pending (e : ResultCode) : (s.complete e).pending = s.pending := rfl
@[simp] theorem complete_hostData (e : ResultCode) : (s.complete e).hostData = s.hostData := rfl

/-! ### The result registers -/

@[simp] theorem withRes_cmd (a b : Nat) : (s.withRes a b).cmd = s.cmd := rfl
@[simp] theorem withRes_status (a b : Nat) : (s.withRes a b).status = s.status := rfl
@[simp] theorem withRes_src (a b : Nat) : (s.withRes a b).src = s.src := rfl
@[simp] theorem withRes_dst (a b : Nat) : (s.withRes a b).dst = s.dst := rfl
@[simp] theorem withRes_rd (a b : Nat) : (s.withRes a b).rd = s.rd := rfl
@[simp] theorem withRes_wr (a b : Nat) : (s.withRes a b).wr = s.wr := rfl
@[simp] theorem withRes_arg0 (a b : Nat) : (s.withRes a b).arg0 = s.arg0 := rfl
@[simp] theorem withRes_arg1 (a b : Nat) : (s.withRes a b).arg1 = s.arg1 := rfl
@[simp] theorem withRes_arg2 (a b : Nat) : (s.withRes a b).arg2 = s.arg2 := rfl
@[simp] theorem withRes_arg3 (a b : Nat) : (s.withRes a b).arg3 = s.arg3 := rfl
@[simp] theorem withRes_res0 (a b : Nat) : (s.withRes a b).res0 = BitVec.ofNat 32 a := rfl
@[simp] theorem withRes_res1 (a b : Nat) : (s.withRes a b).res1 = BitVec.ofNat 32 b := rfl
@[simp] theorem withRes_lzwNext (a b : Nat) : (s.withRes a b).lzwNext = s.lzwNext := rfl
@[simp] theorem withRes_lzwCsize (a b : Nat) : (s.withRes a b).lzwCsize = s.lzwCsize := rfl
@[simp] theorem withRes_pred (a b : Nat) : (s.withRes a b).pred = s.pred := rfl
@[simp] theorem withRes_huff (a b : Nat) : (s.withRes a b).huff = s.huff := rfl
@[simp] theorem withRes_quant (a b : Nat) : (s.withRes a b).quant = s.quant := rfl
@[simp] theorem withRes_lzw (a b : Nat) : (s.withRes a b).lzw = s.lzw := rfl
@[simp] theorem withRes_mem (a b : Nat) : (s.withRes a b).mem = s.mem := rfl
@[simp] theorem withRes_cfg (a b : Nat) : (s.withRes a b).cfg = s.cfg := rfl
@[simp] theorem withRes_rst (a b : Nat) : (s.withRes a b).rst = s.rst := rfl
@[simp] theorem withRes_pending (a b : Nat) : (s.withRes a b).pending = s.pending := rfl
@[simp] theorem withRes_hostData (a b : Nat) : (s.withRes a b).hostData = s.hostData := rfl

/-! ### The flag `DSTFULL` -/

@[simp] theorem setDstfull_cmd : s.setDstfull.cmd = s.cmd := rfl
@[simp] theorem setDstfull_status : s.setDstfull.status = { s.status with dstfull := true } := rfl
@[simp] theorem setDstfull_src : s.setDstfull.src = s.src := rfl
@[simp] theorem setDstfull_dst : s.setDstfull.dst = s.dst := rfl
@[simp] theorem setDstfull_rd : s.setDstfull.rd = s.rd := rfl
@[simp] theorem setDstfull_wr : s.setDstfull.wr = s.wr := rfl
@[simp] theorem setDstfull_arg0 : s.setDstfull.arg0 = s.arg0 := rfl
@[simp] theorem setDstfull_arg1 : s.setDstfull.arg1 = s.arg1 := rfl
@[simp] theorem setDstfull_arg2 : s.setDstfull.arg2 = s.arg2 := rfl
@[simp] theorem setDstfull_arg3 : s.setDstfull.arg3 = s.arg3 := rfl
@[simp] theorem setDstfull_res0 : s.setDstfull.res0 = s.res0 := rfl
@[simp] theorem setDstfull_res1 : s.setDstfull.res1 = s.res1 := rfl
@[simp] theorem setDstfull_lzwNext : s.setDstfull.lzwNext = s.lzwNext := rfl
@[simp] theorem setDstfull_lzwCsize : s.setDstfull.lzwCsize = s.lzwCsize := rfl
@[simp] theorem setDstfull_pred : s.setDstfull.pred = s.pred := rfl
@[simp] theorem setDstfull_huff : s.setDstfull.huff = s.huff := rfl
@[simp] theorem setDstfull_quant : s.setDstfull.quant = s.quant := rfl
@[simp] theorem setDstfull_lzw : s.setDstfull.lzw = s.lzw := rfl
@[simp] theorem setDstfull_mem : s.setDstfull.mem = s.mem := rfl
@[simp] theorem setDstfull_cfg : s.setDstfull.cfg = s.cfg := rfl
@[simp] theorem setDstfull_rst : s.setDstfull.rst = s.rst := rfl
@[simp] theorem setDstfull_pending : s.setDstfull.pending = s.pending := rfl
@[simp] theorem setDstfull_hostData : s.setDstfull.hostData = s.hostData := rfl

/-! ### `Dst(i, v)` -/

@[simp] theorem dstByte_cmd (i : Nat) (v : Byte) : (s.dstByte i v).cmd = s.cmd := rfl
@[simp] theorem dstByte_status (i : Nat) (v : Byte) : (s.dstByte i v).status = s.status := rfl
@[simp] theorem dstByte_src (i : Nat) (v : Byte) : (s.dstByte i v).src = s.src := rfl
@[simp] theorem dstByte_dst (i : Nat) (v : Byte) : (s.dstByte i v).dst = s.dst := rfl
@[simp] theorem dstByte_rd (i : Nat) (v : Byte) : (s.dstByte i v).rd = s.rd := rfl
@[simp] theorem dstByte_wr (i : Nat) (v : Byte) : (s.dstByte i v).wr = s.wr := rfl
@[simp] theorem dstByte_arg0 (i : Nat) (v : Byte) : (s.dstByte i v).arg0 = s.arg0 := rfl
@[simp] theorem dstByte_arg1 (i : Nat) (v : Byte) : (s.dstByte i v).arg1 = s.arg1 := rfl
@[simp] theorem dstByte_arg2 (i : Nat) (v : Byte) : (s.dstByte i v).arg2 = s.arg2 := rfl
@[simp] theorem dstByte_arg3 (i : Nat) (v : Byte) : (s.dstByte i v).arg3 = s.arg3 := rfl
@[simp] theorem dstByte_res0 (i : Nat) (v : Byte) : (s.dstByte i v).res0 = s.res0 := rfl
@[simp] theorem dstByte_res1 (i : Nat) (v : Byte) : (s.dstByte i v).res1 = s.res1 := rfl
@[simp] theorem dstByte_lzwNext (i : Nat) (v : Byte) : (s.dstByte i v).lzwNext = s.lzwNext := rfl
@[simp] theorem dstByte_lzwCsize (i : Nat) (v : Byte) : (s.dstByte i v).lzwCsize = s.lzwCsize := rfl
@[simp] theorem dstByte_pred (i : Nat) (v : Byte) : (s.dstByte i v).pred = s.pred := rfl
@[simp] theorem dstByte_huff (i : Nat) (v : Byte) : (s.dstByte i v).huff = s.huff := rfl
@[simp] theorem dstByte_quant (i : Nat) (v : Byte) : (s.dstByte i v).quant = s.quant := rfl
@[simp] theorem dstByte_lzw (i : Nat) (v : Byte) : (s.dstByte i v).lzw = s.lzw := rfl
@[simp] theorem dstByte_mem (i : Nat) (v : Byte) : (s.dstByte i v).mem = s.mem.write (s.dst.addr i) v := rfl
@[simp] theorem dstByte_cfg (i : Nat) (v : Byte) : (s.dstByte i v).cfg = s.cfg := rfl
@[simp] theorem dstByte_rst (i : Nat) (v : Byte) : (s.dstByte i v).rst = s.rst := rfl
@[simp] theorem dstByte_pending (i : Nat) (v : Byte) : (s.dstByte i v).pending = s.pending := rfl
@[simp] theorem dstByte_hostData (i : Nat) (v : Byte) : (s.dstByte i v).hostData = s.hostData := rfl

/-! ### A Huffman slot -/

@[simp] theorem setHuff_cmd (t : BitVec 3) (h : Option HuffTable) : (s.setHuff t h).cmd = s.cmd := rfl
@[simp] theorem setHuff_status (t : BitVec 3) (h : Option HuffTable) : (s.setHuff t h).status = s.status := rfl
@[simp] theorem setHuff_src (t : BitVec 3) (h : Option HuffTable) : (s.setHuff t h).src = s.src := rfl
@[simp] theorem setHuff_dst (t : BitVec 3) (h : Option HuffTable) : (s.setHuff t h).dst = s.dst := rfl
@[simp] theorem setHuff_rd (t : BitVec 3) (h : Option HuffTable) : (s.setHuff t h).rd = s.rd := rfl
@[simp] theorem setHuff_wr (t : BitVec 3) (h : Option HuffTable) : (s.setHuff t h).wr = s.wr := rfl
@[simp] theorem setHuff_arg0 (t : BitVec 3) (h : Option HuffTable) : (s.setHuff t h).arg0 = s.arg0 := rfl
@[simp] theorem setHuff_arg1 (t : BitVec 3) (h : Option HuffTable) : (s.setHuff t h).arg1 = s.arg1 := rfl
@[simp] theorem setHuff_arg2 (t : BitVec 3) (h : Option HuffTable) : (s.setHuff t h).arg2 = s.arg2 := rfl
@[simp] theorem setHuff_arg3 (t : BitVec 3) (h : Option HuffTable) : (s.setHuff t h).arg3 = s.arg3 := rfl
@[simp] theorem setHuff_res0 (t : BitVec 3) (h : Option HuffTable) : (s.setHuff t h).res0 = s.res0 := rfl
@[simp] theorem setHuff_res1 (t : BitVec 3) (h : Option HuffTable) : (s.setHuff t h).res1 = s.res1 := rfl
@[simp] theorem setHuff_lzwNext (t : BitVec 3) (h : Option HuffTable) : (s.setHuff t h).lzwNext = s.lzwNext := rfl
@[simp] theorem setHuff_lzwCsize (t : BitVec 3) (h : Option HuffTable) : (s.setHuff t h).lzwCsize = s.lzwCsize := rfl
@[simp] theorem setHuff_pred (t : BitVec 3) (h : Option HuffTable) : (s.setHuff t h).pred = s.pred := rfl
@[simp] theorem setHuff_huff (t : BitVec 3) (h : Option HuffTable) : (s.setHuff t h).huff = s.huff.set t.toNat h := rfl
@[simp] theorem setHuff_quant (t : BitVec 3) (h : Option HuffTable) : (s.setHuff t h).quant = s.quant := rfl
@[simp] theorem setHuff_lzw (t : BitVec 3) (h : Option HuffTable) : (s.setHuff t h).lzw = s.lzw := rfl
@[simp] theorem setHuff_mem (t : BitVec 3) (h : Option HuffTable) : (s.setHuff t h).mem = s.mem := rfl
@[simp] theorem setHuff_cfg (t : BitVec 3) (h : Option HuffTable) : (s.setHuff t h).cfg = s.cfg := rfl
@[simp] theorem setHuff_rst (t : BitVec 3) (h : Option HuffTable) : (s.setHuff t h).rst = s.rst := rfl
@[simp] theorem setHuff_pending (t : BitVec 3) (h : Option HuffTable) : (s.setHuff t h).pending = s.pending := rfl
@[simp] theorem setHuff_hostData (t : BitVec 3) (h : Option HuffTable) : (s.setHuff t h).hostData = s.hostData := rfl

/-! ### A quantisation slot -/

@[simp] theorem setQuant_cmd (q : BitVec 2) (e : Option (List (BitVec 16))) : (s.setQuant q e).cmd = s.cmd := rfl
@[simp] theorem setQuant_status (q : BitVec 2) (e : Option (List (BitVec 16))) : (s.setQuant q e).status = s.status := rfl
@[simp] theorem setQuant_src (q : BitVec 2) (e : Option (List (BitVec 16))) : (s.setQuant q e).src = s.src := rfl
@[simp] theorem setQuant_dst (q : BitVec 2) (e : Option (List (BitVec 16))) : (s.setQuant q e).dst = s.dst := rfl
@[simp] theorem setQuant_rd (q : BitVec 2) (e : Option (List (BitVec 16))) : (s.setQuant q e).rd = s.rd := rfl
@[simp] theorem setQuant_wr (q : BitVec 2) (e : Option (List (BitVec 16))) : (s.setQuant q e).wr = s.wr := rfl
@[simp] theorem setQuant_arg0 (q : BitVec 2) (e : Option (List (BitVec 16))) : (s.setQuant q e).arg0 = s.arg0 := rfl
@[simp] theorem setQuant_arg1 (q : BitVec 2) (e : Option (List (BitVec 16))) : (s.setQuant q e).arg1 = s.arg1 := rfl
@[simp] theorem setQuant_arg2 (q : BitVec 2) (e : Option (List (BitVec 16))) : (s.setQuant q e).arg2 = s.arg2 := rfl
@[simp] theorem setQuant_arg3 (q : BitVec 2) (e : Option (List (BitVec 16))) : (s.setQuant q e).arg3 = s.arg3 := rfl
@[simp] theorem setQuant_res0 (q : BitVec 2) (e : Option (List (BitVec 16))) : (s.setQuant q e).res0 = s.res0 := rfl
@[simp] theorem setQuant_res1 (q : BitVec 2) (e : Option (List (BitVec 16))) : (s.setQuant q e).res1 = s.res1 := rfl
@[simp] theorem setQuant_lzwNext (q : BitVec 2) (e : Option (List (BitVec 16))) : (s.setQuant q e).lzwNext = s.lzwNext := rfl
@[simp] theorem setQuant_lzwCsize (q : BitVec 2) (e : Option (List (BitVec 16))) : (s.setQuant q e).lzwCsize = s.lzwCsize := rfl
@[simp] theorem setQuant_pred (q : BitVec 2) (e : Option (List (BitVec 16))) : (s.setQuant q e).pred = s.pred := rfl
@[simp] theorem setQuant_huff (q : BitVec 2) (e : Option (List (BitVec 16))) : (s.setQuant q e).huff = s.huff := rfl
@[simp] theorem setQuant_quant (q : BitVec 2) (e : Option (List (BitVec 16))) : (s.setQuant q e).quant = s.quant.set q.toNat e := rfl
@[simp] theorem setQuant_lzw (q : BitVec 2) (e : Option (List (BitVec 16))) : (s.setQuant q e).lzw = s.lzw := rfl
@[simp] theorem setQuant_mem (q : BitVec 2) (e : Option (List (BitVec 16))) : (s.setQuant q e).mem = s.mem := rfl
@[simp] theorem setQuant_cfg (q : BitVec 2) (e : Option (List (BitVec 16))) : (s.setQuant q e).cfg = s.cfg := rfl
@[simp] theorem setQuant_rst (q : BitVec 2) (e : Option (List (BitVec 16))) : (s.setQuant q e).rst = s.rst := rfl
@[simp] theorem setQuant_pending (q : BitVec 2) (e : Option (List (BitVec 16))) : (s.setQuant q e).pending = s.pending := rfl
@[simp] theorem setQuant_hostData (q : BitVec 2) (e : Option (List (BitVec 16))) : (s.setQuant q e).hostData = s.hostData := rfl

/-! ### A predictor -/

@[simp] theorem setPred_cmd (c : BitVec 2) (v : Word) : (s.setPred c v).cmd = s.cmd := rfl
@[simp] theorem setPred_status (c : BitVec 2) (v : Word) : (s.setPred c v).status = s.status := rfl
@[simp] theorem setPred_src (c : BitVec 2) (v : Word) : (s.setPred c v).src = s.src := rfl
@[simp] theorem setPred_dst (c : BitVec 2) (v : Word) : (s.setPred c v).dst = s.dst := rfl
@[simp] theorem setPred_rd (c : BitVec 2) (v : Word) : (s.setPred c v).rd = s.rd := rfl
@[simp] theorem setPred_wr (c : BitVec 2) (v : Word) : (s.setPred c v).wr = s.wr := rfl
@[simp] theorem setPred_arg0 (c : BitVec 2) (v : Word) : (s.setPred c v).arg0 = s.arg0 := rfl
@[simp] theorem setPred_arg1 (c : BitVec 2) (v : Word) : (s.setPred c v).arg1 = s.arg1 := rfl
@[simp] theorem setPred_arg2 (c : BitVec 2) (v : Word) : (s.setPred c v).arg2 = s.arg2 := rfl
@[simp] theorem setPred_arg3 (c : BitVec 2) (v : Word) : (s.setPred c v).arg3 = s.arg3 := rfl
@[simp] theorem setPred_res0 (c : BitVec 2) (v : Word) : (s.setPred c v).res0 = s.res0 := rfl
@[simp] theorem setPred_res1 (c : BitVec 2) (v : Word) : (s.setPred c v).res1 = s.res1 := rfl
@[simp] theorem setPred_lzwNext (c : BitVec 2) (v : Word) : (s.setPred c v).lzwNext = s.lzwNext := rfl
@[simp] theorem setPred_lzwCsize (c : BitVec 2) (v : Word) : (s.setPred c v).lzwCsize = s.lzwCsize := rfl
@[simp] theorem setPred_pred (c : BitVec 2) (v : Word) : (s.setPred c v).pred = s.pred.set c.toNat v := rfl
@[simp] theorem setPred_huff (c : BitVec 2) (v : Word) : (s.setPred c v).huff = s.huff := rfl
@[simp] theorem setPred_quant (c : BitVec 2) (v : Word) : (s.setPred c v).quant = s.quant := rfl
@[simp] theorem setPred_lzw (c : BitVec 2) (v : Word) : (s.setPred c v).lzw = s.lzw := rfl
@[simp] theorem setPred_mem (c : BitVec 2) (v : Word) : (s.setPred c v).mem = s.mem := rfl
@[simp] theorem setPred_cfg (c : BitVec 2) (v : Word) : (s.setPred c v).cfg = s.cfg := rfl
@[simp] theorem setPred_rst (c : BitVec 2) (v : Word) : (s.setPred c v).rst = s.rst := rfl
@[simp] theorem setPred_pending (c : BitVec 2) (v : Word) : (s.setPred c v).pending = s.pending := rfl
@[simp] theorem setPred_hostData (c : BitVec 2) (v : Word) : (s.setPred c v).hostData = s.hostData := rfl

end Sys2Proof.Machine.State
end

