-- ==== Sys2Proof/Laws/Ops.lean ====
section
/-!
SUPPORT. What the shared operations of Machine/Ops.lean can do, once each: window addresses, the three ways of
output, and the life of a command.
-/

namespace Sys2Proof.Machine

/-! ## Window addresses -/

/-- An offset inside a window that fits is reached without wrapping (R69). -/
theorem Window.addr_toNat {w : Window} (hw : w.fits = true) {i : Nat} (hi : i < w.len.toNat) :
    (w.addr i).toNat = w.base.toNat + i := by
  simp only [Window.fits, decide_eq_true_eq] at hw
  simp only [Window.addr, BitVec.toNat_add, BitVec.toNat_ofNat]
  omega

/-- Two offsets of a window that fits have different addresses. -/
theorem Window.addr_inj {w : Window} (hw : w.fits = true) {i j : Nat} (hi : i < w.len.toNat)
    (hj : j < w.len.toNat) (h : w.addr i = w.addr j) : i = j := by
  have := congrArg BitVec.toNat h
  rw [addr_toNat hw hi, addr_toNat hw hj] at this
  omega

/-- The address of an offset below the length lies in the window (R62). -/
theorem Window.holds_addr {w : Window} (hw : w.fits = true) {i : Nat} (hi : i < w.len.toNat) :
    w.holds (w.addr i) = true := by
  simp only [Window.holds, addr_toNat hw hi, Bool.and_eq_true, decide_eq_true_eq]
  omega

/-- Every address of a window is that of an offset below its length. -/
theorem Window.holds_iff {w : Window} (hw : w.fits = true) {a : Word} :
    w.holds a = true ↔ ∃ i, i < w.len.toNat ∧ a = w.addr i := by
  constructor
  · intro h
    simp only [Window.holds, Bool.and_eq_true, decide_eq_true_eq] at h
    refine ⟨a.toNat - w.base.toNat, by omega, BitVec.eq_of_toNat_eq ?_⟩
    rw [addr_toNat hw (by omega)]
    omega
  · rintro ⟨i, hi, rfl⟩
    exact holds_addr hw hi

/-! ## The source window -/

@[simp] theorem srcBytes_length (s : State) (o n : Nat) : (s.srcBytes o n).length = n := by
  induction n generalizing o with
  | zero => rfl
  | succ n ih => simp [State.srcBytes, ih]

theorem srcBytes_getElem (s : State) (o n i : Nat) (h : i < (s.srcBytes o n).length) :
    (s.srcBytes o n)[i] = s.srcByte (o + i) := by
  induction n generalizing o i with
  | zero => simp [State.srcBytes] at h
  | succ n ih =>
    cases i with
    | zero => rfl
    | succ i =>
      simp only [State.srcBytes, List.getElem_cons_succ]
      rw [ih, Nat.add_assoc, Nat.add_comm 1]

theorem srcBytes_getD {s : State} {o n i : Nat} (h : i < n) : (s.srcBytes o n).getD i 0 = s.srcByte (o + i) := by
  rw [List.getD_eq_getElem?_getD, List.getElem?_eq_getElem (by simpa using h), Option.getD_some,
    srcBytes_getElem]

@[simp] theorem srcAll_length (s : State) : s.srcAll.length = s.src.len.toNat := by
  simp [State.srcAll]

/-- Only memory and the source window decide what a source read returns. -/
theorem srcByte_congr {s t : State} (hm : t.mem = s.mem) (hs : t.src = s.src) : t.srcByte = s.srcByte := by
  funext i
  simp [State.srcByte, hm, hs]

theorem srcBytes_congr {s t : State} (hm : t.mem = s.mem) (hs : t.src = s.src) (o n : Nat) :
    t.srcBytes o n = s.srcBytes o n := by
  induction n generalizing o with
  | zero => rfl
  | succ n ih => simp [State.srcBytes, ih, srcByte_congr hm hs]

theorem srcByte?_congr {s t : State} (hm : t.mem = s.mem) (hs : t.src = s.src) : t.srcByte? = s.srcByte? := by
  funext i
  simp [State.srcByte?, hs, srcByte_congr hm hs]

@[simp] theorem srcByte?_begun (s : State) (w : Word) : (s.begun w).srcByte? = s.srcByte? := srcByte?_congr rfl rfl
@[simp] theorem srcByte_begun (s : State) (w : Word) : (s.begun w).srcByte = s.srcByte := srcByte_congr rfl rfl
@[simp] theorem srcBytes_begun (s : State) (w : Word) (o n : Nat) :
    (s.begun w).srcBytes o n = s.srcBytes o n := srcBytes_congr (State.begun_mem s w) rfl o n
@[simp] theorem srcAll_begun (s : State) (w : Word) : (s.begun w).srcAll = s.srcAll :=
  srcBytes_congr (State.begun_mem s w) rfl 0 s.src.len.toNat

/-! ## Consecutive writes -/

/-- Writing consecutive bytes changes memory only. -/
theorem dstBytes_eq (s : State) (o : Nat) (vs : List Byte) :
    s.dstBytes o vs = { s with mem := (s.dstBytes o vs).mem } := by
  induction vs generalizing s o with
  | nil => rfl
  | cons v vs ih => rw [State.dstBytes, ih]; rfl

@[simp] theorem dstBytes_dst (s : State) (o : Nat) (vs : List Byte) : (s.dstBytes o vs).dst = s.dst := by
  rw [dstBytes_eq]
@[simp] theorem dstBytes_src (s : State) (o : Nat) (vs : List Byte) : (s.dstBytes o vs).src = s.src := by
  rw [dstBytes_eq]
@[simp] theorem dstBytes_wr (s : State) (o : Nat) (vs : List Byte) : (s.dstBytes o vs).wr = s.wr := by
  rw [dstBytes_eq]
@[simp] theorem dstBytes_rd (s : State) (o : Nat) (vs : List Byte) : (s.dstBytes o vs).rd = s.rd := by
  rw [dstBytes_eq]
@[simp] theorem dstBytes_status (s : State) (o : Nat) (vs : List Byte) : (s.dstBytes o vs).status = s.status := by
  rw [dstBytes_eq]

/-- Writing consecutive bytes keeps the canonical form of memory. -/
theorem dstBytes_wf {s : State} (h : s.mem.wf) (o : Nat) (vs : List Byte) : (s.dstBytes o vs).mem.wf := by
  induction vs generalizing s o with
  | nil => exact h
  | cons v vs ih => exact ih (s := s.dstByte o v) (Memory.write_wf h _ _) (o + 1)

/-- An address that is none of the offsets written reads as before. -/
theorem dstBytes_read_other {s : State} {a : Word} (o : Nat) (vs : List Byte)
    (h : ∀ j, j < vs.length → a ≠ s.dst.addr (o + j)) : (s.dstBytes o vs).mem.read a = s.mem.read a := by
  induction vs generalizing s o with
  | nil => rfl
  | cons v vs ih =>
    rw [State.dstBytes, ih (s := s.dstByte o v) (o + 1)]
    · exact Memory.read_write_other (by simpa using h 0 (by simp)) v s.mem
    · intro j hj
      have := h (j + 1) (by simpa using hj)
      rwa [Nat.add_comm j, ← Nat.add_assoc] at this

/-- Offset `o + j` of the window reads as the byte put there. -/
theorem dstBytes_read {s : State} (hm : s.mem.wf) (hd : s.dst.fits = true) {o : Nat} {vs : List Byte}
    (hf : o + vs.length ≤ s.dst.len.toNat) {j : Nat} (hj : j < vs.length) :
    (s.dstBytes o vs).mem.read (s.dst.addr (o + j)) = vs.getD j 0 := by
  induction vs generalizing s o j with
  | nil => simp at hj
  | cons v vs ih =>
    simp only [List.length_cons] at hf hj
    rw [State.dstBytes]
    cases j with
    | zero =>
      rw [dstBytes_read_other]
      · simpa using Memory.read_write_same hm (s.dst.addr o) v
      · intro j hj e
        have := Window.addr_inj hd (by omega) (by omega) e
        omega
    | succ j =>
      have := ih (s := s.dstByte o v) (Memory.write_wf hm _ _) hd (o := o + 1)
        (by simp only [State.dstByte_dst]; omega) (j := j) (by omega)
      simp only [State.dstByte_dst] at this
      rw [show o + (j + 1) = o + 1 + j by omega, this]
      simp

theorem dstBytes_append (s : State) (o : Nat) (vs ws : List Byte) :
    s.dstBytes o (vs ++ ws) = (s.dstBytes o vs).dstBytes (o + vs.length) ws := by
  induction vs generalizing s o with
  | nil => rfl
  | cons v vs ih =>
    simp only [List.cons_append, State.dstBytes, ih, List.length_cons]
    congr 1
    omega

/-! ## Placed writes -/

/-- Placing bytes changes memory only. -/
theorem dstPlaced_eq (s : State) (ps : List (Nat × Byte)) :
    s.dstPlaced ps = { s with mem := (s.dstPlaced ps).mem } := by
  induction ps generalizing s with
  | nil => rfl
  | cons p ps ih => rw [State.dstPlaced, ih]; rfl

@[simp] theorem dstPlaced_dst (s : State) (ps : List (Nat × Byte)) : (s.dstPlaced ps).dst = s.dst := by
  rw [dstPlaced_eq]

/-- Placing bytes keeps the canonical form of memory. -/
theorem dstPlaced_wf {s : State} (h : s.mem.wf) (ps : List (Nat × Byte)) : (s.dstPlaced ps).mem.wf := by
  induction ps generalizing s with
  | nil => exact h
  | cons p ps ih => exact ih (s := s.dstByte p.1 p.2) (Memory.write_wf h _ _)

/-- An address at none of the offsets placed reads as before. -/
theorem dstPlaced_read_other {s : State} {a : Word} (ps : List (Nat × Byte))
    (h : ∀ p ∈ ps, a ≠ s.dst.addr p.1) : (s.dstPlaced ps).mem.read a = s.mem.read a := by
  induction ps generalizing s with
  | nil => rfl
  | cons p ps ih =>
    rw [State.dstPlaced, ih (s := s.dstByte p.1 p.2)]
    · exact Memory.read_write_other (h p (by simp)) p.2 s.mem
    · exact fun q hq => h q (by simp [hq])

/-- Where equal offsets carry equal bytes, an offset that reads as its byte still does after more placed writes. -/
theorem dstPlaced_read_keeps {s : State} (hm : s.mem.wf) (hd : s.dst.fits = true) {ps : List (Nat × Byte)}
    (hf : ∀ p ∈ ps, p.1 < s.dst.len.toNat) {value : Nat → Byte} (hv : ∀ p ∈ ps, p.2 = value p.1) {o : Nat}
    (ho : o < s.dst.len.toNat) (h : s.mem.read (s.dst.addr o) = value o) :
    (s.dstPlaced ps).mem.read (s.dst.addr o) = value o := by
  induction ps generalizing s with
  | nil => exact h
  | cons p ps ih =>
    refine ih (s := s.dstByte p.1 p.2) (Memory.write_wf hm _ _) hd (fun q hq => hf q (by simp [hq]))
      (fun q hq => hv q (by simp [hq])) ho ?_
    simp only [State.dstByte]
    rw [Memory.read_write hm]
    split
    · next e => rw [hv p (by simp), Window.addr_inj hd ho (hf p (by simp)) e]
    · exact h

/-- Where all offsets lie in the window and equal offsets carry equal bytes, each offset reads as its byte. -/
theorem dstPlaced_read {s : State} (hm : s.mem.wf) (hd : s.dst.fits = true) {ps : List (Nat × Byte)}
    (hf : ∀ p ∈ ps, p.1 < s.dst.len.toNat) {value : Nat → Byte} (hv : ∀ p ∈ ps, p.2 = value p.1)
    {p : Nat × Byte} (hp : p ∈ ps) : (s.dstPlaced ps).mem.read (s.dst.addr p.1) = value p.1 := by
  induction ps generalizing s with
  | nil => simp at hp
  | cons q ps ih =>
    rcases List.mem_cons.mp hp with rfl | hp
    · refine dstPlaced_read_keeps (s := s.dstByte p.1 p.2) (Memory.write_wf hm _ _) hd
        (fun r hr => hf r (by simp [hr])) (fun r hr => hv r (by simp [hr])) (hf p (by simp)) ?_
      simp only [State.dstByte]
      rw [Memory.read_write_same hm, hv p (by simp)]
    · exact ih (s := s.dstByte q.1 q.2) (Memory.write_wf hm _ _) hd (fun r hr => hf r (by simp [hr]))
        (fun r hr => hv r (by simp [hr])) hp

/-! ## `Emit` -/

/-- All that `Emit` of a list of bytes does (R66): the bytes that fit are stored from offset `OUT` on, and
`DSTFULL` is set if one did not. -/
theorem emitAll_spec (bs : List Byte) (out : Nat) (s : State) (h : out ≤ s.dst.len.toNat) :
    emitAll bs out s = (min (out + bs.length) s.dst.len.toNat,
      if s.dst.len.toNat < out + bs.length then (s.dstBytes out (bs.take (s.dst.len.toNat - out))).setDstfull
      else s.dstBytes out bs) := by
  induction bs generalizing out s with
  | nil => simp [emitAll, State.dstBytes, h, Nat.not_lt.mpr h]
  | cons b bs ih =>
    unfold emitAll emit
    split
    · next hlt =>
      have hdst : (s.dstByte out b).dst = s.dst := rfl
      rw [ih _ _ (by rw [hdst]; omega), hdst]
      simp only [List.length_cons]
      have e1 : out + 1 + bs.length = out + (bs.length + 1) := by omega
      rw [e1]
      congr 1
      split
      · have e2 : s.dst.len.toNat - out = s.dst.len.toNat - (out + 1) + 1 := by omega
        rw [e2, List.take_succ_cons, State.dstBytes]
      · rfl
    · next hge =>
      have he : out = s.dst.len.toNat := by omega
      have hdst : (s.setDstfull).dst = s.dst := rfl
      simp only
      rw [ih _ _ (by rw [hdst]; omega), hdst]
      simp only [List.length_cons]
      subst he
      congr 1
      · omega
      · simp only [Nat.sub_self, List.take_zero, State.dstBytes]
        rw [if_pos (show s.dst.len.toNat < s.dst.len.toNat + (bs.length + 1) by omega)]
        split
        · rfl
        · have : bs = [] := List.length_eq_zero_iff.mp (by omega)
          subst this
          rfl

/-! ## `PutPacket` -/

/-- The packets of a list that an encoder stores: those before the first that does not fit (R67). -/
def storedPackets (room : Nat) : List (List Byte × Nat) → List (List Byte × Nat)
  | [] => []
  | p :: ps => if room < p.1.length then [] else p :: storedPackets (room - p.1.length) ps

/-- All that the loop over the packets does (R67): the stored packets lie end to end from offset `OUT` on, and
`DSTFULL` is set if one did not fit. -/
theorem putPackets_spec (ps : List (List Byte × Nat)) (out i : Nat) (s : State) (h : out ≤ s.dst.len.toNat) :
    putPackets ps out i s =
      (let q := storedPackets (s.dst.len.toNat - out) ps
       let t := s.dstBytes out (q.flatMap Prod.fst)
       (out + (q.flatMap Prod.fst).length, i + (q.map Prod.snd).sum, if q = ps then t else t.setDstfull)) := by
  induction ps generalizing out i s with
  | nil => simp [putPackets, storedPackets, State.dstBytes]
  | cons p ps ih =>
    obtain ⟨b, adv⟩ := p
    simp only [putPackets, putPacket, storedPackets]
    by_cases hr : s.dst.len.toNat - out < b.length
    · rw [if_pos hr, if_pos (by omega)]
      simp [State.dstBytes]
    · rw [if_neg hr, if_neg (by omega)]
      simp only
      rw [ih _ _ _ (by rw [dstBytes_dst]; omega), dstBytes_dst]
      have e : s.dst.len.toNat - (out + b.length) = s.dst.len.toNat - out - b.length := by omega
      simp only [e, List.flatMap_cons, List.map_cons, List.sum_cons, List.length_append, dstBytes_append,
        List.cons.injEq, true_and]
      simp only [Nat.add_assoc]

/-- The stored packets fit. -/
theorem storedPackets_length (room : Nat) (ps : List (List Byte × Nat)) :
    ((storedPackets room ps).flatMap Prod.fst).length ≤ room := by
  induction ps generalizing room with
  | nil => simp [storedPackets]
  | cons p ps ih =>
    simp only [storedPackets]
    split
    · simp
    · have := ih (room - p.1.length)
      simp only [List.flatMap_cons, List.length_append]
      omega

/-- With room for all of them, all packets are stored. -/
theorem storedPackets_all {room : Nat} {ps : List (List Byte × Nat)} (h : (ps.flatMap Prod.fst).length ≤ room) :
    storedPackets room ps = ps := by
  induction ps generalizing room with
  | nil => rfl
  | cons p ps ih =>
    simp only [List.flatMap_cons, List.length_append] at h
    simp only [storedPackets]
    rw [if_neg (by omega), ih (by omega)]

/-! ## The life of a command -/

/-- A command with legal fields whose window checks pass runs its pseudocode (R314). -/
theorem launch_of_ok {i : Instr} {body : State → State × ResultCode} {s : State}
    (hi : i.wellFormed = true) (hw : windowsOk i s = true) :
    launch i body s = (body (s.begun (encode i))).1.complete (body (s.begun (encode i))).2 := by
  simp [launch, hi, hw]

/-- A command whose window checks fail changes `CMD` and `STATUS` only (R65, R312). -/
theorem launch_of_not_ok {i : Instr} {body : State → State × ResultCode} {s : State}
    (h : (i.wellFormed && windowsOk i s) = false) : launch i body s = illegalWord (encode i) s := by
  simp [launch, h]

/-- A command that uses no window passes the window checks. -/
theorem windowsOk_of_none {i : Instr} {s : State} (h1 : i.usesSrc = false) (h2 : i.usesDst = false) :
    windowsOk i s = true := by
  simp [windowsOk, h1, h2]

/-- Every command is one step to a next state: none faults and none is refused (R7, R321). -/
theorem launch_cases (i : Instr) (body : State → State × ResultCode) (s : State) :
    launch i body s = illegalWord (encode i) s ∨
      (i.wellFormed = true ∧ windowsOk i s = true ∧
        launch i body s = (body (s.begun (encode i))).1.complete (body (s.begun (encode i))).2) := by
  by_cases h : (i.wellFormed && windowsOk i s) = true
  · simp only [Bool.and_eq_true] at h
    exact .inr ⟨h.1, h.2, launch_of_ok h.1 h.2⟩
  · exact .inl (launch_of_not_ok (by simpa using h))

end Sys2Proof.Machine
end

