-- ==== Sys2Proof/Laws/Operands.lean ====
section
/-!
SUPPORT. What the operand forms of Machine/Operands.lean can do, once each: the bit reader, the bit writer, the
rasters; and the host's register write.
-/

namespace Sys2Proof.Machine

/-! ## The bit reader -/

/-- The four outcomes of `RdBit` (R121): a data bit, after which the cursor has advanced past it (and past the
stuffed zero that follows an `FF`), or a condition, after which the cursor is where it was. -/
theorem rdBit_cases (src : Nat → Option Byte) (order : Order) (stuff : Bool) (c : ReadCursor) :
    (∃ v, src c.byte.toNat = some v ∧ (stuff = true → v = 0xFF → src (c.byte.toNat + 1) = some 0x00) ∧
      rdBit src order stuff c =
        (.bit (v.getLsbD (bitPos order c.bit)), c.advance (if stuff = true ∧ v = 0xFF then 2 else 1))) ∨
    ((src c.byte.toNat = none ∨
        stuff = true ∧ src c.byte.toNat = some 0xFF ∧ src (c.byte.toNat + 1) = none) ∧
      rdBit src order stuff c = (.trunc, c)) ∨
    (stuff = true ∧ src c.byte.toNat = some 0xFF ∧
      (∃ w, src (c.byte.toNat + 1) = some w ∧ w ≠ 0x00) ∧ rdBit src order stuff c = (.eos, c)) := by
  unfold rdBit
  cases hv : src c.byte.toNat with
  | none => exact .inr (.inl ⟨.inl rfl, rfl⟩)
  | some v =>
    simp only [Bool.and_eq_true, beq_iff_eq]
    by_cases hs : stuff = true ∧ v = 0xFF
    · simp only [if_pos hs]
      obtain ⟨hs, rfl⟩ := hs
      cases hw : src (c.byte.toNat + 1) with
      | none => exact .inr (.inl ⟨.inr ⟨hs, rfl, rfl⟩, rfl⟩)
      | some w =>
        by_cases h0 : w = 0x00
        · subst h0
          exact .inl ⟨0xFF, rfl, fun _ _ => rfl, by simp [hs]⟩
        · exact .inr (.inr ⟨hs, rfl, ⟨w, rfl, h0⟩, if_neg h0⟩)
    · simp only [if_neg hs]
      exact .inl ⟨v, rfl, fun h1 h2 => absurd ⟨h1, h2⟩ hs, by rw [if_neg hs]⟩

/-- Without stuffing there is no marker (R123 (d)). -/
theorem rdBit_plain (src : Nat → Option Byte) (order : Order) (c : ReadCursor) :
    rdBit src order false c =
      match src c.byte.toNat with
      | none => (.trunc, c)
      | some v => (.bit (v.getLsbD (bitPos order c.bit)), c.advance 1) := by
  unfold rdBit
  cases src c.byte.toNat <;> simp

/-- `ReadBits` changes the read cursor and the flags `TRUNC` and `EOS` only (R122). -/
theorem readBits_eq (n : Nat) (order : Order) (stuff zfill : Bool) (s : State) :
    (readBits n order stuff zfill s).1 =
      { s with
        rd := (readBits n order stuff zfill s).1.rd
        status :=
          { s.status with
            trunc := (readBits n order stuff zfill s).1.status.trunc
            eos := (readBits n order stuff zfill s).1.status.eos } } := rfl

/-! ## The bit writer -/

/-- All that `WrBit` of an accepted bit does (R124). -/
theorem wrBit_some {order : Order} {stuff b : Bool} {s t : State} (h : wrBit order stuff b s = some t) :
    (s.wr.bit ≠ 7 ∧
      t = { s with wr :=
              { s.wr with bit := s.wr.bit + 1, acc := setBit s.wr.acc (bitPos order s.wr.bit) b } }) ∨
    (s.wr.bit = 7 ∧ ∃ out : List Byte,
      out = (if stuff = true ∧ setBit s.wr.acc (bitPos order s.wr.bit) b = 0xFF then [0xFF, 0x00]
        else [setBit s.wr.acc (bitPos order s.wr.bit) b]) ∧
      s.wr.byte.toNat + out.length ≤ s.dst.len.toNat ∧
      t = { s.dstBytes s.wr.byte.toNat out with
              wr := { byte := s.wr.byte + BitVec.ofNat 32 out.length, bit := 0, acc := 0 } }) := by
  unfold wrBit at h
  by_cases h7 : s.wr.bit = 7
  · refine .inr ⟨h7, _, rfl, ?_⟩
    simp only [h7, if_true, Bool.and_eq_true, beq_iff_eq] at h ⊢
    by_cases hf : stuff = true ∧ setBit s.wr.acc (bitPos order 7) b = 0xFF
    · simp only [if_pos hf] at h ⊢
      split at h
      · simp at h
      · next hle =>
        simp only [hf.2] at h hle ⊢
        exact ⟨by simpa using hle, (Option.some.inj h).symm⟩
    · simp only [if_neg hf] at h ⊢
      split at h
      · simp at h
      · next hle => exact ⟨by simpa using hle, (Option.some.inj h).symm⟩
  · simp only [h7, if_false] at h
    exact .inl ⟨h7, (Option.some.inj h).symm⟩

/-- An accepted bit changes the write cursor and memory only. -/
theorem wrBit_eq {order : Order} {stuff b : Bool} {s t : State} (h : wrBit order stuff b s = some t) :
    t = { s with wr := t.wr, mem := t.mem } := by
  rcases wrBit_some h with ⟨-, rfl⟩ | ⟨-, out, -, -, rfl⟩
  · rfl
  · rw [dstBytes_eq]

/-- An accepted bit keeps the canonical form of memory. -/
theorem wrBit_wf {order : Order} {stuff b : Bool} {s t : State} (h : wrBit order stuff b s = some t)
    (hm : s.mem.wf) : t.mem.wf := by
  rcases wrBit_some h with ⟨-, rfl⟩ | ⟨-, out, -, -, rfl⟩
  · exact hm
  · exact dstBytes_wf hm _ _

/-- A list of bits changes the write cursor, memory and the flag `DSTFULL` only, and that flag only with
`TruncatedData` (R124, R125). -/
theorem writeBits_eq (order : Order) (stuff : Bool) (bs : List Bool) (s : State) :
    ((writeBits order stuff bs s).2 = .ok ∧
      (writeBits order stuff bs s).1 =
        { s with wr := (writeBits order stuff bs s).1.wr, mem := (writeBits order stuff bs s).1.mem }) ∨
    ((writeBits order stuff bs s).2 = .truncatedData ∧
      (writeBits order stuff bs s).1 =
        { s.setDstfull with
          wr := (writeBits order stuff bs s).1.wr, mem := (writeBits order stuff bs s).1.mem }) := by
  induction bs generalizing s with
  | nil => exact .inl ⟨rfl, rfl⟩
  | cons b bs ih =>
    unfold writeBits
    cases hw : wrBit order stuff b s with
    | none => exact .inr ⟨rfl, rfl⟩
    | some t =>
      have ht := wrBit_eq hw
      simp only
      rcases ih t with ⟨h1, h2⟩ | ⟨h1, h2⟩
      · refine .inl ⟨h1, ?_⟩
        rw [ht] at h2 ⊢
        exact h2
      · refine .inr ⟨h1, ?_⟩
        rw [ht] at h2 ⊢
        exact h2

/-- A list of bits keeps the canonical form of memory. -/
theorem writeBits_wf (order : Order) (stuff : Bool) (bs : List Bool) {s : State} (hm : s.mem.wf) :
    (writeBits order stuff bs s).1.mem.wf := by
  induction bs generalizing s with
  | nil => exact hm
  | cons b bs ih =>
    unfold writeBits
    cases hw : wrBit order stuff b s with
    | none => exact hm
    | some t => exact ih (wrBit_wf hw hm)

/-! ## Rasters -/

/-- The test of R318 passes exactly when the raster is legal and fits. -/
theorem badDimensions_eq_false (bpp : Nat) (s : State) : badDimensions bpp s = false ↔ s.rasterOk bpp := by
  simp only [badDimensions, State.rasterOk, Bool.or_eq_false_iff, decide_eq_false_iff_not]
  omega

theorem placedAt_mem {o : Nat} {vs : List Byte} {p : Nat × Byte} :
    p ∈ placedAt o vs ↔ ∃ j, j < vs.length ∧ p = (o + j, vs.getD j 0) := by
  induction vs generalizing o with
  | nil => simp [placedAt]
  | cons v vs ih =>
    simp only [placedAt, List.mem_cons, ih, List.length_cons]
    constructor
    · rintro (rfl | ⟨j, hj, rfl⟩)
      · exact ⟨0, by omega, by simp⟩
      · exact ⟨j + 1, by omega, by simp [Nat.add_assoc, Nat.add_comm 1]⟩
    · rintro ⟨j, hj, rfl⟩
      cases j with
      | zero => exact .inl (by simp)
      | succ j => exact .inr ⟨j, by omega, by simp [Nat.add_assoc, Nat.add_comm 1]⟩

/-- The writes of a block: one per byte of each pixel of the block that lies in the raster (R248, R280). -/
theorem blockWrites_mem {side bpp : Nat} {pixel : Nat → Nat → List Byte} {s : State} {p : Nat × Byte} :
    p ∈ blockWrites side bpp pixel s ↔
      ∃ dx dy j, dx < side ∧ dy < side ∧ j < (pixel dx dy).length ∧
        s.arg2.toNat * side + dx < s.arg0.toNat ∧ s.arg3.toNat * side + dy < s.arg1.toNat ∧
        p = (((s.arg3.toNat * side + dy) * s.arg0.toNat + (s.arg2.toNat * side + dx)) * bpp + j,
          (pixel dx dy).getD j 0) := by
  simp only [blockWrites, List.mem_flatMap, List.mem_range]
  constructor
  · rintro ⟨dy, hdy, dx, hdx, hp⟩
    split at hp
    · next h =>
      obtain ⟨j, hj, rfl⟩ := placedAt_mem.mp hp
      exact ⟨dx, dy, j, hdx, hdy, hj, h.1, h.2, rfl⟩
    · simp at hp
  · rintro ⟨dx, dy, j, hdx, hdy, hj, hx, hy, rfl⟩
    refine ⟨dy, hdy, dx, hdx, ?_⟩
    rw [if_pos ⟨hx, hy⟩]
    exact placedAt_mem.mpr ⟨j, hj, rfl⟩

/-! ## The host's register write -/

/-- A host write of a register other than `CMD` changes a window, a cursor or an operand only (R23 (e)). -/
theorem writeReg_eq (off : BitVec 8) (v : Word) (s : State) :
    writeReg off v s =
      { s with
        src := (writeReg off v s).src, dst := (writeReg off v s).dst, rd := (writeReg off v s).rd
        wr := (writeReg off v s).wr, arg0 := (writeReg off v s).arg0, arg1 := (writeReg off v s).arg1
        arg2 := (writeReg off v s).arg2, arg3 := (writeReg off v s).arg3 } := by
  unfold writeReg
  split <;> rfl

end Sys2Proof.Machine
end

