-- ==== Sys2Proof/Laws/PerInstr.lean ====
section
/-!
SUPPORT. A statement about each command as syntax: its word selects its row of the opcode map and has no bit set
that the row fixes otherwise (spec/30_encoding.md R95).
-/

namespace Sys2Proof

/-- `OPC` stands in the low byte of a command word (R91). -/
theorem Fields.word_opc (f : Fields) : f.word.extractLsb' 0 8 = f.opc := by
  ext i hi
  simp only [Fields.word, BitVec.getElem_extractLsb', BitVec.getLsbD_append]
  simp [hi]

/-- The row of a word is found by its `OPC` (R94 (1)). -/
theorem rowOf_word (f : Fields) :
    rowOf f.word = opcodeTable.find? fun r => r.pattern.extractLsb' 0 8 == f.opc := by
  simp only [rowOf, Fields.word_opc]

/-- The bits of a command word, field by field (R91). -/
theorem Fields.word_bit (f : Fields) {k : Nat} (hk : k < 32) :
    f.word.getLsbD k =
      if k < 8 then f.opc.getLsbD k
      else if k = 8 then f.order == .lsb
      else if k = 9 then f.stuff
      else if k = 10 then f.zfill
      else if k = 11 then f.pad
      else if k < 15 then f.slot.getLsbD (k - 12)
      else if k = 15 then false
      else f.imm.getLsbD (k - 16) := by
  simp only [Fields.word, BitVec.getLsbD_append]
  interval_cases k <;> simp [Order.toBool]

/-- The command's word belongs to a row of the opcode map (R95). -/
def Laws.InRow.Statement (i : Instr) : Prop :=
  ∃ r, rowOf (encode i) = some r ∧ encode i &&& r.mask = r.pattern

/-- A word belongs to its row if the row is the one its `OPC` selects and the fixed bits agree one by one. -/
theorem Laws.InRow.intro {i : Instr} {r : OpcodeRow}
    (h : opcodeTable.find? (fun r => r.pattern.extractLsb' 0 8 == i.fields.opc) = some r)
    (hb : ∀ k < 32, (i.fields.word &&& r.mask).getLsbD k = r.pattern.getLsbD k) : Laws.InRow.Statement i :=
  ⟨r, by rw [encode, rowOf_word, h], BitVec.eq_of_getLsbD_eq hb⟩

theorem Laws.InRow.nop : Laws.InRow.Statement (.nop) := by
  refine Laws.InRow.intro rfl fun k hk => ?_
  rw [BitVec.getLsbD_and, Fields.word_bit _ hk]
  interval_cases k <;> simp [Instr.fields]

theorem Laws.InRow.clrerr : Laws.InRow.Statement (.clrerr) := by
  refine Laws.InRow.intro rfl fun k hk => ?_
  rw [BitVec.getLsbD_and, Fields.word_bit _ hk]
  interval_cases k <;> simp [Instr.fields]

theorem Laws.InRow.sreset : Laws.InRow.Statement (.sreset) := by
  refine Laws.InRow.intro rfl fun k hk => ?_
  rw [BitVec.getLsbD_and, Fields.word_bit _ hk]
  interval_cases k <;> simp [Instr.fields]

theorem Laws.InRow.bsRd (order : Order) (stuff : Bool) (zfill : Bool) (n : BitVec 6) : Laws.InRow.Statement (.bsRd order stuff zfill n) := by
  refine Laws.InRow.intro rfl fun k hk => ?_
  rw [BitVec.getLsbD_and, Fields.word_bit _ hk]
  interval_cases k <;> simp [Instr.fields]

theorem Laws.InRow.bsWr (order : Order) (stuff : Bool) (n : BitVec 6) : Laws.InRow.Statement (.bsWr order stuff n) := by
  refine Laws.InRow.intro rfl fun k hk => ?_
  rw [BitVec.getLsbD_and, Fields.word_bit _ hk]
  interval_cases k <;> simp [Instr.fields]

theorem Laws.InRow.bsFlush (order : Order) (stuff : Bool) (pad : Bool) : Laws.InRow.Statement (.bsFlush order stuff pad) := by
  refine Laws.InRow.intro rfl fun k hk => ?_
  rw [BitVec.getLsbD_and, Fields.word_bit _ hk]
  interval_cases k <;> simp [Instr.fields]

theorem Laws.InRow.hufBuild (slot : BitVec 3) : Laws.InRow.Statement (.hufBuild slot) := by
  refine Laws.InRow.intro rfl fun k hk => ?_
  rw [BitVec.getLsbD_and, Fields.word_bit _ hk]
  interval_cases k <;> simp [Instr.fields]

theorem Laws.InRow.hufDec (slot : BitVec 3) (stuff : Bool) (zfill : Bool) : Laws.InRow.Statement (.hufDec slot stuff zfill) := by
  refine Laws.InRow.intro rfl fun k hk => ?_
  rw [BitVec.getLsbD_and, Fields.word_bit _ hk]
  interval_cases k <;> simp [Instr.fields]

theorem Laws.InRow.hufEnc (slot : BitVec 3) (stuff : Bool) (sym : BitVec 8) : Laws.InRow.Statement (.hufEnc slot stuff sym) := by
  refine Laws.InRow.intro rfl fun k hk => ?_
  rw [BitVec.getLsbD_and, Fields.word_bit _ hk]
  interval_cases k <;> simp [Instr.fields]

theorem Laws.InRow.lzwDec (order : Order) (mincs : BitVec 4) : Laws.InRow.Statement (.lzwDec order mincs) := by
  refine Laws.InRow.intro rfl fun k hk => ?_
  rw [BitVec.getLsbD_and, Fields.word_bit _ hk]
  interval_cases k <;> simp [Instr.fields]

theorem Laws.InRow.rlePbd : Laws.InRow.Statement (.rlePbd) := by
  refine Laws.InRow.intro rfl fun k hk => ?_
  rw [BitVec.getLsbD_and, Fields.word_bit _ hk]
  interval_cases k <;> simp [Instr.fields]

theorem Laws.InRow.rlePbe : Laws.InRow.Statement (.rlePbe) := by
  refine Laws.InRow.intro rfl fun k hk => ?_
  rw [BitVec.getLsbD_and, Fields.word_bit _ hk]
  interval_cases k <;> simp [Instr.fields]

theorem Laws.InRow.rleHbd (size : BitVec 3) : Laws.InRow.Statement (.rleHbd size) := by
  refine Laws.InRow.intro rfl fun k hk => ?_
  rw [BitVec.getLsbD_and, Fields.word_bit _ hk]
  interval_cases k <;> simp [Instr.fields]

theorem Laws.InRow.rleHbe (size : BitVec 3) : Laws.InRow.Statement (.rleHbe size) := by
  refine Laws.InRow.intro rfl fun k hk => ?_
  rw [BitVec.getLsbD_and, Fields.word_bit _ hk]
  interval_cases k <;> simp [Instr.fields]

theorem Laws.InRow.jpgLdq (slot : BitVec 2) : Laws.InRow.Statement (.jpgLdq slot) := by
  refine Laws.InRow.intro rfl fun k hk => ?_
  rw [BitVec.getLsbD_and, Fields.word_bit _ hk]
  interval_cases k <;> simp [Instr.fields]

theorem Laws.InRow.jpgBlk (slot : BitVec 2) : Laws.InRow.Statement (.jpgBlk slot) := by
  refine Laws.InRow.intro rfl fun k hk => ?_
  rw [BitVec.getLsbD_and, Fields.word_bit _ hk]
  interval_cases k <;> simp [Instr.fields]

theorem Laws.InRow.jpgYcc : Laws.InRow.Statement (.jpgYcc) := by
  refine Laws.InRow.intro rfl fun k hk => ?_
  rw [BitVec.getLsbD_and, Fields.word_bit _ hk]
  interval_cases k <;> simp [Instr.fields]

theorem Laws.InRow.jpgDcp (comp : BitVec 2) : Laws.InRow.Statement (.jpgDcp comp) := by
  refine Laws.InRow.intro rfl fun k hk => ?_
  rw [BitVec.getLsbD_and, Fields.word_bit _ hk]
  interval_cases k <;> simp [Instr.fields]

theorem Laws.InRow.jpgRst : Laws.InRow.Statement (.jpgRst) := by
  refine Laws.InRow.intro rfl fun k hk => ?_
  rw [BitVec.getLsbD_and, Fields.word_bit _ hk]
  interval_cases k <;> simp [Instr.fields]

theorem Laws.InRow.dxt1Blk : Laws.InRow.Statement (.dxt1Blk) := by
  refine Laws.InRow.intro rfl fun k hk => ?_
  rw [BitVec.getLsbD_and, Fields.word_bit _ hk]
  interval_cases k <;> simp [Instr.fields]

theorem Laws.InRow.dxt3Blk : Laws.InRow.Statement (.dxt3Blk) := by
  refine Laws.InRow.intro rfl fun k hk => ?_
  rw [BitVec.getLsbD_and, Fields.word_bit _ hk]
  interval_cases k <;> simp [Instr.fields]

theorem Laws.InRow.dxt5Blk : Laws.InRow.Statement (.dxt5Blk) := by
  refine Laws.InRow.intro rfl fun k hk => ?_
  rw [BitVec.getLsbD_and, Fields.word_bit _ hk]
  interval_cases k <;> simp [Instr.fields]

end Sys2Proof
end

