-- ==== Sys2Proof/Tests/Slice0.lean ====
section
/-!
SUPPORT. The model's own tests: ill-formed commands refused, a word of every command decoded, single steps against
the examples and vectors of the spec (each test names its source), and for every statement with hypotheses a concrete
state and operands that meet them.
-/

namespace Sys2Proof.Tests

open Sys2Proof.Machine

/-! ## Well-formedness -/

theorem test_bsRd_zero_bits_refused : (Instr.bsRd .msb false false 0).wellFormed = false := by decide
theorem test_bsWr_33_bits_refused : (Instr.bsWr .msb false 33).wellFormed = false := by decide
theorem test_bsFlush_stuff_lsb_refused : (Instr.bsFlush .lsb true false).wellFormed = false := by decide
theorem test_lzwDec_mincs_1_refused : (Instr.lzwDec .lsb 1).wellFormed = false := by decide
theorem test_lzwDec_mincs_9_refused : (Instr.lzwDec .lsb 9).wellFormed = false := by decide
theorem test_rleHbd_size_0_refused : (Instr.rleHbd 0).wellFormed = false := by decide
theorem test_rleHbe_size_5_refused : (Instr.rleHbe 5).wellFormed = false := by decide
theorem test_limits_accepted : [Instr.bsRd .lsb false true 1, .bsWr .msb true 32, .lzwDec .msb 2, .lzwDec .lsb 8,
    .rleHbd 1, .rleHbe 4].all Instr.wellFormed = true := by decide

/-! ## Decoding: words written out from the fields of R91 to R95, most significant field first:
`IMM`, bit 15, `SLOT`, `PAD`, `ZFILL`, `STUFF`, `ORDER`, `OPC` -/

theorem test_decode_nop : decode 0b0000000000000000_0_000_0_0_0_0_00000000 = .ok .nop := by rfl
theorem test_decode_clrerr : decode 0b0000000000000000_0_000_0_0_0_0_00000001 = .ok .clrerr := by rfl
theorem test_decode_sreset : decode 0b0000000000000000_0_000_0_0_0_0_00000010 = .ok .sreset := by rfl
theorem test_decode_bsRd :
    decode 0b0000000000001000_0_000_0_1_1_0_00010000 = .ok (.bsRd .msb true true 8) := by rfl
theorem test_decode_bsRd_lsb :
    decode 0b0000000000100000_0_000_0_0_0_1_00010000 = .ok (.bsRd .lsb false false 32) := by rfl
theorem test_decode_bsWr :
    decode 0b0000000000000011_0_000_0_0_1_0_00010001 = .ok (.bsWr .msb true 3) := by rfl
theorem test_decode_bsFlush :
    decode 0b0000000000000000_0_000_1_0_0_1_00010010 = .ok (.bsFlush .lsb false true) := by rfl
theorem test_decode_hufBuild :
    decode 0b0000000000000000_0_110_0_0_0_0_00100000 = .ok (.hufBuild 6) := by rfl
theorem test_decode_hufDec :
    decode 0b0000000000000000_0_101_0_1_0_0_00100001 = .ok (.hufDec 5 false true) := by rfl
theorem test_decode_hufEnc :
    decode 0b0000000011000011_0_011_0_0_1_0_00100010 = .ok (.hufEnc 3 true 0xC3) := by rfl
theorem test_decode_lzwDec :
    decode 0b0000000000000111_0_000_0_0_0_1_00110000 = .ok (.lzwDec .lsb 7) := by rfl
theorem test_decode_rlePbd : decode 0b0000000000000000_0_000_0_0_0_0_01000000 = .ok .rlePbd := by rfl
theorem test_decode_rlePbe : decode 0b0000000000000000_0_000_0_0_0_0_01000001 = .ok .rlePbe := by rfl
theorem test_decode_rleHbd : decode 0b0000000000000011_0_000_0_0_0_0_01000010 = .ok (.rleHbd 3) := by rfl
theorem test_decode_rleHbe : decode 0b0000000000000100_0_000_0_0_0_0_01000011 = .ok (.rleHbe 4) := by rfl
theorem test_decode_jpgLdq : decode 0b0000000000000000_0_010_0_0_0_0_01010000 = .ok (.jpgLdq 2) := by rfl
theorem test_decode_jpgBlk : decode 0b0000000000000000_0_001_0_0_0_0_01010001 = .ok (.jpgBlk 1) := by rfl
theorem test_decode_jpgYcc : decode 0b0000000000000000_0_000_0_0_0_0_01010010 = .ok .jpgYcc := by rfl
theorem test_decode_jpgDcp : decode 0b0000000000000000_0_011_0_0_0_0_01010011 = .ok (.jpgDcp 3) := by rfl
theorem test_decode_jpgRst : decode 0b0000000000000000_0_000_0_0_0_0_01010100 = .ok .jpgRst := by rfl
theorem test_decode_dxt1Blk : decode 0b0000000000000000_0_000_0_0_0_0_01100000 = .ok .dxt1Blk := by rfl
theorem test_decode_dxt3Blk : decode 0b0000000000000000_0_000_0_0_0_0_01100001 = .ok .dxt3Blk := by rfl
theorem test_decode_dxt5Blk : decode 0b0000000000000000_0_000_0_0_0_0_01100010 = .ok .dxt5Blk := by rfl

/-- R97 (a): `OPC` 0x31 "is where an LZW encoder would go". -/
theorem test_decode_unknown : decode 0x00000031 = .error .unknownOpcode := by rfl
/-- R92: bit 14 of `JPG.DCP` must be 0. -/
theorem test_decode_jpgDcp_bit14 : decode 0x00004053 = .error .reservedBit := by rfl
/-- R94: step (2) comes before step (3). -/
theorem test_decode_order_of_steps : decode 0x80000030 = .error .reservedBit := by rfl
/-- R102. -/
theorem test_decode_stuff_lsb : decode 0x00080310 = .error .illegalField := by rfl
/-- R99: `BS.RD n=8 order=msb stuff=1` is the word `0x00080210`. -/
theorem test_encode_example : encode (.bsRd .msb true false 8) = 0x00080210 := by rfl

/-! ## Single steps -/

/-- Memory with the given bytes from an address on. -/
def place : Nat → List Byte → Memory
  | _, [] => []
  | a, b :: bs => (place (a + 1) bs).write (BitVec.ofNat 32 a) b

/-- A reset machine with the source window on the given bytes at 0x100 and a destination window of `n` bytes at
0x200. -/
def st (bytes : List Byte) (n : Nat) : State :=
  { State.reset with
    mem := place 0x100 bytes
    src := { base := 0x100, len := BitVec.ofNat 32 bytes.length }
    dst := { base := 0x200, len := BitVec.ofNat 32 n } }

/-- The state after a command. -/
def after (i : Instr) (s : State) : State :=
  match exec i s with
  | .next t => t
  | _ => s

/-- The first `n` bytes of the destination window. -/
def dstOf (s : State) (n : Nat) : List Byte := (List.range n).map fun j => s.mem.read (s.dst.addr j)

/-- The number read at `STATUS`. -/
def statusOf (s : State) : Nat := (readReg 0x04 s).toNat

/-- The example of R126, first read. -/
theorem test_bsRd_msb : ((after (.bsRd .msb false false 4) (st [0xA5, 0x0F] 0)).res0,
    (after (.bsRd .msb false false 4) (st [0xA5, 0x0F] 0)).rd) = (0xA, { byte := 0, bit := 4 }) := by decide

/-- V-BS-3: twelve bits over a stuffed byte. -/
theorem test_bsRd_stuffed : ((after (.bsRd .msb true false 12) (st [0xFF, 0x00, 0x80] 0)).res0,
    (after (.bsRd .msb true false 12) (st [0xFF, 0x00, 0x80] 0)).rd) = (0xFF8, { byte := 2, bit := 4 }) := by
  decide

/-- The example of R127. -/
theorem test_bsWr_partial :
    (after (.bsWr .msb false 3) { st [] 8 with arg0 := 0x5 }).wr = { byte := 0, bit := 3, acc := 0xA0 } := by
  decide

/-- The example of R128. -/
theorem test_bsFlush : dstOf (after (.bsFlush .msb false true)
    { st [] 8 with wr := { byte := 0, bit := 3, acc := 0xA0 } }) 1 = [0xBF] := by decide

/-- The table image of the example of R151. -/
def hufImage : List Byte := [0, 2, 1, 0, 0, 0, 0, 0, 0, 0, 0, 0, 0, 0, 0, 0, 0x41, 0x42, 0x43]

/-- A machine whose slot 0 holds the table of the example of R151. -/
def hufState : State := after (.hufBuild 0) (st hufImage 8)

/-- The example of R151. -/
theorem test_hufBuild : (hufState.res0, hufState.res1, readReg 0x60 hufState) = (3, 19, 1) := by decide

/-- The codes of the example of R151: `A = 00`, `B = 01`, `C = 100`. -/
theorem test_hufBuild_codes :
    (hufState.huffSlot 0).map (fun h => [h.codeOf 0, h.codeOf 1, h.codeOf 2, h.codeOf 3]) =
      some [some (2, 0), some (2, 1), some (3, 4), none] := by decide

/-- The table machine with the source window on other bytes. -/
def hufOver (bytes : List Byte) : State := { st bytes 8 with huff := hufState.huff }

/-- The example of R156, first symbol. -/
theorem test_hufDec : ((after (.hufDec 0 false false) (hufOver [0x40])).res0,
    (after (.hufDec 0 false false) (hufOver [0x40])).rd) = (0x42, { byte := 0, bit := 2 }) := by decide

/-- The example of R159. -/
theorem test_hufEnc : ((after (.hufEnc 0 false 0x43) (hufOver [])).wr,
    (after (.hufEnc 0 false 0x43) (hufOver [])).res0, (after (.hufEnc 0 false 0x43) (hufOver [])).res1) =
      ({ byte := 0, bit := 3, acc := 0x80 }, 4, 3) := by decide

/-- V-LZW-2: an embedded clear code and the deferred case. -/
theorem test_lzwDec : dstOf (after (.lzwDec .lsb 2) (st [0x44, 0x4C, 0x72, 0x01] 8)) 7 =
    [0, 1, 0, 1, 2, 2, 2] := by decide

/-- V-LZW-4, the third stream: code 6 right after an embedded clear has no expansion. -/
theorem test_lzwDec_invalid : (statusOf (after (.lzwDec .lsb 2) (st [0x84, 0xE9] 4)),
    (after (.lzwDec .lsb 2) (st [0x84, 0xE9] 4)).res1, (after (.lzwDec .lsb 2) (st [0x84, 0xE9] 4)).rd) =
      (0x55, 5, { byte := 1, bit := 7 }) := by decide

/-- The example of R211. -/
theorem test_rlePbd : dstOf (after .rlePbd (st [0xFE, 0xAA, 0x02, 0x80, 0x00, 0x2A] 6)) 6 =
    [0xAA, 0xAA, 0xAA, 0x80, 0x00, 0x2A] := by decide

/-- The example of R213. -/
theorem test_rlePbe : dstOf (after .rlePbe (st [0xAA, 0xAA, 0xAA, 0x80, 0x00, 0x2A] 6)) 6 =
    [0xFE, 0xAA, 0x02, 0x80, 0x00, 0x2A] := by decide

/-- The example of R216. -/
theorem test_rleHbd : dstOf (after (.rleHbd 3) (st [0x82, 0x10, 0x20, 0x30, 0x00, 0x01, 0x02, 0x03] 12)) 12 =
    [0x10, 0x20, 0x30, 0x10, 0x20, 0x30, 0x10, 0x20, 0x30, 0x01, 0x02, 0x03] := by decide

/-- The example of R218. -/
theorem test_rleHbe :
    dstOf (after (.rleHbe 3)
      (st [0x10, 0x20, 0x30, 0x10, 0x20, 0x30, 0x10, 0x20, 0x30, 0x01, 0x02, 0x03] 8)) 8 =
    [0x82, 0x10, 0x20, 0x30, 0x00, 0x01, 0x02, 0x03] := by decide

/-- 128 bytes: a pair, then zeros. -/
def pairThenZeros (a b : Byte) : List Byte := a :: b :: List.replicate 126 0

/-- A machine whose quantisation slot 0 holds all ones, over a coefficient block. -/
def jpgState (block : List Byte) : State :=
  { st block 64 with quant := State.reset.quant.set 0 (some (List.replicate 64 1)), arg0 := 8, arg1 := 8 }

/-- R240: an entry is little-endian. -/
theorem test_jpgLdq : ((after (.jpgLdq 3) (st (pairThenZeros 0x34 0x12) 0)).quantSlot 3).map (fun q => q.take 2) =
    some [0x1234, 0] := by decide +kernel

/-- The example of R248, by the formula of R247 (a): 64 bytes of 0x81. -/
theorem test_jpgBlk : dstOf (after (.jpgBlk 0) (jpgState (pairThenZeros 8 0))) 64 = List.replicate 64 0x81 := by
  decide +kernel

/-- The example of R251. -/
theorem test_jpgYcc : dstOf (after .jpgYcc
    { st [0x4C, 0x1D, 0x55, 0xFF, 0xFF, 0x6B] 6 with arg0 := 2, arg2 := 2, arg3 := 4 }) 6 =
      [0xFE, 0x00, 0x00, 0x00, 0x00, 0xFE] := by decide

/-- The example of R252, its second command. -/
theorem test_jpgDcp : (after (.jpgDcp 0)
    { State.reset with pred := State.reset.pred.set 0 5, arg0 := 0xFFFFFFFD }).res0 = 2 := by decide

/-- R253. -/
theorem test_jpgRst : (after .jpgRst { State.reset with pred := State.reset.pred.set 3 7 }).predOf 3 = 0 := by
  decide

/-- A machine set for one 4×4 raster and one texture block. -/
def dxtState (block : List Byte) : State := { st block 64 with arg0 := 4, arg1 := 4 }

/-- The example of R273: the first row in the four-colour mode. -/
theorem test_dxt1Blk : dstOf (after .dxt1Blk (dxtState [0x00, 0xF8, 0x1F, 0x00, 0x1B, 0x1B, 0x1B, 0x1B])) 16 =
    [85, 0, 170, 255, 170, 0, 85, 255, 0, 0, 255, 255, 255, 0, 0, 255] := by decide

/-- The example of R273 with the endpoints swapped: the three-colour mode. -/
theorem test_dxt1Blk_alpha :
    dstOf (after .dxt1Blk (dxtState [0x1F, 0x00, 0x00, 0xF8, 0x1B, 0x1B, 0x1B, 0x1B])) 16 =
      [0, 0, 0, 0, 127, 0, 127, 255, 255, 0, 0, 255, 0, 0, 255, 255] := by decide

/-- The example of R276: the first row. -/
theorem test_dxt3Blk : dstOf (after .dxt3Blk (dxtState [0x10, 0x32, 0x54, 0x76, 0x98, 0xBA, 0xDC, 0xFE,
    0x1F, 0x00, 0x00, 0xF8, 0x1B, 0x1B, 0x1B, 0x1B])) 16 =
      [170, 0, 85, 0, 85, 0, 170, 17, 255, 0, 0, 34, 0, 0, 255, 51] := by decide

/-- The example of R279: the alphas of the first two rows. -/
theorem test_dxt5Blk : ((List.range 8).map fun p => (after .dxt5Blk (dxtState [0xFF, 0x00, 0x88, 0xC6, 0xFA, 0x88,
    0xC6, 0xFA, 0x1F, 0x00, 0x00, 0xF8, 0x1B, 0x1B, 0x1B, 0x1B])).mem.read (BitVec.ofNat 32 (0x203 + 4 * p))) =
      [255, 0, 218, 182, 145, 109, 72, 36] := by decide

/-- R314: a status with an earlier error and a sticky flag. -/
def marked : State :=
  { State.reset with
    status := { Status.zero with err := .notReady, first := .notReady, trunc := true, sTrunc := true } }

/-- R300: `FIRST` and the sticky flags keep their values. -/
theorem test_nop : statusOf (after .nop marked) = 0x00020070 := by decide
/-- R301. -/
theorem test_clrerr : statusOf (after .clrerr marked) = 0 := by decide
/-- R302. -/
theorem test_sreset : ((after .sreset marked).cmd, statusOf (after .sreset marked)) = (2, 0) := by decide
/-- R24: the numbers of a `STATUS` word in the place of R24's table. -/
theorem test_status : statusOf marked = 0x00020277 := by decide

/-! ## Witnesses: for each statement with hypotheses, a state and operands that meet them -/

/-- Every command answers a next state. -/
theorem exec_after (i : Instr) (s : State) : exec i s = .next (after i s) := by
  cases i <;> rfl

theorem witness_ResetInput : ({ State.reset with rst := true } : State).rst = true := rfl

theorem witness_StepRunsCommand :
    (State.reset.withCommand 2).rst = false ∧ (State.reset.withCommand 2).pending = [.regWrite 0 4 2] ∧
      decode 2 = .ok .sreset ∧ decodeTableWord 32 0x00080210 = some (.bsRd .msb true false 8) :=
  ⟨rfl, rfl, rfl, rfl⟩

theorem witness_OutsideTransactions :
    State.reset.pending = [] ∧ (State.reset.withCommand 0).pending = .regWrite 0 4 0 :: [] ∧ (st [1, 0, 2] 4).mem.wf := by
  decide

/-- An unaligned offset, a narrow access, and aligned offsets at the ends of the ranges. -/
theorem witness_RegisterAccess :
    State.reset.rst = false ∧ (0x06 : BitVec 8).toNat % 4 ≠ 0 ∧ (2 : Nat) ≠ 4 ∧
      [0x04, 0x64, 0x68, 0xFC].all (fun off : BitVec 8 => decide (off.toNat % 4 = 0 ∧ off ≠ 0)) = true ∧
      0x68 ≤ (0x68 : BitVec 8).toNat := by
  decide

theorem witness_DecodeEncode : (Instr.bsRd .msb true true 32).wellFormed = true := rfl

theorem witness_EncodeDecode : decode 0x00200010 = .ok (.bsRd .msb false false 32) := rfl

/-- The ends of each range of illegal operation codes, a reserved bit, and each field just out of range. -/
theorem witness_IllegalEncodings :
    [0x03, 0x0F, 0x13, 0x1F, 0x23, 0x2F, 0x31, 0x3F, 0x44, 0x4F, 0x55, 0x5F, 0x63, 0xFF, 0x100, 0x00000010,
        0x00210010, 0x00210011, 0x00010310, 0x00010311, 0x312, 0x00010030, 0x00090030, 0x42, 0x00050042, 0x43,
        0x00050043].all (fun w : Word => match decode w with | .error _ => true | .ok _ => false) = true := by
  decide

/-- The two windows of a state, and the rest as after reset. -/
def windowsAt (src dst : Window) : State := { State.reset with src := src, dst := dst }

/-- A wrap by one byte in each window, an overlap by one byte; and no error at the same limits. -/
theorem witness_IllegalCommandEffect :
    ((State.reset.withCommand 3).rst = false ∧ (State.reset.withCommand 3).pending = [.regWrite 0 4 3] ∧
        decode 3 = .error .unknownOpcode) ∧
      (Instr.bsRd .msb false false 0).wellFormed = false ∧
      (Instr.jpgLdq 0).windowError (windowsAt ⟨0xFFFFFFFF, 2⟩ ⟨0, 0⟩) ∧
      ¬ (Instr.jpgLdq 0).windowError (windowsAt ⟨0xFFFFFFFF, 1⟩ ⟨0, 0⟩) ∧
      (Instr.bsWr .msb false 1).windowError (windowsAt ⟨0, 0⟩ ⟨0xFFFFFFFF, 2⟩) ∧
      Instr.rlePbd.windowError (windowsAt ⟨0x10, 5⟩ ⟨0x14, 1⟩) ∧ ¬ Instr.rlePbd.windowError (windowsAt ⟨0x10, 4⟩ ⟨0x14, 1⟩) ∧
      windowsOk .rlePbd (windowsAt ⟨0x10, 4⟩ ⟨0x14, 1⟩) = true := by
  refine ⟨⟨rfl, rfl, rfl⟩, rfl, ?_⟩
  decide

theorem witness_StatusLife :
    Instr.nop ≠ .clrerr ∧ Instr.nop ≠ .sreset ∧ exec .nop marked = .next (after .nop marked) := by
  refine ⟨by decide, by decide, rfl⟩

/-- Each flag set, and each of the four errors. -/
theorem witness_FlagsByCommand :
    (after (.bsRd .msb false false 1) (st [] 0)).status.trunc = true ∧
      (after (.bsRd .msb true false 1) (st [0xFF, 0xD9] 0)).status.eos = true ∧
      (after .rlePbd (st [0x00, 0x41] 0)).status.dstfull = true ∧
      (after (.bsRd .msb false false 0) State.reset).status.err = .illegalCommand ∧
      (after (.hufDec 0 false false) State.reset).status.err = .notReady ∧
      (after (.rleHbe 2) (st [1] 4)).status.err = .invalidFormat ∧
      (after .dxt1Blk State.reset).status.err = .invalidDimensions := by
  decide

theorem witness_CommandFrame :
    Instr.jpgRst ≠ .sreset ∧ exec .jpgRst marked = .next (after .jpgRst marked) := by
  refine ⟨by decide, rfl⟩

/-- The bytes on both sides of the destination window, and a command that uses no window. -/
theorem witness_WritesStayInWindow :
    exec .rlePbd (st [0x01, 0x41, 0x42] 2) = .next (after .rlePbd (st [0x01, 0x41, 0x42] 2)) ∧
      (st [0x01, 0x41, 0x42] 2).dst.holds 0x1FF = false ∧ (st [0x01, 0x41, 0x42] 2).dst.holds 0x202 = false ∧
      Instr.nop.usesDst = false := by
  refine ⟨rfl, by decide, by decide, rfl⟩

/-- Two memories that differ, but not in the source window. -/
theorem witness_ReadsStayInWindow :
    let s := st [0x01, 0x41, 0x42] 2
    let m := s.mem.write 0x300 7
    s.mem.wf ∧ m.wf ∧ m ≠ s.mem ∧ (∀ a, s.src.holds a = true → m.read a = s.mem.read a) ∧
      exec .rlePbd s = .next (after .rlePbd s) := by
  refine ⟨by decide, by decide, by decide, fun a ha => Memory.read_write_other ?_ _ _, rfl⟩
  rintro rfl
  revert ha
  decide

/-- A state with a valid slot and a command to come. -/
def ordered : State := { hufState with pending := [.regWrite 0 4 0x00000001] }

theorem witness_StepKeepsInvariant : ordered.wf ∧ step ordered = .next (after .clrerr { ordered with pending := [] }) := by
  have hh : ∀ t : BitVec 3, (ordered.huffSlot t).all (fun h => decide h.wf) = true := by decide +kernel
  have hq : ∀ q : BitVec 2, ordered.quantSlot q = none := by decide
  refine ⟨⟨by decide, fun t h e => ?_, fun q e h => ?_, by decide, by decide, by decide, by decide⟩, rfl⟩
  · simpa [e] using hh t
  · simp [hq q] at h

/-- A cursor in the window, and one at its end. -/
theorem witness_ReadCursorMonotone :
    Instr.bsRd .msb false false 1 ≠ .sreset ∧
      exec (.bsRd .msb false false 1) (st [1] 0) = .next (after (.bsRd .msb false false 1) (st [1] 0)) ∧
      (st [1] 0).cursorInWindow ∧ ({ st [1] 0 with rd := ⟨1, 0⟩ } : State).cursorInWindow := by
  refine ⟨by decide, rfl, by decide, by decide⟩

/-- The last eight bits of a window, with stuffing on. -/
theorem witness_BsRdValue :
    let s := { st [0xFF, 0x12, 0x34] 0 with rd := ⟨1, 4⟩ }
    (Instr.bsRd .msb true false 12).wellFormed = true ∧ s.src.fits = true ∧ s.rd.pos + 12 ≤ 8 * s.src.len.toNat ∧
      ∀ b, b < s.src.len.toNat → s.rd.pos / 8 ≤ b → 8 * b < s.rd.pos + 12 → s.srcByte b ≠ 0xFF := by
  decide

/-- One bit too few, and a cursor beyond the window. -/
theorem witness_BsRdPastEnd :
    legalBitCount 1 = true ∧ (st [1] 0).src.fits = true ∧
      8 * (st [1] 0).src.len.toNat < ({ st [1] 0 with rd := ⟨0, 1⟩ } : State).rd.pos + (8 : BitVec 6).toNat ∧
      8 * (st [1] 0).src.len.toNat < ({ st [1] 0 with rd := ⟨2, 0⟩ } : State).rd.pos + (1 : BitVec 6).toNat := by
  decide

theorem witness_BsRdStopsAtMarker :
    let s := st [0xFF, 0xD9] 0
    legalBitCount 32 = true ∧ s.src.fits = true ∧ s.rd.byte.toNat + 1 < s.src.len.toNat ∧
      s.srcByte s.rd.byte.toNat = 0xFF ∧ s.srcByte (s.rd.byte.toNat + 1) ≠ 0x00 := by
  decide

/-- A stuffed byte, and an `0xFF` at the end of the window. -/
theorem witness_BsRdStuffedByte :
    (let s := st [0xFF, 0x00] 0
     s.src.fits = true ∧ s.rd.byte.toNat + 1 < s.src.len.toNat ∧ s.srcByte s.rd.byte.toNat = 0xFF ∧
      s.srcByte (s.rd.byte.toNat + 1) = 0x00) ∧
    (let s := st [0xFF] 0
     s.src.fits = true ∧ s.rd.byte.toNat < s.src.len.toNat ∧ s.srcByte s.rd.byte.toNat = 0xFF ∧
      s.rd.byte.toNat + 1 = s.src.len.toNat) := by
  decide

/-- A write cursor with 7 pending ones at byte `b` of an `n`-byte window, and `ARG0` all ones. -/
def ones (b n : Nat) : State :=
  { st [] n with wr := ⟨BitVec.ofNat 32 b, 7, 0xFE⟩, arg0 := 0xFFFFFFFF }

/-- Bits that fill the window to its end, and bits that complete nothing. -/
theorem witness_BsWrAppends :
    (Instr.bsWr .msb false 9).wellFormed = true ∧ (ones 0 2).dst.fits = true ∧ (ones 0 2).mem.wf ∧
      (ones 0 2).roomFor .msb false 9 (bitOf .msb 9 (ones 0 2).arg0.toNat) ∧
      ({ ones 5 0 with wr := ⟨5, 0, 0⟩ } : State).roomFor .msb true 7 (bitOf .msb 7 0) := by
  decide

/-- Without stuffing; with stuffing and a whole byte before; and an `0xFF` with room for one byte only. -/
theorem witness_BsWrFull :
    legalBitCount 9 = true ∧ (ones 0 1).dst.fits = true ∧ (ones 0 1).mem.wf ∧
      8 ≤ (ones 0 1).wr.bit.toNat + (9 : BitVec 6).toNat ∧
      (ones 0 1).dst.len.toNat < (ones 0 1).wr.byte.toNat + ((ones 0 1).wr.bit.toNat + (9 : BitVec 6).toNat) / 8 ∧
      legalStuffing .msb true = true ∧
      ({ ones 0 1 with arg0 := 0xFF } : State).refusedAt .msb true 9 (bitOf .msb 9 0xFF) 1 ∧
      (ones 1 2).refusedAt .msb true 9 (bitOf .msb 9 (ones 1 2).arg0.toNat) 0 := by
  decide

/-- Room for exactly two bytes, and for one. -/
theorem witness_StuffedWrite :
    (ones 1 3).dst.fits = true ∧ (ones 1 3).mem.wf ∧ (ones 1 3).wr.bit = 7 ∧ (ones 1 3).wr.acc ||| 1 = 0xFF ∧
      (ones 1 3).arg0.getLsbD 0 = true ∧ (ones 1 3).wr.byte.toNat + 2 ≤ (ones 1 3).dst.len.toNat ∧
      (ones 1 2).dst.len.toNat < (ones 1 2).wr.byte.toNat + 2 := by
  decide

/-- A byte with room, nothing pending in a full window, a byte of ones with stuffing on; a byte without room, and an
`0xFF` with room for one byte only. -/
theorem witness_BsFlushCompletes :
    (Instr.bsFlush .msb true true).wellFormed = true ∧ (ones 1 3).dst.fits = true ∧ (ones 1 3).mem.wf ∧
      (ones 1 2).roomFor .msb true ((8 - (ones 1 2).wr.bit.toNat) % 8) (fun _ => false) ∧
      (st [] 0).roomFor .msb true ((8 - (st [] 0).wr.bit.toNat) % 8) (fun _ => true) ∧
      (ones 1 3).wr.bit ≠ 0 ∧ (ones 1 3).wr.byte.toNat + 2 ≤ (ones 1 3).dst.len.toNat ∧
      (∀ k, k < 8 → (ones 1 3).appendedBit .msb (fun _ => true) k = true) ∧
      (ones 2 2).refusedAt .msb false ((8 - (ones 2 2).wr.bit.toNat) % 8) (fun _ => false) 0 ∧
      (ones 1 2).refusedAt .msb true ((8 - (ones 1 2).wr.bit.toNat) % 8) (fun _ => true) 0 := by
  decide

theorem witness_WriteReadRoundTrip :
    let s := ones 0 8
    let s₁ := after (.bsWr .msb true 9) s
    let s₂ := after (.bsFlush .msb true true) s₁
    s.mem.wf ∧ exec (.bsWr .msb true 9) s = .next s₁ ∧ s₁.status.err = .ok ∧
      exec (.bsFlush .msb true true) s₁ = .next s₂ ∧ s₂.status.err = .ok := by
  refine ⟨by decide, rfl, by decide, rfl, by decide⟩

theorem witness_HufBuildTable :
    let s := st hufImage 0
    s.src.fits = true ∧ 16 ≤ s.src.len.toNat ∧ totalOf (s.srcBytes 0 16) ≤ 256 ∧ kraft (s.srcBytes 0 16) ∧
      16 + totalOf (s.srcBytes 0 16) ≤ s.src.len.toNat := by
  unfold kraft
  decide

/-- Fifteen bytes; 257 symbols; three codes of one bit; one symbol missing. -/
theorem witness_HufBuildFails :
    (st (List.replicate 15 0) 0).src.len.toNat < 16 ∧
      (let s := st [0, 0, 0, 0, 0, 0, 0, 0, 255, 2, 0, 0, 0, 0, 0, 0] 0
       s.src.fits = true ∧ 16 ≤ s.src.len.toNat ∧ 256 < totalOf (s.srcBytes 0 16)) ∧
      (let s := st (3 :: List.replicate 15 0) 0
       16 ≤ s.src.len.toNat ∧ ¬ kraft (s.srcBytes 0 16)) ∧
      (let s := st (hufImage.take 18) 0
       16 ≤ s.src.len.toNat ∧ totalOf (s.srcBytes 0 16) ≤ 256 ∧ kraft (s.srcBytes 0 16) ∧
        s.src.len.toNat < 16 + totalOf (s.srcBytes 0 16)) := by
  unfold kraft
  decide

/-- The table of the example of R151. -/
def hufTable : HuffTable := (hufState.huffSlot 0).getD { rows := [], total := 0, values := [] }

theorem witness_CanonicalCodes :
    hufTable.wf ∧ 2 < hufTable.total.toNat ∧ hufTable.codeOf 0 = some (2, 0) ∧ hufTable.codeOf 2 = some (3, 4) := by
  decide

/-- The code of the second symbol in the last two bits of the window, with stuffing on. -/
theorem witness_HufDecSymbol :
    let s := { hufOver [0x01] with rd := ⟨0, 6⟩ }
    s.src.fits = true ∧ s.huffSlot 0 = some hufTable ∧ hufTable.wf ∧ hufTable.codeOf 1 = some (2, 1) ∧
      s.rd.pos + 2 ≤ 8 * s.src.len.toNat ∧
      (∀ b, b < s.src.len.toNat → s.rd.pos / 8 ≤ b → 8 * b < s.rd.pos + 2 → s.srcByte b ≠ 0xFF) ∧
      ∀ j, j < 2 → s.srcBit .msb (s.rd.pos + j) = bitOf .msb 2 1 j := by
  decide

/-- Sixteen ones, and eight ones at the end of the window. -/
theorem witness_HufDecFails : ∀ s ∈ [hufOver [0xFF, 0xFF], hufOver [0xFF]],
    s.src.fits = true ∧ s.huffSlot 0 = some hufTable ∧ hufTable.wf ∧
      ∀ k len code, k < 256 → hufTable.codeOf k = some (len, code) → s.rd.pos + len ≤ 8 * s.src.len.toNat →
        ∃ j, j < len ∧ s.srcBit .msb (s.rd.pos + j) ≠ bitOf .msb len code j := by
  have key : ∀ s ∈ [hufOver [0xFF, 0xFF], hufOver [0xFF]], ∀ k, k < 256 → ∀ p ∈ hufTable.codeOf k,
      ∃ j, j < p.1 ∧ s.srcBit .msb (s.rd.pos + j) ≠ bitOf .msb p.1 p.2 j := by
    decide +kernel
  intro s hs
  refine ⟨?_, ?_, by decide, fun k len code hk hc _ => key s hs k hk (len, code) hc⟩ <;>
    (revert s; decide)

theorem witness_HufDecFails_bits :
    (hufOver [0xFF, 0xFF]).rd.pos + 16 ≤ 8 * (hufOver [0xFF, 0xFF]).src.len.toNat ∧
      8 * (hufOver [0xFF]).src.len.toNat < (hufOver [0xFF]).rd.pos + 16 := by
  decide

theorem witness_HufEncAppends :
    let s := hufOver []
    s.dst.fits = true ∧ s.mem.wf ∧ s.huffSlot 0 = some hufTable ∧ hufTable.wf ∧ hufTable.values[2]? = some 0x43 ∧
      (∀ j, j < 2 → hufTable.values[j]? ≠ some 0x43) ∧ hufTable.codeOf 2 = some (3, 4) ∧
      s.roomFor .msb true 3 (bitOf .msb 3 4) := by
  decide

/-- A full window, and a byte of ones in the last byte of the window. -/
theorem witness_HufEncAppends_full :
    ∀ s ∈ [{ hufOver [] with wr := ⟨8, 5, 0⟩ }, { hufOver [] with wr := ⟨7, 7, 0xFE⟩ }],
      s.dst.fits = true ∧ s.mem.wf ∧ s.huffSlot 0 = some hufTable ∧
        s.refusedAt .msb true 3 (bitOf .msb 3 4) 0 := by
  decide

theorem witness_HufEncAbsent :
    (hufOver []).dst.fits = true ∧ (hufOver []).huffSlot 0 = some hufTable ∧ (0x44 : BitVec 8) ∉ hufTable.values := by
  decide

theorem witness_InvalidSlotNotReady :
    windowsOk (.hufDec 3 true false) State.reset = true ∧ windowsOk (.hufEnc 3 true 0) State.reset = true ∧
      State.reset.huffSlot 3 = none ∧ windowsOk (.jpgBlk 2) State.reset = true ∧ State.reset.quantSlot 2 = none := by
  decide

theorem witness_HuffmanRoundTrip :
    let s := hufOver []
    let s₁ := after (.hufEnc 0 true 0x43) s
    let s₂ := after (.bsFlush .msb true true) s₁
    s.mem.wf ∧ s.huffSlot 0 = some hufTable ∧ hufTable.wf ∧ exec (.hufEnc 0 true 0x43) s = .next s₁ ∧
      s₁.status.err = .ok ∧ exec (.bsFlush .msb true true) s₁ = .next s₂ ∧ s₂.status.err = .ok := by
  refine ⟨by decide, by decide, by decide, rfl, by decide, rfl, by decide⟩

/-- The smallest and the largest minimal code size. -/
theorem witness_LzwRefinesStrings :
    legalMinCodeSize 2 = true ∧ legalMinCodeSize 8 = true ∧ windowsOk (.lzwDec .lsb 2) (st [0x44] 8) = true ∧
      windowsOk (.lzwDec .msb 8) (st [0x44] 8) = true ∧ (st [0x44] 8).mem.wf := by
  decide

/-- V-LZW-2 begins with a clear code. -/
theorem witness_LzwLeadingClear :
    let s := st [0x44, 0x4C, 0x72, 0x01] 8
    legalMinCodeSize 2 = true ∧ s.rd.pos + ((2 : BitVec 4).toNat + 1) ≤ 8 * s.src.len.toNat ∧
      numberOf .lsb ((2 : BitVec 4).toNat + 1) (fun j => s.srcBit .lsb (s.rd.pos + j)) = 2 ^ (2 : BitVec 4).toNat ∧
      windowsOk (.lzwDec .lsb 2) s = true ∧
      exec (.lzwDec .lsb 2) { s with rd := ReadCursor.ofPos (s.rd.pos + 3) } =
        .next (after (.lzwDec .lsb 2) { s with rd := ReadCursor.ofPos (s.rd.pos + 3) }) := by
  refine ⟨by decide, by decide, by decide, by decide, rfl⟩

/-- A whole stream, a cut literal and a cut repeat. -/
theorem witness_RlePbdDecodes :
    (∀ p ∈ [PbPacket.rep 3 0xAA, .noop, .literal [1, 2]], p.legal) ∧ (PbCut.literal 2 [7]).legal ∧
      (PbCut.rep 128).legal ∧
      [st [0xFE, 0xAA, 0x80, 0x01, 1, 2] 4, st [0xFE, 0xAA, 0x80, 0x01, 1, 2, 0x01, 7] 4,
        st [0xFE, 0xAA, 0x80, 0x01, 1, 2, 0x81] 4].all (fun s => windowsOk .rlePbd s && decide s.mem.wf) = true ∧
      (st [0xFE, 0xAA, 0x80, 0x01, 1, 2] 4).srcAll =
        [PbPacket.rep 3 0xAA, .noop, .literal [1, 2]].flatMap PbPacket.stream ∧
      (st [0xFE, 0xAA, 0x80, 0x01, 1, 2, 0x01, 7] 4).srcAll =
        [PbPacket.rep 3 0xAA, .noop, .literal [1, 2]].flatMap PbPacket.stream ++ (PbCut.literal 2 [7]).stream ∧
      (st [0xFE, 0xAA, 0x80, 0x01, 1, 2, 0x81] 4).srcAll =
        [PbPacket.rep 3 0xAA, .noop, .literal [1, 2]].flatMap PbPacket.stream ++ (PbCut.rep 128).stream := by
  refine ⟨?_, ?_, ?_, by decide, by decide, by decide, by decide⟩ <;> simp [PbPacket.legal, PbCut.legal]

/-- A whole stream, a cut literal and a cut repeat, of elements of two bytes. -/
theorem witness_RleHbdDecodes :
    legalElementSize 2 = true ∧ (∀ p ∈ [HbPacket.rep 1 [1, 2], .literal [[3, 4]]], p.legal 2) ∧
      (HbCut.literal 1 [7]).legal 2 ∧ (HbCut.rep 128 [9]).legal 2 ∧
      [st [0x80, 1, 2, 0x00, 3, 4] 4, st [0x80, 1, 2, 0x00, 3, 4, 0x00, 7] 4,
        st [0x80, 1, 2, 0x00, 3, 4, 0xFF, 9] 4].all (fun s => windowsOk (.rleHbd 2) s && decide s.mem.wf) = true ∧
      (st [0x80, 1, 2, 0x00, 3, 4] 4).srcAll = [HbPacket.rep 1 [1, 2], .literal [[3, 4]]].flatMap HbPacket.stream ∧
      (st [0x80, 1, 2, 0x00, 3, 4, 0x00, 7] 4).srcAll =
        [HbPacket.rep 1 [1, 2], .literal [[3, 4]]].flatMap HbPacket.stream ++ (HbCut.literal 1 [7]).stream ∧
      (st [0x80, 1, 2, 0x00, 3, 4, 0xFF, 9] 4).srcAll =
        [HbPacket.rep 1 [1, 2], .literal [[3, 4]]].flatMap HbPacket.stream ++ (HbCut.rep 128 [9]).stream := by
  refine ⟨by decide, ?_, ?_, ?_, by decide, by decide, by decide, by decide⟩ <;> simp [HbPacket.legal, HbCut.legal]

theorem witness_RlePbeEncodes :
    windowsOk .rlePbe (st [1, 1, 2] 3) = true ∧ (st [1, 1, 2] 3).mem.wf := by
  decide

/-- A source that is not, and one that is, a whole number of elements. -/
theorem witness_RleHbeEncodes :
    legalElementSize 2 = true ∧ windowsOk (.rleHbe 2) (st [1, 1, 2] 3) = true ∧
      (st [1, 1, 2] 3).src.len.toNat % (2 : BitVec 3).toNat ≠ 0 ∧ windowsOk (.rleHbe 2) (st [1, 1] 3) = true ∧
      (st [1, 1] 3).src.len.toNat % (2 : BitVec 3).toNat = 0 ∧ (st [1, 1] 3).mem.wf := by
  decide

theorem witness_PackBitsRoundTrip :
    let s := st [1, 1, 2] 3
    let t := after .rlePbe s
    let d : Window := ⟨0x202, 2⟩
    s.mem.wf ∧ windowsOk .rlePbe s = true ∧ exec .rlePbe s = .next t ∧ d.fits = true ∧
      Window.overlaps { base := t.dst.base, len := t.res0 } d = false ∧ t.res1.toNat ≤ d.len.toNat := by
  refine ⟨by decide, by decide, rfl, by decide, by decide, by decide⟩

/-- An encoding that fits whole. -/
theorem witness_PackBitsRoundTrip_whole : (after .rlePbe (st [1, 1, 2] 4)).status.dstfull = false := by
  decide

theorem witness_HighBitRoundTrip :
    let s := st [1, 2, 1, 2] 3
    let t := after (.rleHbe 2) s
    let d : Window := ⟨0x203, 4⟩
    s.mem.wf ∧ legalElementSize 2 = true ∧ windowsOk (.rleHbe 2) s = true ∧
      s.src.len.toNat % (2 : BitVec 3).toNat = 0 ∧ exec (.rleHbe 2) s = .next t ∧ d.fits = true ∧
      Window.overlaps { base := t.dst.base, len := t.res0 } d = false ∧ t.res1.toNat ≤ d.len.toNat ∧
      t.status.dstfull = false := by
  refine ⟨by decide, by decide, by decide, by decide, rfl, by decide, by decide, by decide, by decide⟩

/-- Exactly 128 bytes, and 127. -/
theorem witness_JpgLdqLoads :
    (windowsAt ⟨0xFFFFFF80, 128⟩ ⟨0, 0⟩).src.fits = true ∧ 128 ≤ (windowsAt ⟨0xFFFFFF80, 128⟩ ⟨0, 0⟩).src.len.toNat ∧
      (windowsAt ⟨0, 127⟩ ⟨0, 0⟩).src.fits = true ∧ (windowsAt ⟨0, 127⟩ ⟨0, 0⟩).src.len.toNat < 128 := by
  decide

theorem witness_JpgBlkPlaces :
    let s := jpgState (pairThenZeros 8 0)
    windowsOk (.jpgBlk 0) s = true ∧ s.mem.wf ∧ s.quantSlot 0 = some (List.replicate 64 1) ∧ s.rasterOk 1 ∧
      128 ≤ s.src.len.toNat := by
  decide +kernel

theorem witness_TransformFitsInt64 :
    cpb1.legal = true ∧ ∀ v ∈ [(2147483647 : Int), -2147483647], v.natAbs < 2 ^ 31 := by
  decide +kernel

/-- Planes and output that just fit. -/
theorem witness_JpgYccConverts :
    let s := { st [0x4C, 0x1D, 0x55, 0xFF, 0xFF, 0x6B] 6 with arg0 := 2, arg2 := 2, arg3 := 4 }
    windowsOk .jpgYcc s = true ∧ s.mem.wf ∧ 3 * s.arg0.toNat ≤ s.dst.len.toNat ∧
      s.arg1.toNat + s.arg0.toNat ≤ s.src.len.toNat ∧ s.arg2.toNat + s.arg0.toNat ≤ s.src.len.toNat ∧
      s.arg3.toNat + s.arg0.toNat ≤ s.src.len.toNat := by
  decide

/-- A raster of `w` × `h` in an `n`-byte window. -/
def raster (w h : Word) (n : Nat) : State := { jpgState [] with arg0 := w, arg1 := h, dst := ⟨0x200, BitVec.ofNat 32 n⟩ }

/-- Each cause: a zero, a dimension one too large, a window one byte too small. -/
theorem witness_InvalidDimensionsEffect :
    [raster 0 1 9, raster 1 0 9, raster 16385 1 70000, raster 1 16385 70000, raster 2 3 5].all
        (fun s => windowsOk (.jpgBlk 0) s && decide (s.quantSlot 0 ≠ none) && windowsOk .dxt1Blk s) = true ∧
      (raster 16385 1 70000).cfg.maxDim < (raster 16385 1 70000).arg0.toNat ∧
      (raster 2 3 5).dst.len.toNat < (raster 2 3 5).arg0.toNat * (raster 2 3 5).arg1.toNat * 1 ∧
      (raster 2 3 23).dst.len.toNat < (raster 2 3 23).arg0.toNat * (raster 2 3 23).arg1.toNat * 4 ∧
      windowsOk .jpgYcc (raster 2 0 5) = true ∧ (raster 2 0 5).dst.len.toNat < 3 * (raster 2 0 5).arg0.toNat ∧
      (after .dxt1Blk (raster 0 1 9)).status.err = .invalidDimensions := by
  decide

/-- One byte too few for each block and for each plane. -/
theorem witness_ShortOperands :
    (let s := jpgState (List.replicate 127 1)
     windowsOk (.jpgBlk 0) s = true ∧ s.quantSlot 0 ≠ none ∧ s.rasterOk 1 ∧ s.src.len.toNat < 128) ∧
      (let s := dxtState (List.replicate 7 1)
       windowsOk .dxt1Blk s = true ∧ s.rasterOk 4 ∧ s.src.len.toNat < 8) ∧
      (let s := dxtState (List.replicate 15 1)
       windowsOk .dxt3Blk s = true ∧ windowsOk .dxt5Blk s = true ∧ s.rasterOk 4 ∧ s.src.len.toNat < 16) ∧
      (let s := { st [1, 2] 6 with arg0 := 2, arg1 := 1 }
       windowsOk .jpgYcc s = true ∧ 3 * s.arg0.toNat ≤ s.dst.len.toNat ∧
        s.src.len.toNat < s.arg1.toNat + s.arg0.toNat) ∧
      (let s := { st [1, 2] 6 with arg0 := 2, arg2 := 1 }
       s.src.len.toNat < s.arg2.toNat + s.arg0.toNat) ∧
      (let s := { st [1, 2] 6 with arg0 := 2, arg3 := 1 }
       s.src.len.toNat < s.arg3.toNat + s.arg0.toNat) := by
  decide +kernel

theorem witness_DxtPlaces :
    (let s := dxtState (List.replicate 16 1)
     s.mem.wf ∧ s.rasterOk 4 ∧ windowsOk .dxt1Blk s = true ∧ windowsOk .dxt3Blk s = true ∧
      windowsOk .dxt5Blk s = true ∧ 16 ≤ s.src.len.toNat) ∧
      (let s := dxtState (List.replicate 8 1)
       windowsOk .dxt1Blk s = true ∧ 8 ≤ s.src.len.toNat) := by
  decide

/-- A pixel of index 3 in each mode. -/
theorem witness_Dxt1AlphaMode :
    (let s := dxtState [0x00, 0xF8, 0x1F, 0x00, 0x1B, 0x1B, 0x1B, 0x1B]
     windowsOk .dxt1Blk s = true ∧ s.mem.wf ∧ s.rasterOk 4 ∧ 8 ≤ s.src.len.toNat ∧ s.indexAt 0 0 3 = 3 ∧
      s.arg2.toNat * 4 + 0 < s.arg0.toNat ∧ s.arg3.toNat * 4 + 3 < s.arg1.toNat ∧
      exec .dxt1Blk s = .next (after .dxt1Blk s) ∧ (s.srcWord16 2).toNat < (s.srcWord16 0).toNat) ∧
      (let s := dxtState [0x1F, 0x00, 0x1F, 0x00, 0x1B, 0x1B, 0x1B, 0x1B]
       windowsOk .dxt1Blk s = true ∧ s.mem.wf ∧ s.rasterOk 4 ∧ s.indexAt 0 0 3 = 3 ∧
        exec .dxt1Blk s = .next (after .dxt1Blk s) ∧ (s.srcWord16 0).toNat ≤ (s.srcWord16 2).toNat) := by
  refine ⟨⟨by decide, by decide, by decide, by decide, by decide, by decide, by decide, rfl, by decide⟩,
    ⟨by decide, by decide, by decide, by decide, rfl, by decide⟩⟩

end Sys2Proof.Tests
end

