-- ==== Sys2Proof/Proofs/CommandFrame.lean ====
section
/-!
SUPPORT. What a command keeps: the frame of R27, R32, R34 to R37 and R96 as one relation between two states, shown
once for each operation of the pseudocode, composed along the pseudocode of each command, and carried over the life
of a command (R314).
-/

namespace Sys2Proof

open Machine

/-! ## The pseudocode of a command -/

/-- The pseudocode that the life of a command runs (R314). `CLRERR` and `SRESET` have effects of their own in place of
that life (R301, R302), so theirs is that of `NOP`. -/
def Instr.body : Instr → State → State × ResultCode
  | .nop, s => (s, .ok)
  | .clrerr, s => (s, .ok)
  | .sreset, s => (s, .ok)
  | .bsRd order stuff zfill n, s => bsRdBody order stuff zfill n.toNat s
  | .bsWr order stuff n, s => writeBits order stuff (bitsOf order n.toNat s.arg0.toNat) s
  | .bsFlush order stuff pad, s => writeBits order stuff (padBits pad s.wr.bit) s
  | .hufBuild slot, s => hufBuildBody slot s
  | .hufDec slot stuff zfill, s => hufDecBody slot stuff zfill s
  | .hufEnc slot stuff sym, s => hufEncBody slot stuff sym s
  | .lzwDec order mincs, s => lzwDecBody order mincs.toNat s
  | .rlePbd, s => finishDecode (pbDecode s.srcAll.length s.srcAll) s
  | .rlePbe, s => finishEncode 1 (pbPackets s.srcAll) s
  | .rleHbd size, s => finishDecode (hbDecode size.toNat s.srcAll.length s.srcAll) s
  | .rleHbe size, s => rleHbeBody size.toNat s
  | .jpgLdq slot, s => jpgLdqBody slot s
  | .jpgBlk slot, s => jpgBlkBody slot s
  | .jpgYcc, s => jpgYccBody s
  | .jpgDcp comp, s => jpgDcpBody comp s
  | .jpgRst, s => ({ s with pred := Vector.replicate 4 0 }, .ok)
  | .dxt1Blk, s => dxtBody 8 dxt1Pixel s
  | .dxt3Blk, s => dxtBody 16 dxt3Pixel s
  | .dxt5Blk, s => dxtBody 16 dxt5Pixel s

namespace Machine

/-- `CLRERR` is R301's effect. -/
theorem exec_clrerr (s : State) :
    exec .clrerr s = .next { s.begun (encode .clrerr) with status := Status.zero } := rfl

/-- `SRESET` is R302's effect. -/
theorem exec_sreset (s : State) : exec .sreset s = .next { s.blockReset with cmd := encode .sreset } := rfl

/-- Every other command is the life of a command around its pseudocode (R314). -/
theorem exec_eq_launch {i : Instr} (hc : i ≠ .clrerr) (hs : i ≠ .sreset) (s : State) :
    exec i s = .next (launch i i.body s) := by
  cases i with
  | clrerr => exact absurd rfl hc
  | sreset => exact absurd rfl hs
  | _ => rfl

/-- All that a command can do: the effects of `CLRERR` and `SRESET`, the illegal command, or its pseudocode between
the two ends of a command's life. -/
theorem exec_cases {i : Instr} {s t : State} (h : exec i s = .next t) :
    (i = .clrerr ∧ t = { s.begun (encode .clrerr) with status := Status.zero }) ∨
    (i = .sreset ∧ t = { s.blockReset with cmd := encode .sreset }) ∨
    (i ≠ .clrerr ∧ i ≠ .sreset ∧ (i.wellFormed && windowsOk i s) = false ∧ t = illegalWord (encode i) s) ∨
    (i ≠ .clrerr ∧ i ≠ .sreset ∧ i.wellFormed = true ∧ windowsOk i s = true ∧
      t = (i.body (s.begun (encode i))).1.complete (i.body (s.begun (encode i))).2) := by
  by_cases hc : i = .clrerr
  · subst hc
    exact .inl ⟨rfl, (Host.Outcome.next.inj h).symm⟩
  by_cases hs : i = .sreset
  · subst hs
    exact .inr (.inl ⟨rfl, (Host.Outcome.next.inj h).symm⟩)
  rw [exec_eq_launch hc hs] at h
  obtain rfl := Host.Outcome.next.inj h
  cases hok : i.wellFormed && windowsOk i s with
  | false => exact .inr (.inr (.inl ⟨hc, hs, rfl, launch_of_not_ok hok⟩))
  | true =>
    obtain ⟨hi, hw⟩ := (Bool.and_eq_true _ _).mp hok
    exact .inr (.inr (.inr ⟨hc, hs, hi, hw, launch_of_ok hi hw⟩))

/-! ## Slots and predictors after a write -/

theorem huffSlot_setHuff (s : State) (t u : BitVec 3) (h : Option HuffTable) :
    (s.setHuff t h).huffSlot u = if u = t then h else s.huffSlot u := by
  simp only [State.huffSlot, State.setHuff, Vector.getElem_set, BitVec.toNat_inj, eq_comm (a := t)]

theorem quantSlot_setQuant (s : State) (q u : BitVec 2) (e : Option (List (BitVec 16))) :
    (s.setQuant q e).quantSlot u = if u = q then e else s.quantSlot u := by
  simp only [State.quantSlot, State.setQuant, Vector.getElem_set, BitVec.toNat_inj, eq_comm (a := q)]

theorem predOf_setPred (s : State) (c u : BitVec 2) (v : Word) :
    (s.setPred c v).predOf u = if u = c then v else s.predOf u := by
  simp only [State.predOf, State.setPred, Vector.getElem_set, BitVec.toNat_inj, eq_comm (a := c)]

end Machine

/-! ## The frame -/

/-- From `s` to `t` nothing has changed that command `i` must keep (R27, R32, R34 to R37, R69, R96); `CMD` and
`STATUS` are left open. The default proofs fit an update that leaves the field as it is. -/
structure Instr.Frame (i : Instr) (s t : State) : Prop where
  src : t.src = s.src := by rfl
  dst : t.dst = s.dst := by rfl
  arg0 : t.arg0 = s.arg0 := by rfl
  arg1 : t.arg1 = s.arg1 := by rfl
  arg2 : t.arg2 = s.arg2 := by rfl
  arg3 : t.arg3 = s.arg3 := by rfl
  cfg : t.cfg = s.cfg := by rfl
  rst : t.rst = s.rst := by rfl
  pending : t.pending = s.pending := by rfl
  hostData : t.hostData = s.hostData := by rfl
  rd : ¬ i.movesReadCursor → t.rd = s.rd := by intros; rfl
  wr : ¬ i.movesWriteCursor → t.wr = s.wr := by intros; rfl
  res0 : ¬ i.writesRes0 → t.res0 = s.res0 := by intros; rfl
  res1 : ¬ i.writesRes1 → t.res1 = s.res1 := by intros; rfl
  lzwNext : (∀ order m, i ≠ .lzwDec order m) → t.lzwNext = s.lzwNext := by intros; rfl
  lzwCsize : (∀ order m, i ≠ .lzwDec order m) → t.lzwCsize = s.lzwCsize := by intros; rfl
  lzw : (∀ order m, i ≠ .lzwDec order m) → t.lzw = s.lzw := by intros; rfl
  pred : ∀ c, i ≠ .jpgDcp c → i ≠ .jpgRst → t.predOf c = s.predOf c := by intros; rfl
  huff : ∀ slot, i ≠ .hufBuild slot → t.huffSlot slot = s.huffSlot slot := by intros; rfl
  quant : ∀ q, i ≠ .jpgLdq q → t.quantSlot q = s.quantSlot q := by intros; rfl
  mem : i.usesDst = false → t.mem = s.mem := by intros; rfl

/-- The frame of the pseudocode: what the command must keep, the fields of `STATUS` that outlive a command (step 4 of
R314 alone writes them), and the canonical form of memory. -/
structure Instr.BodyFrame (i : Instr) (s t : State) : Prop extends i.Frame s t where
  first : t.status.first = s.status.first := by rfl
  sDstfull : t.status.sDstfull = s.status.sDstfull := by rfl
  sTrunc : t.status.sTrunc = s.status.sTrunc := by rfl
  sEos : t.status.sEos = s.status.sEos := by rfl
  memWf : s.mem.wf → t.mem.wf := by exact id

section

variable {i : Instr} {s t u : State}

theorem Instr.Frame.trans (h : i.Frame s t) (k : i.Frame t u) : i.Frame s u where
  src := k.src.trans h.src
  dst := k.dst.trans h.dst
  arg0 := k.arg0.trans h.arg0
  arg1 := k.arg1.trans h.arg1
  arg2 := k.arg2.trans h.arg2
  arg3 := k.arg3.trans h.arg3
  cfg := k.cfg.trans h.cfg
  rst := k.rst.trans h.rst
  pending := k.pending.trans h.pending
  hostData := k.hostData.trans h.hostData
  rd hi := (k.rd hi).trans (h.rd hi)
  wr hi := (k.wr hi).trans (h.wr hi)
  res0 hi := (k.res0 hi).trans (h.res0 hi)
  res1 hi := (k.res1 hi).trans (h.res1 hi)
  lzwNext hi := (k.lzwNext hi).trans (h.lzwNext hi)
  lzwCsize hi := (k.lzwCsize hi).trans (h.lzwCsize hi)
  lzw hi := (k.lzw hi).trans (h.lzw hi)
  pred c hc hr := (k.pred c hc hr).trans (h.pred c hc hr)
  huff slot hi := (k.huff slot hi).trans (h.huff slot hi)
  quant q hi := (k.quant q hi).trans (h.quant q hi)
  mem hi := (k.mem hi).trans (h.mem hi)

namespace Instr.BodyFrame

theorem refl (i : Instr) (s : State) : i.BodyFrame s s := {}

theorem trans (h : i.BodyFrame s t) (k : i.BodyFrame t u) : i.BodyFrame s u where
  toFrame := h.toFrame.trans k.toFrame
  first := k.first.trans h.first
  sDstfull := k.sDstfull.trans h.sDstfull
  sTrunc := k.sTrunc.trans h.sTrunc
  sEos := k.sEos.trans h.sEos
  memWf hm := k.memWf (h.memWf hm)

/-! ### The operations of the pseudocode -/

theorem begun (w : Word) : i.BodyFrame s (s.begun w) := {}

theorem setDstfull : i.BodyFrame s s.setDstfull := {}

theorem withRes (h0 : i.writesRes0) (h1 : i.writesRes1) (a b : Nat) : i.BodyFrame s (s.withRes a b) :=
  { res0 := fun hn => absurd h0 hn, res1 := fun hn => absurd h1 hn }

theorem dstByte (hd : i.usesDst = true) (o : Nat) (v : Byte) : i.BodyFrame s (s.dstByte o v) :=
  { mem := fun hn => absurd (hd.symm.trans hn) Bool.noConfusion, memWf := fun hm => Memory.write_wf hm _ _ }

theorem dstBytes (hd : i.usesDst = true) (o : Nat) (vs : List Byte) : i.BodyFrame s (s.dstBytes o vs) := by
  induction vs generalizing s o with
  | nil => exact refl i s
  | cons v vs ih => exact (dstByte hd o v).trans (ih (o + 1))

theorem dstPlaced (hd : i.usesDst = true) (ps : List (Nat × Byte)) : i.BodyFrame s (s.dstPlaced ps) := by
  induction ps generalizing s with
  | nil => exact refl i s
  | cons p ps ih => exact (dstByte hd p.1 p.2).trans ih

theorem emit (hd : i.usesDst = true) (b : Byte) (out : Nat) : i.BodyFrame s (Machine.emit b out s).2 := by
  unfold Machine.emit
  split
  · exact dstByte hd out b
  · exact setDstfull

theorem emitAll (hd : i.usesDst = true) (bs : List Byte) (out : Nat) :
    i.BodyFrame s (Machine.emitAll bs out s).2 := by
  induction bs generalizing s out with
  | nil => exact refl i s
  | cons b bs ih => exact (emit hd b out).trans (ih _)

theorem putPackets (hd : i.usesDst = true) (ps : List (List Byte × Nat)) (out k : Nat) :
    i.BodyFrame s (Machine.putPackets ps out k s).2.2 := by
  induction ps generalizing s out k with
  | nil => exact refl i s
  | cons p ps ih =>
    simp only [Machine.putPackets, putPacket]
    by_cases hfull : out + p.1.length > s.dst.len.toNat
    · simp only [if_pos hfull]
      exact setDstfull
    · simp only [if_neg hfull]
      exact (dstBytes hd out p.1).trans (ih _ _)

theorem readBits (hr : i.movesReadCursor) (n : Nat) (order : Order) (stuff zfill : Bool) :
    i.BodyFrame s (Machine.readBits n order stuff zfill s).1 :=
  { rd := fun hn => absurd hr hn }

theorem writeBits (hw : i.movesWriteCursor) (hd : i.usesDst = true) (order : Order) (stuff : Bool) (bs : List Bool) :
    i.BodyFrame s (Machine.writeBits order stuff bs s).1 := by
  have hmem : ¬ i.usesDst = false := by simp [hd]
  rcases writeBits_eq order stuff bs s with ⟨-, h⟩ | ⟨-, h⟩ <;> rw [h]
  · exact { wr := (absurd hw ·), mem := (absurd · hmem), memWf := writeBits_wf order stuff bs }
  · exact { wr := (absurd hw ·), mem := (absurd · hmem), memWf := writeBits_wf order stuff bs }

theorem setHuff {slot : BitVec 3} (hi : i = .hufBuild slot) (h : Option HuffTable) :
    i.BodyFrame s (s.setHuff slot h) :=
  { huff := fun u hu => by rw [huffSlot_setHuff, if_neg fun e : u = slot => hu (e ▸ hi)] }

theorem setQuant {slot : BitVec 2} (hi : i = .jpgLdq slot) (e : Option (List (BitVec 16))) :
    i.BodyFrame s (s.setQuant slot e) :=
  { quant := fun u hu => by rw [quantSlot_setQuant, if_neg fun e' : u = slot => hu (e' ▸ hi)] }

theorem setPred {c : BitVec 2} (hi : i = .jpgDcp c) (v : Word) : i.BodyFrame s (s.setPred c v) :=
  { pred := fun u hu _ => by rw [predOf_setPred, if_neg fun e : u = c => hu (e ▸ hi)] }

/-! ### The pseudocode shared by several commands, and the longer ones -/

theorem dxtBody (hd : i.usesDst = true) (size : Nat) (pixel : List Byte → Nat → Nat → List Byte) :
    i.BodyFrame s (Machine.dxtBody size pixel s).1 := by
  unfold Machine.dxtBody
  split
  · exact refl i s
  split
  · exact refl i s
  · exact dstPlaced hd _

theorem finishDecode (hd : i.usesDst = true) (h0 : i.writesRes0) (h1 : i.writesRes1) (r : RleRun) :
    i.BodyFrame s (Machine.finishDecode r s).1 :=
  (emitAll hd r.out 0).trans (withRes h0 h1 _ _)

theorem finishEncode (hd : i.usesDst = true) (h0 : i.writesRes0) (h1 : i.writesRes1) (k : Nat)
    (ps : List (List Byte × Nat)) : i.BodyFrame s (Machine.finishEncode k ps s).1 :=
  (putPackets hd ps 0 0).trans (withRes h0 h1 _ _)

theorem rleHbeBody (hd : i.usesDst = true) (h0 : i.writesRes0) (h1 : i.writesRes1) (sz : Nat) :
    i.BodyFrame s (Machine.rleHbeBody sz s).1 := by
  unfold Machine.rleHbeBody
  split
  · exact refl i s
  · exact finishEncode hd h0 h1 _ _

theorem bsRdBody (hr : i.movesReadCursor) (h0 : i.writesRes0) (h1 : i.writesRes1) (order : Order)
    (stuff zfill : Bool) (n : Nat) : i.BodyFrame s (Machine.bsRdBody order stuff zfill n s).1 := by
  have hread := readBits (s := s) hr n order stuff zfill
  unfold Machine.bsRdBody
  split
  · next e => rwa [e] at hread
  · next e =>
    rw [e] at hread
    exact hread.trans (withRes h0 h1 _ _)

theorem hufBuildBody {slot : BitVec 3} (hi : i = .hufBuild slot) (h0 : i.writesRes0) (h1 : i.writesRes1) :
    i.BodyFrame s (Machine.hufBuildBody slot s).1 := by
  have hclear := setHuff (s := s) hi none
  unfold Machine.hufBuildBody
  simp only
  split
  · exact hclear
  split
  · exact hclear
  split
  · exact hclear
  split
  · exact hclear
  · exact (hclear.trans (setHuff hi _)).trans (withRes h0 h1 _ _)

theorem hufDecLoop (hr : i.movesReadCursor) (h0 : i.writesRes0) (h1 : i.writesRes1) (h : HuffTable)
    (stuff zfill : Bool) (rows : List HuffRow) (len code : Nat) :
    i.BodyFrame s (Machine.hufDecLoop h stuff zfill rows len code s).1 := by
  induction rows generalizing s len code with
  | nil => exact refl i s
  | cons row rows ih =>
    have hread := readBits (s := s) hr 1 .msb stuff zfill
    unfold Machine.hufDecLoop
    split
    · next e => rwa [e] at hread
    · next e =>
      rw [e] at hread
      simp only
      split
      · exact hread.trans (withRes h0 h1 _ _)
      · exact hread.trans (ih _ _)

theorem hufDecBody (hr : i.movesReadCursor) (h0 : i.writesRes0) (h1 : i.writesRes1) (slot : BitVec 3)
    (stuff zfill : Bool) : i.BodyFrame s (Machine.hufDecBody slot stuff zfill s).1 := by
  unfold Machine.hufDecBody
  split
  · exact refl i s
  · exact hufDecLoop hr h0 h1 _ stuff zfill _ _ _

theorem hufEncBody (hw : i.movesWriteCursor) (hd : i.usesDst = true) (h0 : i.writesRes0) (h1 : i.writesRes1)
    (slot : BitVec 3) (stuff : Bool) (sym : Byte) : i.BodyFrame s (Machine.hufEncBody slot stuff sym s).1 := by
  unfold Machine.hufEncBody
  split
  · exact refl i s
  split
  · exact refl i s
  · next len code _ =>
    have hwrite := writeBits (s := s) hw hd .msb stuff (bitsOf .msb len code)
    split
    · next e =>
      rw [e] at hwrite
      exact hwrite.trans (withRes h0 h1 _ _)
    · next e => rwa [e] at hwrite

/-- The lines "at every exit" of `LZW.DEC` (R181). -/
theorem lzwExit (order : Order) (m : BitVec 4) (a b : Nat) (cur : ReadCursor) (trunc : Bool) (unit : LzwUnit)
    (next csize : Word) :
    (Instr.lzwDec order m).BodyFrame s
      { s.withRes a b with
        rd := cur, status := { s.status with trunc := trunc }, lzw := unit, lzwNext := next, lzwCsize := csize } :=
  have hi : ¬ ∀ o k, Instr.lzwDec order m ≠ .lzwDec o k := fun h => h order m rfl
  { rd := (absurd trivial ·), res0 := (absurd trivial ·), res1 := (absurd trivial ·)
    lzwNext := (absurd · hi), lzwCsize := (absurd · hi), lzw := (absurd · hi) }

theorem lzwDecBody (order : Order) (m : BitVec 4) :
    (Instr.lzwDec order m).BodyFrame s (Machine.lzwDecBody order m.toNat s).1 :=
  (emitAll rfl _ 0).trans (lzwExit order m _ _ _ _ _ _ _)

theorem jpgLdqBody {slot : BitVec 2} (hi : i = .jpgLdq slot) : i.BodyFrame s (Machine.jpgLdqBody slot s).1 := by
  have hclear := setQuant (s := s) hi none
  unfold Machine.jpgLdqBody
  simp only
  split
  · exact hclear
  · exact hclear.trans (setQuant hi _)

theorem jpgBlkBody (hd : i.usesDst = true) (slot : BitVec 2) : i.BodyFrame s (Machine.jpgBlkBody slot s).1 := by
  unfold Machine.jpgBlkBody
  split
  · exact refl i s
  split
  · exact refl i s
  split
  · exact refl i s
  · exact dstPlaced hd _

theorem jpgYccBody (hd : i.usesDst = true) : i.BodyFrame s (Machine.jpgYccBody s).1 := by
  unfold Machine.jpgYccBody
  simp only
  split
  · exact refl i s
  split
  · exact refl i s
  · exact dstPlaced hd _

theorem jpgDcpBody (c : BitVec 2) : (Instr.jpgDcp c).BodyFrame s (Machine.jpgDcpBody c s).1 :=
  (setPred rfl _).trans { res0 := (absurd trivial ·) }

end Instr.BodyFrame

end

namespace Machine

/-- The pseudocode of every command keeps its frame. -/
theorem body_frame (i : Instr) (s : State) : i.BodyFrame s (i.body s).1 := by
  cases i with
  | nop => exact .refl _ s
  | clrerr => exact .refl _ s
  | sreset => exact .refl _ s
  | bsRd order stuff zfill n => exact .bsRdBody (i := .bsRd order stuff zfill n) trivial trivial trivial _ _ _ _
  | bsWr order stuff n => exact .writeBits (i := .bsWr order stuff n) trivial rfl _ _ _
  | bsFlush order stuff pad => exact .writeBits (i := .bsFlush order stuff pad) trivial rfl _ _ _
  | hufBuild slot => exact .hufBuildBody rfl trivial trivial
  | hufDec slot stuff zfill => exact .hufDecBody (i := .hufDec slot stuff zfill) trivial trivial trivial _ _ _
  | hufEnc slot stuff sym => exact .hufEncBody (i := .hufEnc slot stuff sym) trivial rfl trivial trivial _ _ _
  | lzwDec order mincs => exact .lzwDecBody order mincs
  | rlePbd => exact .finishDecode (i := .rlePbd) rfl trivial trivial _
  | rlePbe => exact .finishEncode (i := .rlePbe) rfl trivial trivial _ _
  | rleHbd size => exact .finishDecode (i := .rleHbd size) rfl trivial trivial _
  | rleHbe size => exact .rleHbeBody (i := .rleHbe size) rfl trivial trivial _
  | jpgLdq slot => exact .jpgLdqBody rfl
  | jpgBlk slot => exact .jpgBlkBody rfl _
  | jpgYcc => exact .jpgYccBody rfl
  | jpgDcp comp => exact .jpgDcpBody comp
  | jpgRst => exact { pred := fun _ _ hr => absurd rfl hr }
  | dxt1Blk => exact .dxtBody rfl _ _
  | dxt3Blk => exact .dxtBody rfl _ _
  | dxt5Blk => exact .dxtBody rfl _ _

/-- Steps 1 and 2 of R314 and the pseudocode together keep the command's frame. -/
theorem body_begun_frame (i : Instr) (s : State) (w : Word) : i.BodyFrame s (i.body (s.begun w)).1 :=
  (Instr.BodyFrame.begun w).trans (body_frame i (s.begun w))

/-- Every command but `SRESET` keeps its frame. -/
theorem exec_frame {i : Instr} {s t : State} (hs : i ≠ .sreset) (h : exec i s = .next t) : i.Frame s t := by
  rcases exec_cases h with ⟨-, rfl⟩ | ⟨hi, -⟩ | ⟨-, -, -, rfl⟩ | ⟨-, -, -, -, rfl⟩
  · exact {}
  · exact absurd hi hs
  · exact {}
  · exact (body_begun_frame i s (encode i)).toFrame.trans {}

end Machine

end Sys2Proof
end

