-- ==== Sys2Proof/Proofs/CommandEnd.lean ====
section
/-!
SUPPORT. How a command ends: the codes the pseudocode of each command can answer (R317), and what completion leaves in
`STATUS` (R25, R314).
-/

namespace Sys2Proof.Machine

/-! ## The code of a loop -/

theorem writeBits_code (order : Order) (stuff : Bool) (bs : List Bool) (s : State) :
    (writeBits order stuff bs s).2 ∈ [.ok, .truncatedData] := by
  rcases writeBits_eq order stuff bs s with ⟨h, -⟩ | ⟨h, -⟩ <;> simp [h]

theorem hufDecLoop_code (h : HuffTable) (stuff zfill : Bool) (rows : List HuffRow) (len code : Nat) (s : State) :
    (hufDecLoop h stuff zfill rows len code s).2 ∈ [.ok, .truncatedData, .decompressionFailed] := by
  induction rows generalizing len code s with
  | nil => simp [hufDecLoop]
  | cons row rows ih =>
    unfold hufDecLoop
    split
    · simp
    · simp only
      split
      · simp
      · exact ih _ _ _

theorem pbDecode_code (turns : Nat) (bs : List Byte) :
    (pbDecode turns bs).err ∈ [.ok, .truncatedData] := by
  induction turns generalizing bs with
  | zero => simp [pbDecode]
  | succ turns ih =>
    cases bs with
    | nil => simp [pbDecode]
    | cons h rest =>
      simp only [pbDecode]
      split
      · split
        · simp
        · exact ih _
      split
      · exact ih _
      · split
        · simp
        · exact ih _

theorem hbDecode_code (sz turns : Nat) (bs : List Byte) :
    (hbDecode sz turns bs).err ∈ [.ok, .truncatedData] := by
  induction turns generalizing bs with
  | zero => simp [hbDecode]
  | succ turns ih =>
    cases bs with
    | nil => simp [hbDecode]
    | cons h rest =>
      simp only [hbDecode]
      split
      · split
        · simp
        · exact ih _
      · split
        · simp
        · exact ih _

theorem lzwLoop_code (src : Nat → Option Byte) (order : Order) (m turns : Nat) (cur : ReadCursor) (u : LzwUnit) :
    (lzwLoop src order m turns cur u).err ∈ [.ok, .truncatedData, .decompressionFailed] := by
  induction turns generalizing cur u with
  | zero => simp [lzwLoop]
  | succ turns ih =>
    unfold lzwLoop
    split
    · simp
    · split
      · exact ih _ _
      split
      · simp
      split
      · simp
      · exact ih _ _

/-! ## The code of a command -/

theorem bsRdBody_code (order : Order) (stuff zfill : Bool) (n : Nat) (s : State) :
    (bsRdBody order stuff zfill n s).2 ∈ [.ok, .truncatedData] := by
  unfold bsRdBody
  split <;> simp

theorem hufBuildBody_code (slot : BitVec 3) (s : State) :
    (hufBuildBody slot s).2 ∈ [.ok, .truncatedData, .invalidFormat] := by
  unfold hufBuildBody
  simp only
  split
  · simp
  split
  · simp
  split
  · simp
  split <;> simp

theorem hufDecBody_code (slot : BitVec 3) (stuff zfill : Bool) (s : State) :
    (hufDecBody slot stuff zfill s).2 ∈ [.ok, .truncatedData, .decompressionFailed, .notReady] := by
  unfold hufDecBody
  split
  · simp
  · exact List.mem_append_left [.notReady] (hufDecLoop_code _ stuff zfill _ _ _ s)

theorem hufEncBody_code (slot : BitVec 3) (stuff : Bool) (sym : Byte) (s : State) :
    (hufEncBody slot stuff sym s).2 ∈ [.ok, .truncatedData, .invalidFormat, .notReady] := by
  unfold hufEncBody
  split
  · simp
  split
  · simp
  · next len code _ =>
    have hw := writeBits_code .msb stuff (bitsOf .msb len code) s
    split
    · simp
    · next e =>
      rw [e] at hw
      exact List.mem_append_left [.invalidFormat, .notReady] hw

theorem rleHbeBody_code (sz : Nat) (s : State) :
    (rleHbeBody sz s).2 ∈ [.ok, .invalidFormat] := by
  unfold rleHbeBody
  split <;> simp [finishEncode]

theorem jpgLdqBody_code (slot : BitVec 2) (s : State) :
    (jpgLdqBody slot s).2 ∈ [.ok, .truncatedData] := by
  unfold jpgLdqBody
  simp only
  split <;> simp

theorem jpgBlkBody_code (slot : BitVec 2) (s : State) :
    (jpgBlkBody slot s).2 ∈ [.ok, .truncatedData, .invalidDimensions, .notReady] := by
  unfold jpgBlkBody
  split
  · simp
  split
  · simp
  split <;> simp

theorem jpgYccBody_code (s : State) : (jpgYccBody s).2 ∈ [.ok, .truncatedData, .invalidDimensions] := by
  unfold jpgYccBody
  simp only
  split
  · simp
  split <;> simp

theorem dxtBody_code (size : Nat) (pixel : List Byte → Nat → Nat → List Byte) (s : State) :
    (dxtBody size pixel s).2 ∈ [.ok, .truncatedData, .invalidDimensions] := by
  unfold dxtBody
  split
  · simp
  split <;> simp

/-- The pseudocode of a command ends with a code that R317 lists for it. -/
theorem body_code_mem (i : Instr) (s : State) : (i.body s).2 ∈ i.possibleErrors := by
  cases i with
  | nop => exact List.mem_cons_self
  | clrerr => exact List.mem_cons_self
  | sreset => exact List.mem_cons_self
  | bsRd order stuff zfill n => exact List.mem_append_left [.illegalCommand] (bsRdBody_code order stuff zfill _ s)
  | bsWr order stuff n => exact List.mem_append_left [.illegalCommand] (writeBits_code order stuff _ s)
  | bsFlush order stuff pad => exact List.mem_append_left [.illegalCommand] (writeBits_code order stuff _ s)
  | hufBuild slot => exact List.mem_append_left [.illegalCommand] (hufBuildBody_code slot s)
  | hufDec slot stuff zfill =>
    have hsub : [ResultCode.ok, .truncatedData, .decompressionFailed, .notReady] ⊆
        (Instr.hufDec slot stuff zfill).possibleErrors := by simp [Instr.possibleErrors]
    exact hsub (hufDecBody_code slot stuff zfill s)
  | hufEnc slot stuff sym =>
    have hsub : [ResultCode.ok, .truncatedData, .invalidFormat, .notReady] ⊆
        (Instr.hufEnc slot stuff sym).possibleErrors := by simp [Instr.possibleErrors]
    exact hsub (hufEncBody_code slot stuff sym s)
  | lzwDec order mincs => exact List.mem_append_left [.illegalCommand] (lzwLoop_code _ order _ _ _ _)
  | rlePbd => exact List.mem_append_left [.illegalCommand] (pbDecode_code _ s.srcAll)
  | rlePbe => exact List.mem_cons_self
  | rleHbd size => exact List.mem_append_left [.illegalCommand] (hbDecode_code size.toNat _ s.srcAll)
  | rleHbe size => exact List.mem_append_left [.illegalCommand] (rleHbeBody_code size.toNat s)
  | jpgLdq slot => exact List.mem_append_left [.illegalCommand] (jpgLdqBody_code slot s)
  | jpgBlk slot =>
    have hsub : [ResultCode.ok, .truncatedData, .invalidDimensions, .notReady] ⊆
        (Instr.jpgBlk slot).possibleErrors := by simp [Instr.possibleErrors]
    exact hsub (jpgBlkBody_code slot s)
  | jpgYcc => exact List.mem_append_left [.illegalCommand] (jpgYccBody_code s)
  | jpgDcp comp => exact List.mem_cons_self
  | jpgRst => exact List.mem_cons_self
  | dxt1Blk => exact List.mem_append_left [.illegalCommand] (dxtBody_code _ _ s)
  | dxt3Blk => exact List.mem_append_left [.illegalCommand] (dxtBody_code _ _ s)
  | dxt5Blk => exact List.mem_append_left [.illegalCommand] (dxtBody_code _ _ s)

/-- No command ends with the code that R322 reserves. -/
theorem body_code_ne_unsupportedFormat (i : Instr) (s : State) : (i.body s).2 ≠ .unsupportedFormat := by
  have hmem := body_code_mem i s
  intro h
  rw [h] at hmem
  cases i <;> simp [Instr.possibleErrors] at hmem

/-! ## Completion -/

/-- A command but `CLRERR` and `SRESET` ends in step 4 of R314, from a state that still has the old `FIRST` and the
old sticky flags. -/
theorem exec_completes {i : Instr} {s t : State} (hc : i ≠ .clrerr) (hs : i ≠ .sreset) (h : exec i s = .next t) :
    ∃ (u : State) (e : ResultCode), i.BodyFrame s u ∧ t = u.complete e := by
  rcases exec_cases h with ⟨hi, -⟩ | ⟨hi, -⟩ | ⟨-, -, -, rfl⟩ | ⟨-, -, -, -, rfl⟩
  · exact absurd hi hc
  · exact absurd hi hs
  · exact ⟨s.begun (encode i), .illegalCommand, .begun _, rfl⟩
  · exact ⟨_, _, body_begun_frame i s (encode i), rfl⟩

/-- `FIRST` after step 4 of R314 is the first error other than OK. -/
theorem Status.finished_first (st : Status) (e : ResultCode) :
    (st.finished e).first = if st.first = .ok then e else st.first := by
  by_cases hf : st.first = .ok <;> by_cases he : e = .ok <;> simp [Status.finished, hf, he]

/-- Step 4 of R314 leaves `STATUS` in order. -/
theorem Status.finished_wf {st : Status} {e : ResultCode} (hf : st.first ≠ .unsupportedFormat)
    (he : e ≠ .unsupportedFormat) : (st.finished e).wf := by
  refine ⟨fun h => ?_, fun h => Bool.or_eq_true_iff.mpr (.inr h), fun h => Bool.or_eq_true_iff.mpr (.inr h),
    fun h => Bool.or_eq_true_iff.mpr (.inr h), he, ?_⟩
  · rw [finished_first]
    split
    · exact h
    · assumption
  · rw [finished_first]
    split
    · exact he
    · exact hf

/-! ## The obligations -/

/-- Settles O13: step 4 of R314 is the only writer of `FIRST` and of the sticky flags. -/
theorem statusLife : Obligations.StatusLife := by
  intro i s t hc hs h
  obtain ⟨u, e, hu, rfl⟩ := exec_completes hc hs h
  refine ⟨?_, ?_, ?_, ?_⟩
  · rw [← hu.first]
    exact Status.finished_first u.status e
  · rw [← hu.sDstfull]
    rfl
  · rw [← hu.sTrunc]
    rfl
  · rw [← hu.sEos]
    rfl

/-- Settles O15, field by field from the frame that the pseudocode of each command keeps. -/
theorem commandFrame : Obligations.CommandFrame := by
  intro i s t hs h
  have f := exec_frame hs h
  exact ⟨f.src, f.dst, f.arg0, f.arg1, f.arg2, f.arg3, f.cfg, f.rst, f.pending, f.hostData, f.rd, f.wr, f.res0,
    f.res1, fun hi => ⟨f.lzwNext hi, f.lzwCsize hi, f.lzw hi⟩, f.pred, f.huff, f.quant, f.mem⟩

end Sys2Proof.Machine
end

