-- ==== Sys2Proof/Proofs/ReadCursor.lean ====
section
/-!
SUPPORT. The read cursor only moves forward and only over bits it has read (R29, R30): shown for one bit, then along
the loops of `ReadBits`, `HUF.DEC` and `LZW.DEC`.
-/

namespace Sys2Proof.Machine

/-- From cursor `c` to cursor `d` over a window of `len` bytes: not backwards, not past the end of the window, and not
to a bit of the byte after the window (R29, R30). -/
structure ReadCursor.Forward (len : Nat) (c d : ReadCursor) : Prop where
  pos : c.pos ≤ d.pos
  byte : c.byte.toNat ≤ len → d.byte.toNat ≤ len
  bit : (c.byte.toNat = len → c.bit = 0) → d.byte.toNat = len → d.bit = 0

namespace ReadCursor.Forward

variable {len : Nat} {c d e : ReadCursor}

theorem refl (len : Nat) (c : ReadCursor) : Forward len c c := ⟨Nat.le_refl _, id, id⟩

theorem trans (h : Forward len c d) (k : Forward len d e) : Forward len c e :=
  ⟨h.pos.trans k.pos, k.byte ∘ h.byte, k.bit ∘ h.bit⟩

/-- The cursor goes forward over a bit of a byte of the window, if the bytes that its last bit skips lie there. -/
theorem advance {len : Word} {skip : Word} (hskip : 0 < skip.toNat) (hc : c.byte.toNat < len.toNat)
    (hroom : c.byte.toNat + skip.toNat ≤ len.toNat) : Forward len.toNat c (c.advance skip) := by
  have hlen := len.isLt
  unfold ReadCursor.advance
  by_cases h7 : c.bit = 7
  · have hb : (c.byte + skip).toNat = c.byte.toNat + skip.toNat :=
      (BitVec.toNat_add ..).trans (Nat.mod_eq_of_lt (by omega))
    rw [if_pos h7]
    refine ⟨?_, fun _ => ?_, fun _ _ => rfl⟩
    · simp only [ReadCursor.pos, h7, hb, BitVec.reduceToNat]
      omega
    · exact hb ▸ hroom
  · have h7' : c.bit.toNat ≠ 7 := fun h => h7 (BitVec.eq_of_toNat_eq h)
    rw [if_neg h7]
    refine ⟨?_, id, fun _ he => absurd he (Nat.ne_of_lt hc)⟩
    have hbit := c.bit.isLt
    simp only [ReadCursor.pos, BitVec.toNat_add, BitVec.reduceToNat]
    omega

end ReadCursor.Forward

/-! ## The bit reader -/

/-- A source read returns a byte only inside the window (R63). -/
theorem lt_len_of_srcByte?_eq_some {s : State} {k : Nat} {v : Byte} (h : s.srcByte? k = some v) :
    k < s.src.len.toNat := by
  unfold State.srcByte? at h
  split at h
  · assumption
  · simp at h

theorem rdBit_forward (s : State) (order : Order) (stuff : Bool) (c : ReadCursor) :
    ReadCursor.Forward s.src.len.toNat c (rdBit s.srcByte? order stuff c).2 := by
  rcases rdBit_cases s.srcByte? order stuff c with ⟨v, hv, hstuffed, h⟩ | ⟨-, h⟩ | ⟨-, -, -, h⟩ <;> rw [h]
  · have hc := lt_len_of_srcByte?_eq_some hv
    split
    · next hff =>
      have hnext := lt_len_of_srcByte?_eq_some (hstuffed hff.1 hff.2)
      exact .advance (by decide) hc hnext
    · exact .advance (by decide) hc hc
  · exact .refl _ c
  · exact .refl _ c

theorem readLoop_forward (s : State) (order : Order) (stuff zfill : Bool) (n i : Nat) (a : BitRead) :
    ReadCursor.Forward s.src.len.toNat a.cur (readLoop s.srcByte? order stuff zfill n i a).1.cur := by
  induction n generalizing i a with
  | zero => exact .refl _ a.cur
  | succ n ih =>
    have hbit := rdBit_forward s order stuff a.cur
    unfold readLoop
    split
    · next b c e =>
      rw [e] at hbit
      exact hbit.trans (ih (i + 1) { a with cur := c, val := shiftIn order a.val i b })
    · split
      · exact ih (i + 1) { a with trunc := true, val := shiftIn order a.val i false }
      · exact .refl _ a.cur
    · split
      · exact ih (i + 1) { a with eos := true, val := shiftIn order a.val i false }
      · exact .refl _ a.cur

theorem readBits_forward (n : Nat) (order : Order) (stuff zfill : Bool) (s : State) :
    ReadCursor.Forward s.src.len.toNat s.rd (readBits n order stuff zfill s).1.rd :=
  readLoop_forward s order stuff zfill n 0 { cur := s.rd }

/-! ## The commands that read bits -/

theorem bsRdBody_forward (order : Order) (stuff zfill : Bool) (n : Nat) (s : State) :
    ReadCursor.Forward s.src.len.toNat s.rd (bsRdBody order stuff zfill n s).1.rd := by
  have hread := readBits_forward n order stuff zfill s
  unfold bsRdBody
  split <;> next e => rwa [e] at hread

theorem hufDecLoop_forward (h : HuffTable) (stuff zfill : Bool) (rows : List HuffRow) (len code : Nat) (s : State) :
    ReadCursor.Forward s.src.len.toNat s.rd (hufDecLoop h stuff zfill rows len code s).1.rd := by
  induction rows generalizing len code s with
  | nil => exact .refl _ s.rd
  | cons row rows ih =>
    have hread := readBits_forward 1 .msb stuff zfill s
    have hsrc : (readBits 1 .msb stuff zfill s).1.src = s.src := by rw [readBits_eq]
    unfold hufDecLoop
    split
    · next e => rwa [e] at hread
    · next s' b e =>
      rw [e] at hread hsrc
      simp only
      split
      · exact hread
      · exact hread.trans (hsrc ▸ ih _ _ s')

theorem hufDecBody_forward (slot : BitVec 3) (stuff zfill : Bool) (s : State) :
    ReadCursor.Forward s.src.len.toNat s.rd (hufDecBody slot stuff zfill s).1.rd := by
  unfold hufDecBody
  split
  · exact .refl _ s.rd
  · exact hufDecLoop_forward _ stuff zfill _ _ _ s

theorem lzwLoop_forward (s : State) (order : Order) (m turns : Nat) (cur : ReadCursor) (u : LzwUnit) :
    ReadCursor.Forward s.src.len.toNat cur (lzwLoop s.srcByte? order m turns cur u).cur := by
  induction turns generalizing cur u with
  | zero => exact .refl _ cur
  | succ turns ih =>
    have hread := readLoop_forward s order false false u.codeSize.toNat 0 { cur := cur }
    unfold lzwLoop
    split
    · next e => rwa [e] at hread
    · next e =>
      rw [e] at hread
      split
      · exact hread.trans (ih _ _)
      split
      · exact hread
      split
      · exact hread
      · exact hread.trans (ih _ _)

/-- The pseudocode of every command moves the read cursor forward, if at all. -/
theorem body_forward (i : Instr) (s : State) : ReadCursor.Forward s.src.len.toNat s.rd (i.body s).1.rd := by
  by_cases hi : i.movesReadCursor
  · cases i with
    | bsRd order stuff zfill n => exact bsRdBody_forward order stuff zfill n.toNat s
    | hufDec slot stuff zfill => exact hufDecBody_forward slot stuff zfill s
    | lzwDec order mincs => exact lzwLoop_forward s order mincs.toNat _ s.rd _
    | _ => exact hi.elim
  · rw [(body_frame i s).rd hi]
    exact .refl _ s.rd

theorem exec_forward {i : Instr} {s t : State} (hs : i ≠ .sreset) (h : exec i s = .next t) :
    ReadCursor.Forward s.src.len.toNat s.rd t.rd := by
  rcases exec_cases h with ⟨-, rfl⟩ | ⟨hi, -⟩ | ⟨-, -, -, rfl⟩ | ⟨-, -, -, -, rfl⟩
  · exact .refl _ s.rd
  · exact absurd hi hs
  · exact .refl _ s.rd
  · exact body_forward i (s.begun (encode i))

/-! ## The obligation -/

/-- Settles O23: every command moves the read cursor forward in the sense of `ReadCursor.Forward`, and none but
`SRESET` moves the window under it. -/
theorem readCursorMonotone : Obligations.ReadCursorMonotone := by
  intro i s t hs h
  have hf := exec_forward hs h
  unfold State.cursorInWindow
  rw [(exec_frame hs h).src]
  exact ⟨hf.pos, hf.byte, fun ⟨hbyte, hbit⟩ => ⟨hf.byte hbyte, hf.bit hbit⟩⟩

end Sys2Proof.Machine
end

