-- ==== Sys2Proof/Proofs/Invariant.lean ====
section
/-!
SUPPORT. The machine's invariant: the bounds of the LZW unit along a run of `LZW.DEC` (R183, R184, R189), the slots
that `HUF.BUILD` and `JPG.LDQ` fill (R36, R154), and from these that every transaction keeps `State.wf`.
-/

namespace Sys2Proof.Machine

/-! ## The LZW unit -/

/-- The bounds of the unit while `LZW.DEC` runs with `minCodeSize = m`: those of `LzwUnit.wf`, and that the literals
and the previous code lie below `next_code`, which keep the chain of each entry falling (R183). -/
structure LzwUnit.Bounded (m : Nat) (u : LzwUnit) : Prop where
  wf : u.wf
  clear : clearCode m ≤ u.nextCode.toNat
  prev : ∀ p, u.prev = some p → p.toNat < u.nextCode.toNat

theorem lzwStart_bounded {m : Nat} (hlo : 2 ≤ m) (hhi : m ≤ 8) : (lzwStart m).Bounded m := by
  have h4 : 2 ^ 2 ≤ 2 ^ m := Nat.pow_le_pow_right (by decide) hlo
  have h256 : 2 ^ m ≤ 2 ^ 8 := Nat.pow_le_pow_right (by decide) hhi
  have hnext : (lzwStart m).nextCode.toNat = 2 ^ m + 2 := by
    simp only [lzwStart, endCode, BitVec.toNat_ofNat]
    omega
  have hsize : (lzwStart m).codeSize.toNat = m + 1 := by
    simp only [lzwStart, BitVec.toNat_ofNat]
    omega
  refine ⟨⟨by omega, by omega, .inl ?_, by simp [lzwStart]⟩, ?_, by simp [lzwStart]⟩
  · rw [hnext, hsize, Nat.pow_succ]
    omega
  · rw [hnext, clearCode]
    omega

/-- A full table stays as it is (R184). -/
theorem LzwUnit.append_of_full {u : LzwUnit} (h : ¬ u.nextCode.toNat < 4096) (p : BitVec 12) (b : Byte) :
    u.append p b = u := if_neg h

/-- A table with room takes one entry (R184). -/
theorem LzwUnit.append_nextCode {u : LzwUnit} (h : u.nextCode.toNat < 4096) (p : BitVec 12) (b : Byte) :
    (u.append p b).nextCode.toNat = u.nextCode.toNat + 1 := by
  simp only [LzwUnit.append, if_pos h, BitVec.toNat_add, BitVec.reduceToNat]
  omega

theorem LzwUnit.append_dict {u : LzwUnit} (h : u.nextCode.toNat < 4096) (p : BitVec 12) (b : Byte) :
    (u.append p b).dict = u.dict ++ [(u.nextCode.toNat, { prefixCode := p, suffix := b })] := by
  simp only [LzwUnit.append, if_pos h]

theorem LzwUnit.append_prev (u : LzwUnit) (p : BitVec 12) (b : Byte) : (u.append p b).prev = u.prev := by
  unfold LzwUnit.append
  split <;> rfl

/-- The code width after an entry: one more when `next_code` reaches `2^code_size` below width 12 (R184). -/
theorem LzwUnit.append_codeSize {u : LzwUnit} (h : u.nextCode.toNat < 4096) (p : BitVec 12) (b : Byte) :
    (u.append p b).codeSize.toNat =
      if u.nextCode.toNat + 1 = 2 ^ u.codeSize.toNat ∧ u.codeSize.toNat < 12 then u.codeSize.toNat + 1
      else u.codeSize.toNat := by
  have hnext := append_nextCode h p b
  simp only [LzwUnit.append, if_pos h] at hnext ⊢
  rw [hnext]
  split
  · simp only [BitVec.toNat_add, BitVec.reduceToNat]
    omega
  · rfl

/-- An entry whose first part is a code below `next_code` keeps the bounds. -/
theorem LzwUnit.append_bounded {m : Nat} {u : LzwUnit} (hu : u.Bounded m) {p : BitVec 12}
    (hp : p.toNat < u.nextCode.toNat) (b : Byte) : (u.append p b).Bounded m := by
  by_cases hroom : u.nextCode.toNat < 4096
  · obtain ⟨-, hsize, hwidth, hdict⟩ := hu.wf
    have hnext := append_nextCode hroom p b
    have hcsize := append_codeSize hroom p b
    refine ⟨⟨by omega, ?_, ?_, fun e he => ?_⟩, ?_, fun q hq => ?_⟩
    · rw [hcsize]
      split <;> omega
    · rw [hnext, hcsize]
      by_cases hgrow : u.nextCode.toNat + 1 = 2 ^ u.codeSize.toNat ∧ u.codeSize.toNat < 12
      · rw [if_pos hgrow, Nat.pow_succ]
        omega
      · rw [if_neg hgrow]
        by_cases h12 : u.codeSize.toNat = 12
        · rw [h12] at hwidth ⊢
          omega
        · omega
    · rw [append_dict hroom] at he
      rw [hnext]
      rcases List.mem_append.mp he with he | he
      · have := hdict e he
        omega
      · obtain rfl := List.mem_singleton.mp he
        exact ⟨hp, Nat.lt_succ_self _⟩
    · have := hu.clear
      omega
    · rw [append_prev] at hq
      have := hu.prev q hq
      omega
  · rwa [append_of_full hroom]

/-- A code that has an expansion is below `next_code`, or it is `next_code` and a previous code exists (R181, R183,
R186). -/
theorem LzwUnit.code_of_bytesOf {m : Nat} {u : LzwUnit} (hu : u.Bounded m) {c : Nat} {bytes : List Byte}
    (h : u.bytesOf m c = some bytes) :
    c < u.nextCode.toNat ∨ (c = u.nextCode.toNat ∧ ∃ p, u.prev = some p) := by
  unfold LzwUnit.bytesOf at h
  split at h
  · next hknown =>
    simp only [LzwUnit.knows, Bool.or_eq_true, Bool.and_eq_true, decide_eq_true_eq] at hknown
    have := hu.clear
    omega
  split at h
  · next hnext =>
    obtain ⟨p, hp, -⟩ := Option.map_eq_some_iff.mp h
    exact .inr ⟨hnext, p, hp⟩
  · simp at h

/-- An emitted code keeps the bounds: it is a code below the `next_code` that follows it. -/
theorem LzwUnit.after_bounded {m : Nat} {u : LzwUnit} (hu : u.Bounded m) {c : Nat} {bytes : List Byte}
    (h : u.bytesOf m c = some bytes) : (u.after c bytes).Bounded m := by
  have hcode := code_of_bytesOf hu h
  have hmod : (BitVec.ofNat 12 c).toNat = c % 4096 := BitVec.toNat_ofNat ..
  unfold LzwUnit.after
  cases hprev : u.prev with
  | none =>
    refine ⟨hu.wf, hu.clear, fun q hq => ?_⟩
    obtain rfl := Option.some.inj hq
    simp only [hprev, reduceCtorEq, exists_false, and_false, or_false] at hcode
    rw [hmod]
    exact (Nat.mod_le _ _).trans_lt hcode
  | some p =>
    have hgrown := append_bounded hu (hu.prev p hprev) (bytes.headD 0)
    refine ⟨hgrown.wf, hgrown.clear, fun q hq => ?_⟩
    obtain rfl := Option.some.inj hq
    by_cases hroom : u.nextCode.toNat < 4096
    · have hnext := append_nextCode hroom p (bytes.headD 0)
      simp only at hnext ⊢
      omega
    · simp only [append_of_full hroom]
      omega

/-- The unit is within its bounds at every exit of `LZW.DEC`. -/
theorem lzwLoop_bounded {m : Nat} (hlo : 2 ≤ m) (hhi : m ≤ 8) (src : Nat → Option Byte) (order : Order)
    (turns : Nat) (cur : ReadCursor) {u : LzwUnit} (hu : u.Bounded m) :
    (lzwLoop src order m turns cur u).unit.Bounded m := by
  induction turns generalizing cur u with
  | zero => exact hu
  | succ turns ih =>
    unfold lzwLoop
    split
    · exact hu
    · split
      · exact ih _ (lzwStart_bounded hlo hhi)
      split
      · exact hu
      split
      · exact hu
      · next hbytes => exact ih _ (LzwUnit.after_bounded hu hbytes)

theorem lzwDecBody_wf (order : Order) {m : Nat} (hlo : 2 ≤ m) (hhi : m ≤ 8) (s : State) :
    (lzwDecBody order m s).1.lzw.wf :=
  (lzwLoop_bounded hlo hhi s.srcByte? order _ s.rd (lzwStart_bounded hlo hhi)).wf

/-! ## The slots -/

/-- The rows of a table keep the counts they were built from (R151). -/
theorem huffRows_counts {ls : List Byte} {len code k : Nat} {rows : List HuffRow}
    (h : huffRows ls len code k = some rows) : rows.map HuffRow.count = ls := by
  induction ls generalizing len code k rows with
  | nil =>
    obtain rfl := Option.some.inj h
    rfl
  | cons l ls ih =>
    simp only [huffRows] at h
    split at h
    · simp at h
    · obtain ⟨rows', hrows', rfl⟩ := Option.map_eq_some_iff.mp h
      exact congrArg (l :: ·) (ih hrows')

/-- A table built from sixteen counts of at most 256 symbols is in order. -/
theorem HuffTable.wf_of_huffRows {counts values : List Byte} {rows : List HuffRow} (hlen : counts.length = 16)
    (hrows : huffRows counts 1 0 0 = some rows) (htotal : totalOf counts ≤ 256)
    (hvalues : values.length = totalOf counts) :
    HuffTable.wf { rows := rows, total := BitVec.ofNat 9 (totalOf counts), values := values } := by
  have hcounts := huffRows_counts hrows
  have hnat : (BitVec.ofNat 9 (totalOf counts)).toNat = totalOf counts :=
    (BitVec.toNat_ofNat ..).trans (Nat.mod_eq_of_lt (by omega))
  refine ⟨?_, by rw [hcounts, hrows], by rw [hcounts, hnat], hnat.trans_le htotal, by rw [hvalues, hnat]⟩
  rw [← hlen, ← hcounts, List.length_map]

theorem huffSlot_withRes (s : State) (a b : Nat) (t : BitVec 3) : (s.withRes a b).huffSlot t = s.huffSlot t := rfl

/-- `HUF.BUILD` clears its slot, and if the checks of R151 pass fills it with the table of its sixteen counts. -/
theorem hufBuildBody_cases (slot : BitVec 3) (s : State) :
    (hufBuildBody slot s).1.huffSlot slot = none ∨
    ∃ rows, huffRows (s.srcBytes 0 16) 1 0 0 = some rows ∧ totalOf (s.srcBytes 0 16) ≤ 256 ∧
      (hufBuildBody slot s).1.huffSlot slot =
        some { rows := rows, total := BitVec.ofNat 9 (totalOf (s.srcBytes 0 16))
               values := s.srcBytes 16 (totalOf (s.srcBytes 0 16)) } := by
  have hclear : (s.setHuff slot none).huffSlot slot = none := by rw [huffSlot_setHuff, if_pos rfl]
  have hsrc : (s.setHuff slot none).srcBytes = s.srcBytes :=
    funext₂ (srcBytes_congr (State.setHuff_mem s slot none) (State.setHuff_src s slot none))
  unfold hufBuildBody
  simp only [cpb1_hufMaxsym, hsrc]
  split
  · exact .inl hclear
  split
  · exact .inl hclear
  · next htotal =>
    split
    · exact .inl hclear
    · next rows hrows =>
      split
      · exact .inl hclear
      · exact .inr ⟨rows, hrows, Nat.not_lt.mp htotal, by rw [huffSlot_withRes, huffSlot_setHuff, if_pos rfl]⟩

/-- `HUF.BUILD` leaves its slot invalid or in order (R151, R154). -/
theorem hufBuildBody_wf {slot : BitVec 3} {s : State} {h : HuffTable}
    (hh : (hufBuildBody slot s).1.huffSlot slot = some h) : h.wf := by
  rcases hufBuildBody_cases slot s with hnone | ⟨rows, hrows, htotal, hsome⟩
  · exact absurd (hnone.symm.trans hh) (by simp)
  · obtain rfl := Option.some.inj (hsome.symm.trans hh)
    exact HuffTable.wf_of_huffRows (srcBytes_length s 0 16) hrows htotal (srcBytes_length s 16 _)

/-- `JPG.LDQ` leaves its slot invalid or with 64 entries (R36, R241). -/
theorem jpgLdqBody_length {q : BitVec 2} {s : State} {e : List (BitVec 16)}
    (he : (jpgLdqBody q s).1.quantSlot q = some e) : e.length = 64 := by
  unfold jpgLdqBody at he
  simp only at he
  split at he
  · simp [quantSlot_setQuant] at he
  · simp only [quantSlot_setQuant, if_true, Option.some.injEq] at he
    simp [← he, srcHalves]

/-! ## The invariant -/

/-- The part of `State.wf` that the pseudocode of a command keeps: all but `STATUS`, which is in order again after
step 4 of R314 (`State.wf_iff`). -/
structure State.UnitsWf (s : State) : Prop where
  mem : s.mem.wf
  huff : ∀ (t : BitVec 3) (h : HuffTable), s.huffSlot t = some h → h.wf
  quant : ∀ (q : BitVec 2) (e : List (BitVec 16)), s.quantSlot q = some e → e.length = 64
  lzw : s.lzw.wf ∧ s.lzwNext = s.lzw.nextCode.setWidth 32 ∧ s.lzwCsize = s.lzw.codeSize.setWidth 32

theorem State.wf_iff (s : State) : s.wf ↔ s.UnitsWf ∧ s.status.wf := by
  constructor
  · intro h
    exact ⟨⟨h.mem, h.huff, h.quant, h.lzw, h.lzwNext, h.lzwCsize⟩, h.status⟩
  · rintro ⟨⟨hmem, hhuff, hquant, hlzw, hnext, hcsize⟩, hstatus⟩
    exact ⟨hmem, hhuff, hquant, hlzw, hnext, hcsize, hstatus⟩

theorem body_unitsWf {i : Instr} (hi : i.wellFormed = true) {s : State} (h : s.UnitsWf) : (i.body s).1.UnitsWf := by
  have hframe := body_frame i s
  refine ⟨hframe.memWf h.mem, fun t tbl ht => ?_, fun q e he => ?_, ?_⟩
  · by_cases hb : i = .hufBuild t
    · subst hb
      exact hufBuildBody_wf ht
    · exact h.huff t tbl (hframe.huff t hb ▸ ht)
  · by_cases hb : i = .jpgLdq q
    · subst hb
      exact jpgLdqBody_length he
    · exact h.quant q e (hframe.quant q hb ▸ he)
  · by_cases hb : ∃ order m, i = .lzwDec order m
    · obtain ⟨order, m, rfl⟩ := hb
      obtain ⟨hlo, hhi⟩ := (legalMinCodeSize_iff m).mp hi
      exact ⟨lzwDecBody_wf order hlo hhi s, rfl, rfl⟩
    · have hne : ∀ order m, i ≠ .lzwDec order m := fun order m e => hb ⟨order, m, e⟩
      rw [hframe.lzw hne, hframe.lzwNext hne, hframe.lzwCsize hne]
      exact h.lzw

theorem Status.zero_wf : Status.zero.wf := by decide

theorem reset_lzw_wf : State.reset.lzw.wf := by decide

/-- The reset state of the block is in order, whatever memory in canonical form stands beside it. -/
theorem blockReset_wf {s : State} (hm : s.mem.wf) : s.blockReset.wf where
  mem := hm
  huff t h ht := by simp [State.huffSlot, State.blockReset, State.reset] at ht
  quant q e he := by simp [State.quantSlot, State.blockReset, State.reset] at he
  lzw := reset_lzw_wf
  lzwNext := rfl
  lzwCsize := rfl
  status := Status.zero_wf

/-- Step 4 of R314 restores the invariant. -/
theorem complete_wf {u : State} {e : ResultCode} (hu : u.UnitsWf) (hf : u.status.first ≠ .unsupportedFormat)
    (he : e ≠ .unsupportedFormat) : (u.complete e).wf :=
  (State.wf_iff _).mpr ⟨⟨hu.mem, hu.huff, hu.quant, hu.lzw⟩, Status.finished_wf hf he⟩

/-- An update that leaves memory, the slots, the LZW unit, its registers and `STATUS` alone keeps the invariant. -/
theorem State.wf.congr {s t : State} (h : s.wf) (hmem : t.mem.wf) (hhuff : t.huff = s.huff) (hquant : t.quant = s.quant)
    (hlzw : t.lzw = s.lzw) (hnext : t.lzwNext = s.lzwNext) (hcsize : t.lzwCsize = s.lzwCsize)
    (hstatus : t.status = s.status) : t.wf where
  mem := hmem
  huff u := by
    rw [State.huffSlot, hhuff]
    exact h.huff u
  quant q := by
    rw [State.quantSlot, hquant]
    exact h.quant q
  lzw := hlzw ▸ h.lzw
  lzwNext := by rw [hnext, hlzw, h.lzwNext]
  lzwCsize := by rw [hcsize, hlzw, h.lzwCsize]
  status := hstatus ▸ h.status

theorem Status.wf.first_ne {st : Status} (h : st.wf) : st.first ≠ .unsupportedFormat := by
  obtain ⟨-, -, -, -, -, hfirst⟩ := h
  exact hfirst

theorem illegalWord_wf {s : State} (h : s.wf) (w : Word) : (illegalWord w s).wf :=
  complete_wf ⟨h.mem, h.huff, h.quant, h.lzw, h.lzwNext, h.lzwCsize⟩ h.status.first_ne (by decide)

/-- Every command keeps the invariant. -/
theorem exec_wf {i : Instr} {s t : State} (h : s.wf) (ht : exec i s = .next t) : t.wf := by
  obtain ⟨hunits, hstatus⟩ := (State.wf_iff s).mp h
  obtain ⟨hmem, hhuff, hquant, hlzw⟩ := hunits
  rcases exec_cases ht with ⟨-, rfl⟩ | ⟨-, rfl⟩ | ⟨-, -, -, rfl⟩ | ⟨-, -, hi, -, rfl⟩
  · exact (State.wf_iff _).mpr ⟨⟨hmem, hhuff, hquant, hlzw⟩, Status.zero_wf⟩
  · exact (blockReset_wf hmem).congr hmem rfl rfl rfl rfl rfl rfl
  · exact illegalWord_wf h (encode i)
  · have hbegun : (s.begun (encode i)).UnitsWf := ⟨hmem, hhuff, hquant, hlzw⟩
    have hfirst : (i.body (s.begun (encode i))).1.status.first ≠ .unsupportedFormat :=
      (body_begun_frame i s (encode i)).first ▸ hstatus.first_ne
    exact complete_wf (body_unitsWf hi hbegun) hfirst (body_code_ne_unsupportedFormat i _)

theorem runWord_wf {w : Word} {s t : State} (h : s.wf) (ht : runWord w s = .next t) : t.wf := by
  unfold runWord at ht
  split at ht
  · exact exec_wf h ht
  · obtain rfl := Host.Outcome.next.inj ht
    exact illegalWord_wf h w

theorem driveRst_wf {s : State} (h : s.wf) (level : Bool) : (driveRst level s).wf := by
  unfold driveRst
  split
  · exact (blockReset_wf h.mem).congr h.mem rfl rfl rfl rfl rfl rfl
  · exact h.congr h.mem rfl rfl rfl rfl rfl rfl

theorem writeReg_wf {s : State} (h : s.wf) (off : BitVec 8) (v : Word) : (writeReg off v s).wf := by
  rw [writeReg_eq]
  exact h.congr h.mem rfl rfl rfl rfl rfl rfl

/-- Every transaction of the outside world keeps the invariant. -/
theorem transact_wf {op : HostOp} {s t : State} (h : s.wf) (ht : transact op s = .next t) : t.wf := by
  cases op with
  | regWrite off bytes v =>
    simp only [transact] at ht
    split at ht
    · simp at ht
    split at ht
    · split at ht
      · exact Host.Outcome.next.inj ht ▸ h
      · exact runWord_wf h ht
    · exact Host.Outcome.next.inj ht ▸ writeReg_wf h off v
  | regRead off bytes =>
    simp only [transact] at ht
    split at ht
    · simp at ht
    · exact Host.Outcome.next.inj ht ▸ h.congr h.mem rfl rfl rfl rfl rfl rfl
  | memWrite a v =>
    exact Host.Outcome.next.inj ht ▸ h.congr (Memory.write_wf h.mem a v) rfl rfl rfl rfl rfl rfl
  | memRead a => exact Host.Outcome.next.inj ht ▸ h.congr h.mem rfl rfl rfl rfl rfl rfl
  | setRst level => exact Host.Outcome.next.inj ht ▸ driveRst_wf h level

/-! ## The obligation -/

/-- Settles O21: an idle step changes nothing, and every other step is one transaction. -/
theorem stepKeepsInvariant : Obligations.StepKeepsInvariant := by
  intro s t h ht
  unfold step serve at ht
  split at ht
  · exact Host.Outcome.next.inj ht ▸ h
  · next op rest _ =>
    have hserved : ({ s with pending := rest } : State).wf := h.congr h.mem rfl rfl rfl rfl rfl rfl
    exact transact_wf hserved ht

end Sys2Proof.Machine
end

