-- ==== Sys2Proof/Proofs/Registers.lean ====
section
/-!
SUPPORT. The registers as the host sees them (R21, R23, R24, R311, R340): what a read returns after a write of the same
and of another register, and the bits of the read-only registers that the model assembles from its fields.
-/

namespace Sys2Proof.Machine

/-! ## Register access -/

/-- Cutting a word to its low `k` bits is masking it. -/
theorem setWidth_setWidth_eq_and (v : Word) {k : Nat} (hk : k ≤ 32) :
    (v.setWidth k).setWidth 32 = v &&& BitVec.ofNat 32 (2 ^ k - 1) := by
  have hmask : (2 ^ k - 1) % 2 ^ 32 = 2 ^ k - 1 :=
    Nat.mod_eq_of_lt ((Nat.sub_lt (Nat.two_pow_pos k) Nat.one_pos).trans_le (Nat.pow_le_pow_right (by decide) hk))
  have hlow : v.toNat % 2 ^ k < 2 ^ 32 := (Nat.mod_le _ _).trans_lt v.isLt
  apply BitVec.eq_of_toNat_eq
  rw [BitVec.toNat_and, BitVec.toNat_ofNat, hmask, Nat.and_two_pow_sub_one_eq_mod, BitVec.toNat_setWidth,
    BitVec.toNat_setWidth, Nat.mod_eq_of_lt hlow]

/-- A written register reads as the legal bits of the value, and a read-only one as before (R23 (a) to (c)). -/
theorem readReg_writeReg_same (off : BitVec 8) (v : Word) (s : State) :
    readReg off (writeReg off v s) = if writableBits off ≠ 0 then v &&& writableBits off else readReg off s := by
  have hall : v &&& 0xFFFFFFFF#32 = v := BitVec.and_allOnes
  have h3 : (v.setWidth 3).setWidth 32 = v &&& 0x7 := setWidth_setWidth_eq_and v (by decide)
  have h8 : (v.setWidth 8).setWidth 32 = v &&& 0xFF := setWidth_setWidth_eq_and v (by decide)
  unfold writeReg
  split <;> simp [writableBits, readReg, *]

/-- A write leaves every other register as it was (R23 (e)). -/
theorem readReg_writeReg_other {off r : BitVec 8} (h : r ≠ off) (v : Word) (s : State) :
    readReg r (writeReg off v s) = readReg r s := by
  have hne : r.toNat ≠ off.toNat := fun e => h (BitVec.eq_of_toNat_eq e)
  unfold writeReg
  -- The register written: one field of the state, or none.
  split
  all_goals
    unfold readReg
    -- The register read: another field, unless it is the one written.
    split
    all_goals first | rfl | omega

theorem readReg_writeReg (r off : BitVec 8) (v : Word) (s : State) :
    readReg r (writeReg off v s) =
      if r = off ∧ writableBits off ≠ 0 then v &&& writableBits off else readReg r s := by
  by_cases h : r = off
  · subst h
    rw [readReg_writeReg_same]
    simp only [true_and]
  · rw [readReg_writeReg_other h, if_neg fun hr => h hr.1]

/-- Offsets from 0x68 on are no registers and read as 0 (R21, R23 (c)). -/
theorem readReg_of_no_register {off : BitVec 8} (h : 0x68 ≤ off.toNat) (s : State) : readReg off s = 0 := by
  unfold readReg
  split
  case h_27 => rfl
  all_goals omega

theorem aligned_iff (off : BitVec 8) (bytes : Nat) : aligned off bytes = true ↔ bytes = 4 ∧ off.toNat % 4 = 0 := by
  simp [aligned]

/-- Settles O5: `transact` decides on alignment (R23 (d)), and the rest is what `readReg` and `writeReg` do. -/
theorem registerAccess : Obligations.RegisterAccess := by
  intro s off bytes v _
  refine ⟨fun hbad => ?_, fun hgood => ?_⟩
  · have ha : aligned off bytes = false := by
      rw [← Bool.not_eq_true, aligned_iff]
      omega
    simp [transact, ha]
  · have ha := (aligned_iff off bytes).mpr hgood
    refine ⟨by simp [transact, ha], fun h => readReg_of_no_register h s, fun h0 => ⟨writeReg off v s, ?_⟩⟩
    exact ⟨by simp only [transact, ha, Bool.not_true, Bool.false_eq_true, if_false, if_neg h0],
      fun r => readReg_writeReg r off v s, writeReg_eq off v s⟩

/-! ## The read-only registers -/

theorem bitsToNat_testBit (bs : List Bool) (k : Nat) : (bitsToNat bs).testBit k = bs.getD k false := by
  induction bs generalizing k with
  | nil => simp [bitsToNat]
  | cons b bs ih =>
    cases k with
    | zero => cases b <;> simp [bitsToNat, Nat.testBit_zero, Nat.add_mod]
    | succ k =>
      have hdiv : (b.toNat + 2 * bitsToNat bs) / 2 = bitsToNat bs := by
        have := b.toNat_lt
        omega
      rw [bitsToNat, Nat.testBit_succ, hdiv, ih, List.getD_cons_succ]

/-- A register whose bits are the valid bits of a file of `n` slots: bit `k` is that of slot `k`, and the bits above
are 0 (R34, R36). -/
theorem validBits_getLsbD {α : Type} {n : Nat} (slots : Vector (Option α) n) (hn : n ≤ 32) (k : Nat) :
    (BitVec.ofNat 32 (bitsToNat (slots.toList.map Option.isSome))).getLsbD k =
      if h : k < n then slots[k].isSome else false := by
  rw [BitVec.getLsbD_ofNat, bitsToNat_testBit]
  by_cases h : k < n
  · simp [h, Nat.lt_of_lt_of_le h hn]
  · simp [h]

/-- The bits above the valid bits read as 0. -/
theorem validBits_above {α : Type} {n : Nat} (slots : Vector (Option α) n) (hn : n ≤ 32) (m : Nat) :
    (BitVec.ofNat 32 (bitsToNat (slots.toList.map Option.isSome))).extractLsb' n m = 0 := by
  refine BitVec.eq_of_getLsbD_eq fun k _ => ?_
  rw [BitVec.getLsbD_extractLsb', validBits_getLsbD slots hn, dif_neg (by omega), Bool.and_false]
  exact BitVec.getLsbD_zero.symm

/-- The bits of `STATUS`, field by field (R24). -/
theorem Status.word_getLsbD (st : Status) {k : Nat} (hk : k < 32) :
    st.word.getLsbD k =
      if k < 4 then st.err.code.getLsbD k
      else if k < 8 then st.first.code.getLsbD (k - 4)
      else if k = 8 then st.dstfull
      else if k = 9 then st.trunc
      else if k = 10 then st.eos
      else if k = 16 then st.sDstfull
      else if k = 17 then st.sTrunc
      else if k = 18 then st.sEos
      else false := by
  simp only [Status.word, BitVec.getLsbD_append]
  interval_cases k <;> simp

theorem Status.word_err (st : Status) : st.word.extractLsb' 0 4 = st.err.code := by
  refine BitVec.eq_of_getLsbD_eq fun k hk => ?_
  rw [BitVec.getLsbD_extractLsb', word_getLsbD st (by omega)]
  simp [hk]

theorem Status.word_first (st : Status) : st.word.extractLsb' 4 4 = st.first.code := by
  refine BitVec.eq_of_getLsbD_eq fun k hk => ?_
  rw [BitVec.getLsbD_extractLsb', word_getLsbD st (by omega), if_neg (by omega), if_pos (by omega)]
  simp [hk]

/-- Bits [15:11] of `STATUS` read as 0 (R24). -/
theorem Status.word_reserved_low (st : Status) : st.word.extractLsb' 11 5 = 0 := by
  refine BitVec.eq_of_getLsbD_eq fun k hk => ?_
  rw [BitVec.getLsbD_extractLsb', word_getLsbD st (by omega)]
  interval_cases k <;> simp

/-- Bits [31:19] of `STATUS` read as 0 (R24). -/
theorem Status.word_reserved_high (st : Status) : st.word.extractLsb' 19 13 = 0 := by
  refine BitVec.eq_of_getLsbD_eq fun k hk => ?_
  rw [BitVec.getLsbD_extractLsb', word_getLsbD st (by omega)]
  interval_cases k <;> simp

theorem readReg_htvalid (s : State) (t : BitVec 3) : (readReg 0x60 s).getLsbD t.toNat = (s.huffSlot t).isSome :=
  (validBits_getLsbD s.huff (by decide) t.toNat).trans (dif_pos t.isLt)

theorem readReg_qtvalid (s : State) (q : BitVec 2) : (readReg 0x64 s).getLsbD q.toNat = (s.quantSlot q).isSome :=
  (validBits_getLsbD s.quant (by decide) q.toNat).trans (dif_pos q.isLt)

theorem readReg_pred (s : State) (c : BitVec 2) : readReg (0x50 + 4 * c.setWidth 8) s = s.predOf c := by
  have hc : c = 0 ∨ c = 1 ∨ c = 2 ∨ c = 3 := by
    revert c
    decide
  rcases hc with rfl | rfl | rfl | rfl <;> rfl

/-- Settles O6: the numbers of R311, and the read-only registers field by field. -/
theorem readOnlyFields : Obligations.ReadOnlyFields := by
  refine ⟨rfl, fun s => ?_⟩
  have hbit {k : Nat} (hk : k < 32) := s.status.word_getLsbD hk
  exact ⟨s.status.word_err, s.status.word_first, hbit (by decide), hbit (by decide), hbit (by decide),
    s.status.word_reserved_low, hbit (by decide), hbit (by decide), hbit (by decide), s.status.word_reserved_high,
    readReg_htvalid s, validBits_above s.huff (by decide) 24, readReg_qtvalid s,
    validBits_above s.quant (by decide) 28, readReg_pred s⟩

/-! ## Reset -/

/-- Settles O1: the 256 offsets, eight slots, four slots and four predictors of the one reset state. -/
theorem resetState : Obligations.ResetState :=
  ⟨by decide, by decide, by decide, by decide⟩

end Sys2Proof.Machine
end

