-- ==== Sys2Proof/Proofs/MemoryExchange.lean ====
section
/-!
SUPPORT. The state with its memory exchanged: each operation of the pseudocode that stores puts the same bytes at the
same offsets of the destination window of any memory, and each that loads returns the same on a memory that agrees on
the source window (R62 to R67).
-/

namespace Sys2Proof.Machine

/-! ## Memory exchanged, and lists of stores -/

/-- The state with another memory. -/
def State.withMem (s : State) (m : Memory) : State := { s with mem := m }

@[simp] theorem State.withMem_src (s : State) (m : Memory) : (s.withMem m).src = s.src := rfl
@[simp] theorem State.withMem_dst (s : State) (m : Memory) : (s.withMem m).dst = s.dst := rfl
@[simp] theorem State.withMem_rd (s : State) (m : Memory) : (s.withMem m).rd = s.rd := rfl
@[simp] theorem State.withMem_huffSlot (s : State) (m : Memory) (t : BitVec 3) :
    (s.withMem m).huffSlot t = s.huffSlot t := rfl
@[simp] theorem State.withMem_quantSlot (s : State) (m : Memory) (q : BitVec 2) :
    (s.withMem m).quantSlot q = s.quantSlot q := rfl
@[simp] theorem State.withMem_arg0 (s : State) (m : Memory) : (s.withMem m).arg0 = s.arg0 := rfl
@[simp] theorem State.withMem_arg1 (s : State) (m : Memory) : (s.withMem m).arg1 = s.arg1 := rfl
@[simp] theorem State.withMem_arg2 (s : State) (m : Memory) : (s.withMem m).arg2 = s.arg2 := rfl
@[simp] theorem State.withMem_arg3 (s : State) (m : Memory) : (s.withMem m).arg3 = s.arg3 := rfl
@[simp] theorem State.withMem_cfg (s : State) (m : Memory) : (s.withMem m).cfg = s.cfg := rfl

theorem State.setHuff_withMem (s : State) (m : Memory) (t : BitVec 3) (h : Option HuffTable) :
    (s.withMem m).setHuff t h = (s.setHuff t h).withMem m := rfl

theorem State.setQuant_withMem (s : State) (m : Memory) (q : BitVec 2) (e : Option (List (BitVec 16))) :
    (s.withMem m).setQuant q e = (s.setQuant q e).withMem m := rfl

theorem State.withRes_withMem (s : State) (m : Memory) (a b : Nat) :
    (s.withMem m).withRes a b = (s.withRes a b).withMem m := rfl

/-- Memory after the given bytes have been stored at the given offsets of a window, in order (R64). -/
def Memory.stored (w : Window) : List (Nat × Byte) → Memory → Memory
  | [], m => m
  | p :: ps, m => Memory.stored w ps (m.write (w.addr p.1) p.2)

theorem Memory.stored_append (w : Window) (ps qs : List (Nat × Byte)) (m : Memory) :
    Memory.stored w (ps ++ qs) m = Memory.stored w qs (Memory.stored w ps m) := by
  induction ps generalizing m with
  | nil => rfl
  | cons p ps ih => exact ih _

/-- An address at none of the offsets stored reads as before, in any memory. -/
theorem Memory.read_stored_other {w : Window} {a : Word} {ps : List (Nat × Byte)} (h : ∀ p ∈ ps, a ≠ w.addr p.1)
    (m : Memory) : (Memory.stored w ps m).read a = m.read a := by
  induction ps generalizing m with
  | nil => rfl
  | cons p ps ih =>
    have hrest := ih (fun q hq => h q (List.mem_cons_of_mem p hq)) (m.write (w.addr p.1) p.2)
    exact hrest.trans (read_write_other (h p List.mem_cons_self) p.2 m)

/-- The same stores on two memories leave the same byte at an address, or leave it alone in both. -/
theorem Memory.read_stored_two {m n : Memory} (hm : m.wf) (hn : n.wf) (w : Window) (ps : List (Nat × Byte)) (a : Word) :
    (Memory.stored w ps m).read a = (Memory.stored w ps n).read a ∨
      ((Memory.stored w ps m).read a = m.read a ∧ (Memory.stored w ps n).read a = n.read a) := by
  induction ps generalizing m n with
  | nil => exact .inr ⟨rfl, rfl⟩
  | cons p ps ih =>
    rcases ih (write_wf hm (w.addr p.1) p.2) (write_wf hn (w.addr p.1) p.2) with hsame | ⟨hleftM, hleftN⟩
    · exact .inl hsame
    rw [read_write hm] at hleftM
    rw [read_write hn] at hleftN
    by_cases ha : a = w.addr p.1
    · rw [if_pos ha] at hleftM hleftN
      exact .inl (hleftM.trans hleftN.symm)
    · rw [if_neg ha] at hleftM hleftN
      exact .inr ⟨hleftM, hleftN⟩

/-! ## Output on another memory -/

theorem dstPlaced_withMem (s : State) (m : Memory) (ps : List (Nat × Byte)) :
    (s.withMem m).dstPlaced ps = s.withMem (Memory.stored s.dst ps m) := by
  induction ps generalizing m with
  | nil => rfl
  | cons p ps ih => exact ih _

theorem dstBytes_withMem (s : State) (m : Memory) (o : Nat) (vs : List Byte) :
    (s.withMem m).dstBytes o vs = s.withMem (Memory.stored s.dst (placedAt o vs) m) := by
  induction vs generalizing m o with
  | nil => rfl
  | cons v vs ih => exact ih _ _

theorem placedAt_lt {o n : Nat} {vs : List Byte} (h : o + vs.length ≤ n) {p : Nat × Byte} (hp : p ∈ placedAt o vs) :
    p.1 < n := by
  obtain ⟨j, hj, rfl⟩ := placedAt_mem.mp hp
  exact Nat.lt_of_lt_of_le (Nat.add_lt_add_left hj o) h

/-- `Emit` of a list of bytes stores those that fit (R66). -/
theorem emitAll_withMem (bs : List Byte) (s : State) (m : Memory) :
    emitAll bs 0 (s.withMem m) = ((emitAll bs 0 s).1,
      (emitAll bs 0 s).2.withMem (Memory.stored s.dst (placedAt 0 (bs.take s.dst.len.toNat)) m)) := by
  rw [emitAll_spec bs 0 (s.withMem m) (Nat.zero_le _), emitAll_spec bs 0 s (Nat.zero_le _), dstBytes_withMem,
    dstBytes_withMem]
  by_cases hfull : s.dst.len.toNat < 0 + bs.length
  · rw [if_pos (show (s.withMem m).dst.len.toNat < _ from hfull), if_pos hfull, dstBytes_eq]
    rfl
  · rw [if_neg (show ¬ (s.withMem m).dst.len.toNat < _ from hfull), if_neg hfull, dstBytes_eq,
      List.take_of_length_le (by omega)]
    rfl

/-- The loop of an encoder stores the packets that fit (R67). -/
theorem putPackets_withMem (qs : List (List Byte × Nat)) (s : State) (m : Memory) :
    putPackets qs 0 0 (s.withMem m) = ((putPackets qs 0 0 s).1, (putPackets qs 0 0 s).2.1,
      (putPackets qs 0 0 s).2.2.withMem
        (Memory.stored s.dst (placedAt 0 ((storedPackets s.dst.len.toNat qs).flatMap Prod.fst)) m)) := by
  rw [putPackets_spec qs 0 0 (s.withMem m) (Nat.zero_le _), putPackets_spec qs 0 0 s (Nat.zero_le _)]
  simp only [dstBytes_withMem, Nat.sub_zero]
  by_cases hall : storedPackets s.dst.len.toNat qs = qs
  · rw [if_pos (show storedPackets (s.withMem m).dst.len.toNat qs = qs from hall), if_pos hall, dstBytes_eq]
    rfl
  · rw [if_neg (show ¬ storedPackets (s.withMem m).dst.len.toNat qs = qs from hall), if_neg hall, dstBytes_eq]
    rfl

/-! ## The bit writer on another memory -/

/-- A bit that is not the last of its byte is accepted and stores nothing (R124). -/
theorem wrBit_of_inner {s : State} (h : s.wr.bit ≠ 7) (order : Order) (stuff b : Bool) :
    wrBit order stuff b s =
      some { s with wr := { s.wr with bit := s.wr.bit + 1, acc := setBit s.wr.acc (bitPos order s.wr.bit) b } } :=
  if_neg h

/-- A bit that is the last of its byte is accepted if the bytes to store fit; memory does not decide which they are
(R124). -/
theorem wrBit_of_last {s : State} (h : s.wr.bit = 7) (order : Order) (stuff b : Bool) :
    ∃ out : List Byte, ∀ m, wrBit order stuff b (s.withMem m) =
      if s.dst.len.toNat < s.wr.byte.toNat + out.length then none
      else some { (s.withMem m).dstBytes s.wr.byte.toNat out with
        wr := { byte := s.wr.byte + BitVec.ofNat 32 out.length, bit := 0, acc := 0 } } :=
  ⟨if stuff && setBit s.wr.acc (bitPos order s.wr.bit) b == 0xFF then
      [setBit s.wr.acc (bitPos order s.wr.bit) b, 0x00]
    else [setBit s.wr.acc (bitPos order s.wr.bit) b],
    fun m => if_pos (c := (s.withMem m).wr.bit = 7) h⟩

/-- A bit is accepted or refused whatever memory holds, and it stores at most the bytes it completes (R124). -/
theorem wrBit_withMem (order : Order) (stuff b : Bool) (s : State) :
    ∃ ps : List (Nat × Byte), (∀ p ∈ ps, p.1 < s.dst.len.toNat) ∧ ∀ m,
      wrBit order stuff b (s.withMem m) =
        (wrBit order stuff b s).map fun t => t.withMem (Memory.stored s.dst ps m) := by
  by_cases h7 : s.wr.bit = 7
  · obtain ⟨out, hlast⟩ := wrBit_of_last h7 order stuff b
    have hself : wrBit order stuff b s = _ := hlast s.mem
    by_cases hfull : s.dst.len.toNat < s.wr.byte.toNat + out.length
    · refine ⟨[], by simp, fun m => ?_⟩
      rw [hself, hlast, if_pos hfull, if_pos hfull]
      rfl
    · refine ⟨placedAt s.wr.byte.toNat out, fun p hp => placedAt_lt (Nat.not_lt.mp hfull) hp, fun m => ?_⟩
      rw [hself, hlast, if_neg hfull, if_neg hfull, dstBytes_withMem, dstBytes_withMem]
      rfl
  · refine ⟨[], by simp, fun m => ?_⟩
    rw [wrBit_of_inner h7, wrBit_of_inner (s := s.withMem m) h7]
    rfl

/-- A list of bits is written alike whatever memory holds (R124, R125). -/
theorem writeBits_withMem (order : Order) (stuff : Bool) (bs : List Bool) (s : State) :
    ∃ ps : List (Nat × Byte), (∀ p ∈ ps, p.1 < s.dst.len.toNat) ∧ ∀ m,
      writeBits order stuff bs (s.withMem m) =
        ((writeBits order stuff bs s).1.withMem (Memory.stored s.dst ps m), (writeBits order stuff bs s).2) := by
  induction bs generalizing s with
  | nil => exact ⟨[], by simp, fun m => rfl⟩
  | cons b bs ih =>
    obtain ⟨ps, hps, hbit⟩ := wrBit_withMem order stuff b s
    unfold writeBits
    simp only [hbit]
    cases hw : wrBit order stuff b s with
    | none => exact ⟨[], by simp, fun m => rfl⟩
    | some t =>
      have hdst : t.dst = s.dst := by rw [wrBit_eq hw]
      obtain ⟨qs, hqs, hrest⟩ := ih t
      rw [hdst] at hqs hrest
      refine ⟨ps ++ qs, fun p hp => (List.mem_append.mp hp).elim (hps p) (hqs p), fun m => ?_⟩
      rw [Memory.stored_append]
      exact hrest _

/-! ## The source window on another memory -/

/-- The memory agrees with that of the state on the source window. -/
def State.SrcAgrees (s : State) (m : Memory) : Prop :=
  ∀ k, k < s.src.len.toNat → m.read (s.src.addr k) = s.mem.read (s.src.addr k)

/-- Agreement at every address of the source window (R62) is agreement at every offset, if the window fits. -/
theorem State.srcAgrees_of_holds {s : State} (hf : s.src.fits = true) {m : Memory}
    (h : ∀ a, s.src.holds a = true → m.read a = s.mem.read a) : s.SrcAgrees m :=
  fun _ hk => h _ (Window.holds_addr hf hk)

section

variable {s : State} {m : Memory} (hm : s.SrcAgrees m)

include hm

theorem srcByte_withMem {k : Nat} (hk : k < s.src.len.toNat) : (s.withMem m).srcByte k = s.srcByte k := hm k hk

theorem srcByte?_withMem : (s.withMem m).srcByte? = s.srcByte? := by
  funext k
  unfold State.srcByte?
  by_cases hk : k < s.src.len.toNat
  · rw [if_pos hk, if_pos (show k < (s.withMem m).src.len.toNat from hk), srcByte_withMem hm hk]
  · rw [if_neg hk, if_neg (show ¬ k < (s.withMem m).src.len.toNat from hk)]

theorem srcBytes_withMem {o n : Nat} (h : o + n ≤ s.src.len.toNat) :
    (s.withMem m).srcBytes o n = s.srcBytes o n := by
  induction n generalizing o with
  | zero => rfl
  | succ n ih =>
    unfold State.srcBytes
    rw [srcByte_withMem hm (by omega), ih (by omega)]

theorem srcAll_withMem : (s.withMem m).srcAll = s.srcAll :=
  srcBytes_withMem hm (Nat.zero_add _).le

theorem srcHalves_withMem {n : Nat} (h : 2 * n ≤ s.src.len.toNat) : srcHalves (s.withMem m) n = srcHalves s n := by
  refine List.map_congr_left fun k hk => ?_
  have hkn := List.mem_range.mp hk
  rw [srcBytes_withMem hm (by omega)]

theorem readBits_withMem (n : Nat) (order : Order) (stuff zfill : Bool) :
    readBits n order stuff zfill (s.withMem m) =
      ((readBits n order stuff zfill s).1.withMem m, (readBits n order stuff zfill s).2) := by
  unfold readBits
  rw [srcByte?_withMem hm]
  rfl

theorem bsRdBody_withMem (order : Order) (stuff zfill : Bool) (n : Nat) :
    bsRdBody order stuff zfill n (s.withMem m) =
      ((bsRdBody order stuff zfill n s).1.withMem m, (bsRdBody order stuff zfill n s).2) := by
  unfold bsRdBody
  rw [readBits_withMem hm]
  rcases readBits n order stuff zfill s with ⟨t, _ | v⟩ <;> rfl

theorem hufDecLoop_withMem (h : HuffTable) (stuff zfill : Bool) (rows : List HuffRow) (len code : Nat) :
    hufDecLoop h stuff zfill rows len code (s.withMem m) =
      ((hufDecLoop h stuff zfill rows len code s).1.withMem m, (hufDecLoop h stuff zfill rows len code s).2) := by
  induction rows generalizing s len code with
  | nil => rfl
  | cons row rows ih =>
    have hm' : (readBits 1 .msb stuff zfill s).1.SrcAgrees m := hm
    unfold hufDecLoop
    rw [readBits_withMem hm]
    rcases hread : readBits 1 .msb stuff zfill s with ⟨t, _ | b⟩
    · rfl
    rw [hread] at hm'
    by_cases hle : ((code <<< 1 ||| b : Nat) : Int) ≤ row.maxcode.toInt
    · simp only [if_pos hle]
      rfl
    · simp only [if_neg hle]
      exact ih hm' _ _

theorem hufBuildBody_withMem (slot : BitVec 3) :
    hufBuildBody slot (s.withMem m) = ((hufBuildBody slot s).1.withMem m, (hufBuildBody slot s).2) := by
  have hm' : (s.setHuff slot none).SrcAgrees m := hm
  unfold hufBuildBody
  rw [State.setHuff_withMem]
  generalize s.setHuff slot none = u at hm'
  by_cases hshort : u.src.len.toNat < 16
  · simp [hshort]
  have hcounts : (u.withMem m).srcBytes 0 16 = u.srcBytes 0 16 := srcBytes_withMem hm' (by omega)
  by_cases htotal : 256 < totalOf (u.srcBytes 0 16)
  · simp [hshort, hcounts, htotal]
  cases hrows : huffRows (u.srcBytes 0 16) 1 0 0 with
  | none => simp [hshort, hcounts, htotal, hrows]
  | some rows =>
    by_cases hcut : u.src.len.toNat < 16 + totalOf (u.srcBytes 0 16)
    · simp [hshort, hcounts, htotal, hrows, hcut]
    · simp [hshort, hcounts, htotal, hrows, hcut, srcBytes_withMem hm' (Nat.not_lt.mp hcut),
        State.setHuff_withMem, State.withRes_withMem]

theorem jpgLdqBody_withMem (slot : BitVec 2) :
    jpgLdqBody slot (s.withMem m) = ((jpgLdqBody slot s).1.withMem m, (jpgLdqBody slot s).2) := by
  have hm' : (s.setQuant slot none).SrcAgrees m := hm
  unfold jpgLdqBody
  rw [State.setQuant_withMem]
  generalize s.setQuant slot none = u at hm'
  by_cases hshort : u.src.len.toNat < 128
  · simp [hshort]
  · simp [hshort, srcHalves_withMem hm' (show 2 * 64 ≤ u.src.len.toNat by omega), State.setQuant_withMem]

theorem coefficients_withMem (h : 128 ≤ s.src.len.toNat) : coefficients (s.withMem m) = coefficients s :=
  congrArg (List.map sext16) (srcHalves_withMem hm h)

end

/-! ## Rasters -/

@[simp] theorem badDimensions_withMem (bpp : Nat) (s : State) (m : Memory) :
    badDimensions bpp (s.withMem m) = badDimensions bpp s := rfl

@[simp] theorem blockWrites_withMem (side bpp : Nat) (pixel : Nat → Nat → List Byte) (s : State) (m : Memory) :
    blockWrites side bpp pixel (s.withMem m) = blockWrites side bpp pixel s := rfl

/-- A byte of a pixel of a raster that fits lies in the destination window (R73, R318). -/
theorem State.rasterOk.offset_lt {s : State} {bpp : Nat} (h : s.rasterOk bpp) {x y j : Nat} (hx : x < s.arg0.toNat)
    (hy : y < s.arg1.toNat) (hj : j < bpp) : (y * s.arg0.toNat + x) * bpp + j < s.dst.len.toNat := by
  obtain ⟨-, -, -, -, hfit⟩ := h
  have hpixel : y * s.arg0.toNat + x + 1 ≤ s.arg0.toNat * s.arg1.toNat :=
    calc y * s.arg0.toNat + x + 1 ≤ y * s.arg0.toNat + s.arg0.toNat := by omega
      _ = s.arg0.toNat * (y + 1) := by ring
      _ ≤ s.arg0.toNat * s.arg1.toNat := Nat.mul_le_mul_left _ hy
  calc (y * s.arg0.toNat + x) * bpp + j < (y * s.arg0.toNat + x + 1) * bpp := by rw [Nat.succ_mul]; omega
    _ ≤ s.arg0.toNat * s.arg1.toNat * bpp := Nat.mul_le_mul_right _ hpixel
    _ ≤ s.dst.len.toNat := hfit

theorem blockWrites_lt {side bpp : Nat} {pixel : Nat → Nat → List Byte} {s : State}
    (hlen : ∀ dx dy, (pixel dx dy).length = bpp) (h : s.rasterOk bpp) {p : Nat × Byte}
    (hp : p ∈ blockWrites side bpp pixel s) : p.1 < s.dst.len.toNat := by
  obtain ⟨dx, dy, j, -, -, hj, hx, hy, rfl⟩ := blockWrites_mem.mp hp
  exact h.offset_lt hx hy (hlen dx dy ▸ hj)

theorem dxt1Pixel_length (blk : List Byte) (dx dy : Nat) : (dxt1Pixel blk dx dy).length = 4 := by
  unfold dxt1Pixel
  simp only
  split <;> rfl

end Sys2Proof.Machine
end

