-- ==== Sys2Proof/Proofs/WindowAccess.lean ====
section
/-!
SUPPORT. What a command does to memory and takes from it (R62, R8): the pseudocode of each command, put on another
memory that agrees on the source window, runs as before and stores the same bytes at the same offsets of the destination
window. Both obligations about the two windows are read off that one statement.
-/

namespace Sys2Proof

open Machine

/-! ## The pseudocode of a command on another memory -/

/-- The memory may stand in for that of the state as far as command `i` can tell: it agrees on the source window, if
the command uses that window (R62). -/
def Instr.Agrees (i : Instr) (s : State) (m : Memory) : Prop := i.usesSrc = true → s.SrcAgrees m

/-- Pseudocode `f` of command `i` keeps to the two windows from state `s` (R62): there are stores inside the destination
window, if the command uses that window, and on every memory that agrees with that of `s`, `f` does those stores and
leaves the rest of the state as it does from `s`. -/
def Instr.Local (i : Instr) (s : State) (f : State → State × ResultCode) : Prop :=
  ∃ ps : List (Nat × Byte), (∀ p ∈ ps, i.usesDst = true ∧ p.1 < s.dst.len.toNat) ∧
    ∀ m, i.Agrees s m → f (s.withMem m) = ((f s).1.withMem (Memory.stored s.dst ps m), (f s).2)

namespace Instr.Local

variable {i : Instr} {s : State}

/-- Pseudocode that stores nothing. -/
theorem of_no_store {f : State → State × ResultCode}
    (h : ∀ m, i.Agrees s m → f (s.withMem m) = ((f s).1.withMem m, (f s).2)) : i.Local s f :=
  ⟨[], by simp, h⟩

/-- Pseudocode that, whatever memory holds, is other pseudocode. -/
theorem congr {f g : State → State × ResultCode} (hg : i.Local s g) (h : ∀ m, f (s.withMem m) = g (s.withMem m)) :
    i.Local s f := by
  obtain ⟨ps, hps, hrun⟩ := hg
  have hself : f s = g s := h s.mem
  exact ⟨ps, hps, fun m hm => by rw [h m, hself, hrun m hm]⟩

theorem keep (e : ResultCode) : i.Local s fun s => (s, e) := of_no_store fun _ _ => rfl

theorem dstPlaced (hd : i.usesDst = true) {ps : State → List (Nat × Byte)}
    (hps : ∀ m, i.Agrees s m → ps (s.withMem m) = ps s) (hlt : ∀ p ∈ ps s, p.1 < s.dst.len.toNat) (e : ResultCode) :
    i.Local s fun s => (s.dstPlaced (ps s), e) := by
  refine ⟨ps s, fun p hp => ⟨hd, hlt p hp⟩, fun m hm => ?_⟩
  simp only [hps m hm, dstPlaced_withMem]
  rw [dstPlaced_eq]
  rfl

/-! ### The commands that store -/

theorem writeBits (hd : i.usesDst = true) (order : Order) (stuff : Bool) (bs : List Bool) :
    i.Local s (Machine.writeBits order stuff bs) := by
  obtain ⟨ps, hps, hrun⟩ := writeBits_withMem order stuff bs s
  exact ⟨ps, fun p hp => ⟨hd, hps p hp⟩, fun m _ => hrun m⟩

theorem hufEncBody (hd : i.usesDst = true) (slot : BitVec 3) (stuff : Bool) (sym : Byte) :
    i.Local s (Machine.hufEncBody slot stuff sym) := by
  cases hslot : s.huffSlot slot with
  | none => exact .congr (keep .notReady) fun m => by simp [Machine.hufEncBody, hslot]
  | some h =>
    cases hcode : (h.values.findIdx? (· == sym)).bind h.codeOf with
    | none => exact .congr (keep .invalidFormat) fun m => by simp [Machine.hufEncBody, hslot, hcode]
    | some lc =>
      obtain ⟨ps, hps, hrun⟩ := writeBits (s := s) hd .msb stuff (bitsOf .msb lc.1 lc.2)
      refine ⟨ps, hps, fun m hm => ?_⟩
      simp only [Machine.hufEncBody, State.withMem_huffSlot, hslot, hcode, hrun m hm]
      rcases Machine.writeBits .msb stuff (bitsOf .msb lc.1 lc.2) s with ⟨t, e⟩
      cases e <;> rfl

theorem finishDecode (hd : i.usesDst = true) {r : State → RleRun} (hr : ∀ m, i.Agrees s m → r (s.withMem m) = r s) :
    i.Local s fun s => Machine.finishDecode (r s) s := by
  refine ⟨placedAt 0 ((r s).out.take s.dst.len.toNat), fun p hp => ⟨hd, placedAt_lt (by simp) hp⟩, fun m hm => ?_⟩
  simp only [Machine.finishDecode, hr m hm, emitAll_withMem]
  rfl

theorem finishEncode (hd : i.usesDst = true) (k : Nat) {qs : State → List (List Byte × Nat)}
    (hq : ∀ m, i.Agrees s m → qs (s.withMem m) = qs s) : i.Local s fun s => Machine.finishEncode k (qs s) s := by
  refine ⟨placedAt 0 ((storedPackets s.dst.len.toNat (qs s)).flatMap Prod.fst), fun p hp => ⟨hd, ?_⟩, fun m hm => ?_⟩
  · exact placedAt_lt ((Nat.zero_add _).trans_le (storedPackets_length _ _)) hp
  · simp only [Machine.finishEncode, hq m hm, putPackets_withMem]
    rfl

theorem rleHbeBody (hd : i.usesDst = true) (hr : i.usesSrc = true) (sz : Nat) :
    i.Local s (Machine.rleHbeBody sz) := by
  by_cases hodd : s.src.len.toNat % sz ≠ 0
  · exact .congr (keep .invalidFormat) fun m => by simp [Machine.rleHbeBody, hodd]
  · refine .congr (finishEncode hd sz (qs := fun s => hbPackets (elements sz (s.src.len.toNat / sz) s.srcAll)) ?_)
      fun m => by simp [Machine.rleHbeBody, hodd]
    intro m hm
    simp only [srcAll_withMem (hm hr), State.withMem_src]

theorem lzwDecBody (hd : i.usesDst = true) (hr : i.usesSrc = true) (order : Order) (k : Nat) :
    i.Local s (Machine.lzwDecBody order k) := by
  refine ⟨placedAt 0 ((lzwLoop s.srcByte? order k (8 * s.src.len.toNat + 1) s.rd (lzwStart k)).out.take
      s.dst.len.toNat), fun p hp => ⟨hd, placedAt_lt (by simp) hp⟩, fun m hm => ?_⟩
  simp only [Machine.lzwDecBody, srcByte?_withMem (hm hr), State.withMem_src, State.withMem_rd, emitAll_withMem]
  rfl

theorem dxtBody (hd : i.usesDst = true) (hr : i.usesSrc = true) (size : Nat)
    {pixel : List Byte → Nat → Nat → List Byte} (hpixel : ∀ blk dx dy, (pixel blk dx dy).length = 4) :
    i.Local s (Machine.dxtBody size pixel) := by
  by_cases hbad : badDimensions 4 s = true
  · exact .congr (keep .invalidDimensions) fun m => by simp [Machine.dxtBody, hbad]
  by_cases hshort : s.src.len.toNat < size
  · exact .congr (keep .truncatedData) fun m => by simp [Machine.dxtBody, hbad, hshort]
  have hraster := (badDimensions_eq_false 4 s).mp (Bool.eq_false_iff.mpr hbad)
  refine .congr (dstPlaced hd (ps := fun s => blockWrites 4 4 (pixel (s.srcBytes 0 size)) s) ?_ ?_ .ok)
    fun m => by simp [Machine.dxtBody, hbad, hshort]
  · intro m hm
    simp only [srcBytes_withMem (hm hr) (show 0 + size ≤ s.src.len.toNat by omega), blockWrites_withMem]
  · exact fun p hp => blockWrites_lt (hpixel _) hraster hp

theorem jpgBlkBody (hd : i.usesDst = true) (hr : i.usesSrc = true) (slot : BitVec 2) :
    i.Local s (Machine.jpgBlkBody slot) := by
  cases hslot : s.quantSlot slot with
  | none => exact .congr (keep .notReady) fun m => by simp [Machine.jpgBlkBody, hslot]
  | some quant =>
    by_cases hbad : badDimensions 1 s = true
    · exact .congr (keep .invalidDimensions) fun m => by simp [Machine.jpgBlkBody, hslot, hbad]
    by_cases hshort : s.src.len.toNat < 128
    · exact .congr (keep .truncatedData) fun m => by simp [Machine.jpgBlkBody, hslot, hbad, hshort]
    have hraster := (badDimensions_eq_false 1 s).mp (Bool.eq_false_iff.mpr hbad)
    refine .congr (dstPlaced hd (ps := fun s => blockWrites 8 1 (fun dx dy =>
      [(idctBlock s.cfg.idctKernel (dequantize (coefficients s) quant)).getD (dy * 8 + dx) 0]) s) ?_ ?_ .ok)
      fun m => by simp [Machine.jpgBlkBody, hslot, hbad, hshort]
    · intro m hm
      simp only [coefficients_withMem (hm hr) (Nat.not_lt.mp hshort), State.withMem_cfg, blockWrites_withMem]
    · exact fun p hp => blockWrites_lt (bpp := 1) (fun _ _ => rfl) hraster hp

theorem jpgYccBody (hd : i.usesDst = true) (hr : i.usesSrc = true) : i.Local s Machine.jpgYccBody := by
  by_cases hroom : s.dst.len.toNat < 3 * s.arg0.toNat
  · exact .congr (keep .invalidDimensions) fun m => by simp [Machine.jpgYccBody, hroom]
  by_cases hcut : s.src.len.toNat < s.arg1.toNat + s.arg0.toNat ∨ s.src.len.toNat < s.arg2.toNat + s.arg0.toNat ∨
      s.src.len.toNat < s.arg3.toNat + s.arg0.toNat
  · exact .congr (keep .truncatedData) fun m => by simp [Machine.jpgYccBody, hroom, hcut]
  refine .congr (dstPlaced hd (ps := fun s => (List.range s.arg0.toNat).flatMap fun k =>
      placedAt (3 * k) (yccPixel (s.srcByte (s.arg1.toNat + k)) (s.srcByte (s.arg2.toNat + k))
        (s.srcByte (s.arg3.toNat + k)))) ?_ ?_ .ok)
    fun m => by simp [Machine.jpgYccBody, hroom, hcut]
  · refine fun m hm => List.flatMap_congr fun k hk => ?_
    have hk := List.mem_range.mp hk
    simp only [State.withMem_arg0, State.withMem_arg1, State.withMem_arg2, State.withMem_arg3] at hk ⊢
    rw [srcByte_withMem (hm hr) (by omega), srcByte_withMem (hm hr) (by omega), srcByte_withMem (hm hr) (by omega)]
  · intro p hp
    obtain ⟨k, hk, hp⟩ := List.mem_flatMap.mp hp
    have hk := List.mem_range.mp hk
    exact placedAt_lt (show 3 * k + 3 ≤ s.dst.len.toNat by omega) hp

/-! ### The commands that load -/

theorem hufDecBody (hr : i.usesSrc = true) (slot : BitVec 3) (stuff zfill : Bool) :
    i.Local s (Machine.hufDecBody slot stuff zfill) := by
  cases hslot : s.huffSlot slot with
  | none => exact .congr (keep .notReady) fun m => by simp [Machine.hufDecBody, hslot]
  | some h =>
    refine .congr (of_no_store fun m hm => hufDecLoop_withMem (hm hr) h stuff zfill h.rows 1 0) fun m => ?_
    simp [Machine.hufDecBody, hslot]

end Instr.Local

namespace Machine

/-- The pseudocode of every command keeps to the two windows. -/
theorem body_local (i : Instr) (s : State) : i.Local s i.body := by
  cases i with
  | nop => exact .keep .ok
  | clrerr => exact .keep .ok
  | sreset => exact .keep .ok
  | bsRd order stuff zfill n => exact .of_no_store fun _ hm => bsRdBody_withMem (hm rfl) order stuff zfill n.toNat
  | bsWr order stuff n => exact .writeBits rfl order stuff (bitsOf order n.toNat s.arg0.toNat)
  | bsFlush order stuff pad => exact .writeBits rfl order stuff (padBits pad s.wr.bit)
  | hufBuild slot => exact .of_no_store fun _ hm => hufBuildBody_withMem (hm rfl) slot
  | hufDec slot stuff zfill => exact .hufDecBody rfl slot stuff zfill
  | hufEnc slot stuff sym => exact .hufEncBody rfl slot stuff sym
  | lzwDec order mincs => exact .lzwDecBody rfl rfl order mincs.toNat
  | rlePbd =>
    refine .finishDecode rfl (r := fun s => pbDecode s.srcAll.length s.srcAll) fun m hm => ?_
    rw [srcAll_withMem (hm rfl)]
  | rlePbe =>
    refine .finishEncode rfl 1 (qs := fun s => pbPackets s.srcAll) fun m hm => ?_
    rw [srcAll_withMem (hm rfl)]
  | rleHbd size =>
    refine .finishDecode rfl (r := fun s => hbDecode size.toNat s.srcAll.length s.srcAll) fun m hm => ?_
    rw [srcAll_withMem (hm rfl)]
  | rleHbe size => exact .rleHbeBody rfl rfl size.toNat
  | jpgLdq slot => exact .of_no_store fun _ hm => jpgLdqBody_withMem (hm rfl) slot
  | jpgBlk slot => exact .jpgBlkBody rfl rfl slot
  | jpgYcc => exact .jpgYccBody rfl rfl
  | jpgDcp comp => exact .of_no_store fun _ _ => rfl
  | jpgRst => exact .of_no_store fun _ _ => rfl
  | dxt1Blk => exact .dxtBody rfl rfl 8 dxt1Pixel_length
  | dxt3Blk => exact .dxtBody rfl rfl 16 fun _ _ _ => rfl
  | dxt5Blk => exact .dxtBody rfl rfl 16 fun _ _ _ => rfl

/-! ## The life of a command on another memory -/

/-- A window that a command uses fits, if its window checks pass (R65 (a)). -/
theorem fits_of_windowsOk {i : Instr} {s : State} (h : windowsOk i s = true) :
    (i.usesSrc = true → s.src.fits = true) ∧ (i.usesDst = true → s.dst.fits = true) := by
  simp only [windowsOk, Bool.and_eq_true, Bool.or_eq_true, Bool.not_eq_true'] at h
  obtain ⟨⟨hsrc, hdst⟩, -⟩ := h
  exact ⟨fun hr => hsrc.resolve_left (by simp [hr]), fun hd => hdst.resolve_left (by simp [hd])⟩

/-- What a command does with memory (R62): from every memory that agrees on the source window, if the command uses that
window, it leaves the same state but for memory, and does the same stores, all inside the destination window and none
if the command does not use that window. -/
theorem exec_stores (i : Instr) (s : State) :
    ∃ (u : State) (ps : List (Nat × Byte)),
      (∀ p ∈ ps, i.usesDst = true ∧ s.dst.holds (s.dst.addr p.1) = true) ∧
      ∀ m, (i.usesSrc = true → ∀ a, s.src.holds a = true → m.read a = s.mem.read a) →
        exec i (s.withMem m) = .next (u.withMem (Memory.stored s.dst ps m)) := by
  by_cases hc : i = .clrerr
  · subst hc
    exact ⟨{ s.begun (encode .clrerr) with status := Status.zero }, [], by simp, fun _ _ => rfl⟩
  by_cases hs : i = .sreset
  · subst hs
    exact ⟨{ s.blockReset with cmd := encode .sreset }, [], by simp, fun _ _ => rfl⟩
  cases hok : i.wellFormed && windowsOk i s with
  | false =>
    refine ⟨illegalWord (encode i) s, [], by simp, fun m _ => ?_⟩
    rw [exec_eq_launch hc hs, launch_of_not_ok (s := s.withMem m) hok]
    rfl
  | true =>
    obtain ⟨hi, hw⟩ := (Bool.and_eq_true _ _).mp hok
    obtain ⟨hsrc, hdst⟩ := fits_of_windowsOk hw
    obtain ⟨ps, hps, hrun⟩ := body_local i (s.begun (encode i))
    refine ⟨(i.body (s.begun (encode i))).1.complete (i.body (s.begun (encode i))).2, ps, fun p hp => ?_,
      fun m hm => ?_⟩
    · obtain ⟨hd, hlt⟩ := hps p hp
      exact ⟨hd, Window.holds_addr (hdst hd) hlt⟩
    · have hagrees : i.Agrees (s.begun (encode i)) m := fun hr => State.srcAgrees_of_holds (hsrc hr) (hm hr)
      rw [exec_eq_launch hc hs, launch_of_ok (s := s.withMem m) hi hw,
        show (s.withMem m).begun (encode i) = (s.begun (encode i)).withMem m from rfl, hrun m hagrees]
      rfl

/-! ## The obligations -/

/-- Settles O19: an address outside the destination window is none of those stored to. -/
theorem writesStayInWindow : Obligations.WritesStayInWindow := by
  intro i s t a h ha
  obtain ⟨u, ps, hps, hrun⟩ := exec_stores i s
  have hself : exec i s = _ := hrun s.mem fun _ _ _ => rfl
  obtain rfl := Host.Outcome.next.inj (hself.symm.trans h)
  refine Memory.read_stored_other (fun p hp e => ha ?_) s.mem
  rw [e]
  exact hps p hp

/-- Settles O20: the two runs do the same stores, each on its own memory. -/
theorem readsStayInWindow : Obligations.ReadsStayInWindow := by
  intro i s t m hs hm hsrc h
  obtain ⟨u, ps, -, hrun⟩ := exec_stores i s
  have hself : exec i s = _ := hrun s.mem fun _ _ _ => rfl
  obtain rfl := Host.Outcome.next.inj (hself.symm.trans h)
  exact ⟨_, hrun m hsrc, rfl, Memory.read_stored_two hm hs s.dst ps⟩

end Machine

end Sys2Proof
end

