-- ==== Sys2Proof/Proofs/Encoding.lean ====
section
/-!
SUPPORT. The encoding (R91 to R95, R97): what the decoder's field readers find in an encoded word, the row that a word
selects, and the three ways a word can be illegal.
-/

namespace Sys2Proof

/-! ## The fields of an encoded word (R91) -/

@[simp] theorem orderOf_eq_lsb (w : Word) : (orderOf w == .lsb) = w.getLsbD 8 := by
  unfold orderOf
  cases w.getLsbD 8 <;> rfl

namespace Fields

variable (f : Fields)

@[simp] theorem orderOf_word : orderOf f.word = f.order := by
  rw [orderOf, f.word_bit (by decide)]
  cases f.order <;> rfl

@[simp] theorem stuffOf_word : stuffOf f.word = f.stuff := f.word_bit (by decide)

@[simp] theorem zfillOf_word : zfillOf f.word = f.zfill := f.word_bit (by decide)

@[simp] theorem padOf_word : padOf f.word = f.pad := f.word_bit (by decide)

/-- Bits [14:12] of a word are those of `SLOT`. -/
theorem word_slotBit {j : Nat} (hj : j < 3) : f.word.getLsbD (12 + j) = f.slot.getLsbD j := by
  interval_cases j <;> exact f.word_bit (by decide)

/-- Bits [31:16] of a word are those of `IMM`. -/
theorem word_immBit {j : Nat} (hj : j < 16) : f.word.getLsbD (16 + j) = f.imm.getLsbD j := by
  interval_cases j <;> exact f.word_bit (by decide)

@[simp] theorem slotOf_word : slotOf f.word = f.slot := by
  refine BitVec.eq_of_getLsbD_eq fun j hj => ?_
  simp [slotOf, hj, f.word_slotBit hj]

@[simp] theorem smallSlotOf_word : smallSlotOf f.word = f.slot.setWidth 2 := by
  refine BitVec.eq_of_getLsbD_eq fun j hj => ?_
  simp [smallSlotOf, hj, f.word_slotBit (hj.trans (by decide))]

theorem immOf_word {k : Nat} (hk : k ≤ 16) : immOf k f.word = f.imm.setWidth k := by
  refine BitVec.eq_of_getLsbD_eq fun j hj => ?_
  simp [immOf, hj, f.word_immBit (hj.trans_le hk)]

end Fields

/-! ## The row of a word (R94, R95) -/

/-- A row's operation code is its own: the row a word selects is the one in the opcode map with the word's `OPC`. -/
theorem rowOf_eq_some_iff {w : Word} {r : OpcodeRow} :
    rowOf w = some r ↔ r ∈ opcodeTable ∧ r.pattern.extractLsb' 0 8 = w.extractLsb' 0 8 := by
  constructor
  · intro h
    exact ⟨List.mem_of_find?_eq_some h, by simpa using List.find?_some h⟩
  · rintro ⟨hr, hopc⟩
    rw [rowOf, ← hopc]
    clear hopc
    fin_cases hr <;> rfl

/-- A word selects no row exactly when its `OPC` is none of the opcode map. -/
theorem rowOf_eq_none_iff {w : Word} :
    rowOf w = none ↔ ∀ r ∈ opcodeTable, r.pattern.extractLsb' 0 8 ≠ w.extractLsb' 0 8 := by
  simp [rowOf]

/-- Every command's word is in its row. -/
theorem encode_inRow (i : Instr) : Laws.InRow.Statement i := by
  cases i with
  | nop => exact Laws.InRow.nop
  | clrerr => exact Laws.InRow.clrerr
  | sreset => exact Laws.InRow.sreset
  | bsRd order stuff zfill n => exact Laws.InRow.bsRd order stuff zfill n
  | bsWr order stuff n => exact Laws.InRow.bsWr order stuff n
  | bsFlush order stuff pad => exact Laws.InRow.bsFlush order stuff pad
  | hufBuild slot => exact Laws.InRow.hufBuild slot
  | hufDec slot stuff zfill => exact Laws.InRow.hufDec slot stuff zfill
  | hufEnc slot stuff sym => exact Laws.InRow.hufEnc slot stuff sym
  | lzwDec order mincs => exact Laws.InRow.lzwDec order mincs
  | rlePbd => exact Laws.InRow.rlePbd
  | rlePbe => exact Laws.InRow.rlePbe
  | rleHbd size => exact Laws.InRow.rleHbd size
  | rleHbe size => exact Laws.InRow.rleHbe size
  | jpgLdq slot => exact Laws.InRow.jpgLdq slot
  | jpgBlk slot => exact Laws.InRow.jpgBlk slot
  | jpgYcc => exact Laws.InRow.jpgYcc
  | jpgDcp comp => exact Laws.InRow.jpgDcp comp
  | jpgRst => exact Laws.InRow.jpgRst
  | dxt1Blk => exact Laws.InRow.dxt1Blk
  | dxt3Blk => exact Laws.InRow.dxt3Blk
  | dxt5Blk => exact Laws.InRow.dxt5Blk

/-- The row that a command's word selects reads the command back from it. -/
theorem build_encode {i : Instr} {r : OpcodeRow} (h : rowOf (encode i) = some r) : r.build (encode i) = i := by
  rw [encode, rowOf_word] at h
  cases i
  all_goals
    obtain rfl := Option.some.inj h
    simp [encode, Instr.fields, Fields.immOf_word]

/-- The command that a row reads from a word, legal or not, is one of that row. -/
theorem rowOf_encode_build {r : OpcodeRow} (hr : r ∈ opcodeTable) (w : Word) :
    rowOf (encode (r.build w)) = some r := by
  rw [encode, rowOf_word]
  fin_cases hr <;> rfl

/-- The bits a row leaves free are those of the fields that it reads. -/
theorem encode_build_free {r : OpcodeRow} (hr : r ∈ opcodeTable) (w : Word) {k : Nat} (hk : k < 32)
    (hfree : r.mask.getLsbD k = false) : (encode (r.build w)).getLsbD k = w.getLsbD k := by
  rw [encode, Fields.word_bit _ hk]
  fin_cases hr
  -- Bit by bit: either the row's mask has the bit, against `hfree`, or the bit belongs to a field.
  all_goals
    interval_cases k <;>
      simp [Instr.fields, stuffOf, zfillOf, padOf, slotOf, smallSlotOf, immOf] at hfree ⊢

/-- A row reads a command from a word of its own, and encoding that command gives the word again. -/
theorem encode_build {r : OpcodeRow} (hr : r ∈ opcodeTable) {w : Word} (hw : w &&& r.mask = r.pattern) :
    encode (r.build w) = w := by
  obtain ⟨r', hrow, hbits⟩ := encode_inRow (r.build w)
  obtain rfl : r = r' := Option.some.inj ((rowOf_encode_build hr w).symm.trans hrow)
  refine BitVec.eq_of_getLsbD_eq fun k hk => ?_
  cases hmask : r.mask.getLsbD k with
  | true =>
    have hfixed := congrArg (·.getLsbD k) (hbits.trans hw.symm)
    simpa [hmask] using hfixed
  | false => exact encode_build_free hr w hk hmask

/-! ## The decoder (R94) -/

/-- The decoder answers the command of the word's row when the row's bits are in order and the fields are legal. -/
theorem decode_eq_ok_iff {w : Word} {i : Instr} :
    decode w = .ok i ↔
      ∃ r, rowOf w = some r ∧ w &&& r.mask = r.pattern ∧ i.wellFormed = true ∧ r.build w = i := by
  unfold decode
  cases hrow : rowOf w with
  | none => simp
  | some r =>
    simp only [Option.some.injEq, exists_eq_left']
    constructor
    · intro h
      split at h
      · next hbits =>
        split at h
        · next hwf =>
          obtain rfl := Except.ok.inj h
          exact ⟨hbits, hwf, rfl⟩
        · cases h
      · cases h
    · rintro ⟨hbits, hwf, rfl⟩
      rw [if_pos hbits, if_pos hwf]

/-- Settles O8: the word is in a row of the opcode map, and that row reads the command back. -/
theorem decodeEncode : Obligations.DecodeEncode := by
  intro i hi
  obtain ⟨r, hrow, hbits⟩ := encode_inRow i
  exact decode_eq_ok_iff.mpr ⟨r, hrow, hbits, hi, build_encode hrow⟩

/-- Settles O9: the row fixes every bit that its command does not read. -/
theorem encodeDecode : Obligations.EncodeDecode := by
  intro w i h
  obtain ⟨r, hrow, hbits, hi, rfl⟩ := decode_eq_ok_iff.mp h
  exact ⟨hi, encode_build (rowOf_eq_some_iff.mp hrow).1 hbits⟩

theorem decode_of_encode_eq {w : Word} {i : Instr} (hw : encode i = w) (hi : i.wellFormed = true) :
    decode w = .ok i :=
  hw ▸ decodeEncode i hi

/-- Settles O7: each word is the encoding of its command. -/
theorem sampleWords : Obligations.SampleWords := by
  refine ⟨?_, ?_, ?_, ?_, ?_, ?_, ?_, ?_, ?_, ?_, ?_, ?_, ?_, ?_⟩
  all_goals exact decode_of_encode_eq rfl rfl

/-! ## The illegal words (R97) -/

/-- R97 (a): `OPC` is in one of the ranges that R97 lists. -/
def OpcUnlisted (w : Word) : Prop :=
  let opc := w.toNat % 256
  0x03 ≤ opc ∧ opc ≤ 0x0F ∨ 0x13 ≤ opc ∧ opc ≤ 0x1F ∨ 0x23 ≤ opc ∧ opc ≤ 0x2F ∨ 0x31 ≤ opc ∧ opc ≤ 0x3F ∨
    0x44 ≤ opc ∧ opc ≤ 0x4F ∨ 0x55 ≤ opc ∧ opc ≤ 0x5F ∨ 0x63 ≤ opc

/-- R97 (b): a bit that the command does not use is not 0. -/
def ReservedBitSet (w : Word) : Prop :=
  ∃ r ∈ opcodeTable, r.pattern.toNat % 256 = w.toNat % 256 ∧ w &&& r.mask ≠ r.pattern

/-- R97 (c): `N`, `MINCS` or `S` is out of range, or `STUFF = 1` with `ORDER = 1`. -/
def FieldOutOfRange (w : Word) : Prop :=
  let opc := w.toNat % 256
  ((opc = 0x10 ∨ opc = 0x11) ∧ (w.toNat / 65536 % 64 = 0 ∨ 32 < w.toNat / 65536 % 64)) ∨
    ((opc = 0x10 ∨ opc = 0x11 ∨ opc = 0x12) ∧ w.getLsbD 8 = true ∧ w.getLsbD 9 = true) ∨
    (opc = 0x30 ∧ (w.toNat / 65536 % 16 < 2 ∨ 8 < w.toNat / 65536 % 16)) ∨
    ((opc = 0x42 ∨ opc = 0x43) ∧ (w.toNat / 65536 % 8 = 0 ∨ 4 < w.toNat / 65536 % 8))

/-- Two words have the same `OPC` when their low bytes are the same number. -/
theorem opc_eq_iff {v w : Word} : v.extractLsb' 0 8 = w.extractLsb' 0 8 ↔ v.toNat % 256 = w.toNat % 256 := by
  simp [← BitVec.toNat_inj]

/-- The ranges of R97 (a) are the gaps between the operation codes of the map. -/
theorem rowOf_eq_none_iff_opcUnlisted {w : Word} : rowOf w = none ↔ OpcUnlisted w := by
  rw [rowOf_eq_none_iff]
  simp only [ne_eq, opc_eq_iff, opcodeTable, List.forall_mem_cons, List.not_mem_nil, OpcUnlisted,
    BitVec.reduceToNat, Nat.reduceMod, false_imp_iff, implies_true, and_true]
  have hlow : w.toNat % 256 < 256 := Nat.mod_lt _ (by decide)
  generalize w.toNat % 256 = opc at hlow ⊢
  omega

/-- The row of R97 (b) is the one the word selects. -/
theorem reservedBitSet_iff {w : Word} {r : OpcodeRow} (h : rowOf w = some r) :
    ReservedBitSet w ↔ w &&& r.mask ≠ r.pattern := by
  have hiff (q : OpcodeRow) : q ∈ opcodeTable ∧ q.pattern.toNat % 256 = w.toNat % 256 ↔ q = r := by
    rw [← opc_eq_iff, ← rowOf_eq_some_iff, h, Option.some_inj, eq_comm]
  simp [ReservedBitSet, ← and_assoc, hiff]

theorem immOf_toNat (k : Nat) (w : Word) : (immOf k w).toNat = w.toNat / 65536 % 2 ^ k := by
  simp [immOf, Nat.shiftRight_eq_div_pow]

theorem legalBitCount_immOf (w : Word) :
    legalBitCount (immOf 6 w) = false ↔ w.toNat / 65536 % 64 = 0 ∨ 32 < w.toNat / 65536 % 64 := by
  simp only [legalBitCount, immOf_toNat, Bool.and_eq_false_iff, decide_eq_false_iff_not]
  omega

theorem legalMinCodeSize_immOf (w : Word) :
    legalMinCodeSize (immOf 4 w) = false ↔ w.toNat / 65536 % 16 < 2 ∨ 8 < w.toNat / 65536 % 16 := by
  rw [← Bool.not_eq_true, Machine.legalMinCodeSize_iff, immOf_toNat]
  omega

theorem legalElementSize_immOf (w : Word) :
    legalElementSize (immOf 3 w) = false ↔ w.toNat / 65536 % 8 = 0 ∨ 4 < w.toNat / 65536 % 8 := by
  rw [← Bool.not_eq_true, Machine.legalElementSize_iff, immOf_toNat]
  omega

theorem legalStuffing_eq_false (w : Word) :
    legalStuffing (orderOf w) (stuffOf w) = false ↔ w.getLsbD 8 = true ∧ w.getLsbD 9 = true := by
  simp [legalStuffing, stuffOf, and_comm]

/-- R97 (c) says what `Instr.wellFormed` denies of the command that the word's row reads. -/
theorem fieldOutOfRange_iff {w : Word} {r : OpcodeRow} (h : rowOf w = some r) :
    FieldOutOfRange w ↔ (r.build w).wellFormed = false := by
  obtain ⟨hr, hopc⟩ := rowOf_eq_some_iff.mp h
  rw [opc_eq_iff] at hopc
  rw [FieldOutOfRange, ← hopc]
  clear h hopc
  fin_cases hr
  all_goals
    simp only [Instr.wellFormed, Bool.and_eq_false_iff, legalBitCount_immOf, legalMinCodeSize_immOf,
      legalElementSize_immOf, legalStuffing_eq_false]
    simp

/-- The three steps of R94 fail on the words of R97 (a), (b) and (c). -/
theorem decode_error_iff {w : Word} :
    (∃ e, decode w = .error e) ↔ OpcUnlisted w ∨ ReservedBitSet w ∨ FieldOutOfRange w := by
  unfold decode
  cases hrow : rowOf w with
  | none => simp [rowOf_eq_none_iff_opcUnlisted.mp hrow]
  | some r =>
    have hlisted : ¬ OpcUnlisted w := by simp [← rowOf_eq_none_iff_opcUnlisted, hrow]
    rw [reservedBitSet_iff hrow, fieldOutOfRange_iff hrow]
    by_cases hbits : w &&& r.mask = r.pattern
    · cases hwf : (r.build w).wellFormed <;> simp [hbits, hwf, hlisted]
    · simp [hbits]

end Sys2Proof

namespace Sys2Proof.Machine

/-- Steps 1, 2 and 4 of R314 together leave in `STATUS` what the claims call the end of a command. -/
theorem Status.cleared_finished (st : Status) (e : ResultCode) :
    st.cleared.finished e = st.ended e false false false := by
  rw [Status.ended, ← Status.finished_first]
  rfl

/-- An illegal word runs as R94 says. -/
theorem runWord_of_error {w : Word} {e : DecodeError} (h : decode w = .error e) (s : State) :
    runWord w s = .next { s with cmd := w, status := s.status.ended .illegalCommand false false false } := by
  rw [runWord, h, ← Status.cleared_finished]
  rfl

theorem runWord_of_ok {w : Word} {i : Instr} (h : decode w = .ok i) (s : State) : runWord w s = exec i s := by
  rw [runWord, h]

/-- Settles O10: the three ways to be illegal are the three steps of the decoder. -/
theorem illegalEncodings : Obligations.IllegalEncodings :=
  fun _ => ⟨decode_error_iff, fun s ⟨_, he⟩ => runWord_of_error he s⟩

/-! ## A word written to `CMD` (R90) -/

/-- With `rst` released, a step that serves a write of `CMD` runs the word. -/
theorem step_of_cmdWrite {s : State} {w : Word} {rest : List HostOp} (hrst : s.rst = false)
    (hp : s.pending = .regWrite 0 4 w :: rest) : step s = runWord w { s with pending := rest } := by
  simp [step, serve, hp, transact, aligned, hrst]

theorem decode_of_decodeTableWord {n w : Nat} {i : Instr} (h : decodeTableWord n w = some i) :
    decode (BitVec.ofNat 32 (w % 2 ^ n)) = .ok i := by
  unfold decodeTableWord at h
  split at h
  · next j hj => rw [hj, Option.some.inj h]
  · cases h

/-- Settles O3: a command word is the queue's next transaction, either as given or put there by `withFetchWord`. -/
theorem stepRunsCommand : Obligations.StepRunsCommand := by
  refine ⟨fun s rest w i hrst hp hw => ?_, fun s w i hw => ?_⟩
  · rw [step_of_cmdWrite hrst hp, runWord_of_ok hw]
  · exact (step_of_cmdWrite rfl rfl).trans (runWord_of_ok (decode_of_decodeTableWord hw) { s with rst := false })

end Sys2Proof.Machine
end

