-- ==== Sys2Proof/Proofs/BitReader.lean ====
section
/-!
PROOF. The bit reader and `BS.RD` (R120 to R123, R126): which bits stand at a cursor, the number they are assembled
to, and what the loop of `ReadBits` makes of a run of bits and of the condition that ends it.
-/

namespace Sys2Proof.Machine

/-! ## Bits in stream order -/

theorem getLsbD_bitPos (order : Order) (v : Byte) (k : BitVec 3) :
    v.getLsbD (bitPos order k) = streamBitOf order v k.toNat := by
  cases order <;> rfl

theorem streamBitOf_ff (order : Order) {k : Nat} (hk : k < 8) : streamBitOf order 0xFF k = true := by
  have h : ∀ order, ∀ k : Fin 8, streamBitOf order 0xFF k = true := fun order => by cases order <;> decide
  exact h order ⟨k, hk⟩

/-! ## The assembled number (R122) -/

/-- The value of a read after the given bits, the first of which is bit `i`. -/
def shiftAll (order : Order) : Nat → Nat → List Bool → Nat
  | val, _, [] => val
  | val, i, b :: bs => shiftAll order (shiftIn order val i b) (i + 1) bs

theorem shiftAll_append (order : Order) (val i : Nat) (as bs : List Bool) :
    shiftAll order val i (as ++ bs) = shiftAll order (shiftAll order val i as) (i + as.length) bs := by
  induction as generalizing val i with
  | nil => rfl
  | cons a as ih => simp [shiftAll, ih, Nat.add_assoc, Nat.add_comm 1]

/-- In LSB-first order one more bit leaves the weights of the bits before it as they are. -/
theorem numberOf_lsb_succ (n : Nat) (bit : Nat → Bool) :
    numberOf .lsb (n + 1) bit = numberOf .lsb n bit + (bit n).toNat * 2 ^ n := by
  simp [numberOf, bitWeight, List.range_succ]

theorem numberOf_lsb_lt (n : Nat) (bit : Nat → Bool) : numberOf .lsb n bit < 2 ^ n := by
  induction n with
  | zero => simp [numberOf]
  | succ n ih =>
    have hb : (bit n).toNat * 2 ^ n ≤ 2 ^ n := by cases bit n <;> simp
    rw [numberOf_lsb_succ, Nat.pow_succ]
    omega

/-- In MSB-first order one more bit doubles the value of the bits before it. -/
theorem numberOf_msb_succ (n : Nat) (bit : Nat → Bool) :
    numberOf .msb (n + 1) bit = 2 * numberOf .msb n bit + (bit n).toNat := by
  have hdouble : ∀ j ∈ List.range n,
      (bit j).toNat * 2 ^ (n - j) = 2 * ((bit j).toNat * 2 ^ (n - 1 - j)) := fun j hj => by
    have hj : n - j = n - 1 - j + 1 := by have := List.mem_range.mp hj; omega
    rw [hj, Nat.pow_succ]
    ring
  simp only [numberOf, bitWeight, List.range_succ, List.map_append, List.sum_append, Nat.add_sub_cancel]
  rw [List.map_congr_left hdouble, List.sum_map_mul_left]
  simp

theorem shiftIn_numberOf (order : Order) (n : Nat) (bit : Nat → Bool) :
    shiftIn order (numberOf order n bit) n (bit n) = numberOf order (n + 1) bit := by
  cases order with
  | msb =>
    rw [numberOf_msb_succ, shiftIn, ← Nat.shiftLeft_add_eq_or_of_lt (Bool.toNat_lt _), Nat.shiftLeft_eq]
    omega
  | lsb =>
    rw [numberOf_lsb_succ, shiftIn, Nat.or_comm, ← Nat.shiftLeft_add_eq_or_of_lt (numberOf_lsb_lt n bit),
      Nat.shiftLeft_eq, Nat.add_comm]

/-- The loop assembles the number that R122 says its bits stand for. -/
theorem shiftAll_range (order : Order) (n : Nat) (bit : Nat → Bool) :
    shiftAll order 0 0 ((List.range n).map bit) = numberOf order n bit := by
  induction n with
  | zero => rfl
  | succ n ih =>
    rw [List.range_succ, List.map_append, shiftAll_append, ih]
    simpa [shiftAll] using shiftIn_numberOf order n bit

theorem numberOf_false (order : Order) (n : Nat) : numberOf order n (fun _ => false) = 0 := by
  simp [numberOf]

/-! ## The bits at a cursor -/

/-- From cursor `c` the reader reads the given bits, one after the other, and is then at cursor `d`. -/
inductive BitsAt (src : Nat → Option Byte) (order : Order) (stuff : Bool) :
    List Bool → ReadCursor → ReadCursor → Prop
  | nil (c : ReadCursor) : BitsAt src order stuff [] c c
  | cons {b : Bool} {bs : List Bool} {c c' d : ReadCursor} (head : rdBit src order stuff c = (.bit b, c'))
      (tail : BitsAt src order stuff bs c' d) : BitsAt src order stuff (b :: bs) c d

section

variable {src : Nat → Option Byte} {order : Order} {stuff : Bool}

theorem BitsAt.snoc {bs : List Bool} {b : Bool} {c d e : ReadCursor} (h : BitsAt src order stuff bs c d)
    (last : rdBit src order stuff d = (.bit b, e)) : BitsAt src order stuff (bs ++ [b]) c e := by
  induction h with
  | nil c => exact .cons last (.nil e)
  | cons head _ ih => exact .cons head (ih last)

/-- A byte at the cursor that is no `0xFF`, or one with its stuffed zero, gives its next bit in stream order (R121). -/
theorem rdBit_of_data {c : ReadCursor} {v : Byte} (hv : src c.byte.toNat = some v)
    (hstuffed : stuff = true → v = 0xFF → src (c.byte.toNat + 1) = some 0x00) :
    rdBit src order stuff c =
      (.bit (streamBitOf order v c.bit.toNat), c.advance (if stuff = true ∧ v = 0xFF then 2 else 1)) := by
  rw [← getLsbD_bitPos]
  rcases rdBit_cases src order stuff c with
    ⟨w, hw, -, h⟩ | ⟨hnone | ⟨hs, hff, hnone⟩, -⟩ | ⟨hs, hff, ⟨w, hw, h0⟩, -⟩
  · obtain rfl : v = w := Option.some.inj (hv.symm.trans hw)
    exact h
  · simp [hv] at hnone
  · simp [hstuffed hs (Option.some.inj (hv.symm.trans hff))] at hnone
  · rw [hstuffed hs (Option.some.inj (hv.symm.trans hff))] at hw
    exact absurd (Option.some.inj hw).symm h0

/-! ## The loop of `ReadBits` (R122) -/

variable {zfill : Bool}

/-- The loop over a run of bits: each is added to the value. -/
theorem readLoop_of_bitsAt {bs : List Bool} {c d : ReadCursor} (h : BitsAt src order stuff bs c d) (k i val : Nat) :
    readLoop src order stuff zfill (bs.length + k) i { cur := c, val := val } =
      readLoop src order stuff zfill k (i + bs.length) { cur := d, val := shiftAll order val i bs } := by
  induction h generalizing i val with
  | nil c => simp [shiftAll]
  | @cons b bs c c' d head _ ih =>
    rw [List.length_cons, Nat.add_right_comm, readLoop, head]
    simpa [shiftAll, Nat.add_assoc, Nat.add_comm 1] using ih (i + 1) (shiftIn order val i b)

/-- What the loop carries after a read that was no bit: the flag of what it was. -/
def BitRead.stopped (a : BitRead) (o : BitOut) : BitRead :=
  { a with trunc := a.trunc || decide (o = .trunc), eos := a.eos || decide (o = .eos) }

theorem BitRead.stopped_stopped (a : BitRead) (o : BitOut) (val : Nat) :
    BitRead.stopped { a.stopped o with val := val } o = { a.stopped o with val := val } := by
  simp [BitRead.stopped]

/-- One turn of the loop where no bit can be read: it raises, or takes the bit as 0. -/
theorem readLoop_succ_of_stop {a : BitRead} {o : BitOut} (hstop : rdBit src order stuff a.cur = (o, a.cur))
    (ho : ∀ b, o ≠ .bit b) (n i : Nat) :
    readLoop src order stuff zfill (n + 1) i a =
      if zfill then
        readLoop src order stuff zfill n (i + 1) { a.stopped o with val := shiftIn order a.val i false }
      else (a.stopped o, false) := by
  rw [readLoop, hstop]
  cases o with
  | bit b => exact absurd rfl (ho b)
  | trunc => simp [BitRead.stopped]
  | eos => simp [BitRead.stopped]

/-- Where no bit can be read the cursor stays, so the same holds for every later bit of the read (R123 (c)). -/
theorem readLoop_of_stop {a : BitRead} {o : BitOut} (hstop : rdBit src order stuff a.cur = (o, a.cur))
    (ho : ∀ b, o ≠ .bit b) {n : Nat} (hn : 0 < n) (i : Nat) :
    readLoop src order stuff zfill n i a =
      if zfill then ({ a.stopped o with val := shiftAll order a.val i (List.replicate n false) }, true)
      else (a.stopped o, false) := by
  induction n generalizing i a with
  | zero => omega
  | succ n ih =>
    rw [readLoop_succ_of_stop hstop ho]
    cases zfill with
    | false => rfl
    | true =>
      cases n with
      | zero => rfl
      | succ n =>
        refine (ih (a := { a.stopped o with val := shiftIn order a.val i false }) hstop n.succ_pos (i + 1)).trans ?_
        rw [if_pos rfl, if_pos rfl, BitRead.stopped_stopped]
        rfl

end

/-! ## `BS.RD` (R126) -/

/-- The per-command flags and step 4 of R314 make up what the claims call the end of a command. -/
theorem Status.finished_of_flags (st : Status) (e : ResultCode) (dstfull trunc eos : Bool) :
    Status.finished { st.cleared with dstfull := dstfull, trunc := trunc, eos := eos } e =
      st.ended e dstfull trunc eos := by
  rw [Status.ended, ← Status.finished_first]
  rfl

/-- A command other than `CLRERR` and `SRESET` with legal fields whose window checks pass runs its pseudocode. -/
theorem exec_of_ok {i : Instr} (hc : i ≠ .clrerr) (hs : i ≠ .sreset) {s : State} (hi : i.wellFormed = true)
    (hw : windowsOk i s = true) :
    exec i s = .next ((i.body (s.begun (encode i))).1.complete (i.body (s.begun (encode i))).2) := by
  rw [exec_eq_launch hc hs, launch_of_ok hi hw]

/-- All that `BS.RD` does, by what the loop of `ReadBits` answers. -/
theorem exec_bsRd {order : Order} {stuff zfill : Bool} {n : BitVec 6} {s : State}
    (hi : (Instr.bsRd order stuff zfill n).wellFormed = true) (hf : s.src.fits = true) {r : BitRead} {ok : Bool}
    (h : readLoop s.srcByte? order stuff zfill n.toNat 0 { cur := s.rd } = (r, ok)) :
    exec (.bsRd order stuff zfill n) s = .next
      (let i := Instr.bsRd order stuff zfill n
       if ok then
         { s.ended i .ok false r.trunc r.eos with
           rd := r.cur, res0 := BitVec.ofNat 32 r.val, res1 := n.setWidth 32 }
       else { s.ended i .truncatedData false r.trunc r.eos with rd := r.cur }) := by
  have hw : windowsOk (.bsRd order stuff zfill n) s = true := by simp [windowsOk, Instr.usesSrc, Instr.usesDst, hf]
  have hn : BitVec.ofNat 32 n.toNat = n.setWidth 32 := BitVec.ofNat_toNat ..
  rw [exec_of_ok (by simp) (by simp) hi hw]
  simp only [Instr.body, bsRdBody, readBits, srcByte?_begun, State.begun_rd, h]
  cases ok with
  | true =>
    simp only [if_true, State.ended, ← Status.finished_of_flags, ← hn]
    simp [State.complete, State.withRes, State.begun, Status.cleared]
  | false =>
    simp only [State.ended, ← Status.finished_of_flags]
    simp [State.complete, State.begun, Status.cleared]

/-- `BS.RD` where all its bits can be read. -/
theorem exec_bsRd_of_bitsAt {order : Order} {stuff zfill : Bool} {n : BitVec 6} {s : State}
    (hi : (Instr.bsRd order stuff zfill n).wellFormed = true) (hf : s.src.fits = true) {bit : Nat → Bool}
    {d : ReadCursor} (h : BitsAt s.srcByte? order stuff ((List.range n.toNat).map bit) s.rd d) :
    exec (.bsRd order stuff zfill n) s = .next
      { s.endedOk (.bsRd order stuff zfill n) with
        rd := d, res0 := BitVec.ofNat 32 (numberOf order n.toNat bit), res1 := n.setWidth 32 } := by
  have hloop := readLoop_of_bitsAt (zfill := zfill) h 0 0 0
  simp only [List.length_map, List.length_range, Nat.add_zero, shiftAll_range] at hloop
  exact exec_bsRd hi hf hloop

/-- `BS.RD` where the first `m` of its bits can be read and then a condition stands at the cursor. -/
theorem exec_bsRd_of_stop {order : Order} {stuff zfill : Bool} {n : BitVec 6} {s : State}
    (hi : (Instr.bsRd order stuff zfill n).wellFormed = true) (hf : s.src.fits = true) {bit : Nat → Bool} {m : Nat}
    {d : ReadCursor} {o : BitOut} (hm : m < n.toNat) (h : BitsAt s.srcByte? order stuff ((List.range m).map bit) s.rd d)
    (hstop : rdBit s.srcByte? order stuff d = (o, d)) (ho : ∀ b, o ≠ .bit b) :
    exec (.bsRd order stuff zfill n) s = .next
      (let i := Instr.bsRd order stuff zfill n
       if zfill then
         { s.ended i .ok false (decide (o = .trunc)) (decide (o = .eos)) with
           rd := d
           res0 := BitVec.ofNat 32 (numberOf order n.toNat fun j => decide (j < m) && bit j)
           res1 := n.setWidth 32 }
       else { s.ended i .truncatedData false (decide (o = .trunc)) (decide (o = .eos)) with rd := d }) := by
  have hfill : (List.range m).map bit ++ List.replicate (n.toNat - m) false =
      (List.range n.toNat).map fun j => decide (j < m) && bit j := by
    refine List.ext_getElem (by simp; omega) fun j h1 h2 => ?_
    by_cases hj : j < m <;> simp [List.getElem_append, hj]
  have hloop := readLoop_of_bitsAt (zfill := zfill) h (n.toNat - m) 0 0
  rw [readLoop_of_stop (a := { cur := d, val := _ }) hstop ho (by omega), ← shiftAll_append, hfill, List.length_map,
    List.length_range, show m + (n.toNat - m) = n.toNat by omega] at hloop
  simp only [shiftAll_range] at hloop
  cases zfill <;> exact exec_bsRd hi hf hloop

/-! ## Positions in bits -/

theorem ReadCursor.ofPos_pos (c : ReadCursor) : ReadCursor.ofPos c.pos = c := by
  have hbit := c.bit.isLt
  rw [ofPos, show c.pos / 8 = c.byte.toNat by unfold pos; omega, show c.pos % 8 = c.bit.toNat by unfold pos; omega,
    BitVec.ofNat_toNat, BitVec.ofNat_toNat, BitVec.setWidth_eq, BitVec.setWidth_eq]

theorem ReadCursor.ofPos_byte {p : Nat} (hp : p / 8 < 4294967296) : (ofPos p).byte.toNat = p / 8 := by
  simpa [ofPos] using hp

theorem ReadCursor.ofPos_bit (p : Nat) : (ofPos p).bit.toNat = p % 8 := by
  simp [ofPos]

/-- A bit of a byte without stuffing moves the cursor one position on. -/
theorem ReadCursor.ofPos_advance (p : Nat) : (ofPos p).advance 1 = ofPos (p + 1) := by
  unfold advance
  by_cases h7 : (ofPos p).bit = 7
  · have h7' : p % 8 = 7 := by rw [← ofPos_bit, h7]; rfl
    rw [if_pos h7, ofPos, ofPos, show (p + 1) / 8 = p / 8 + 1 by omega, show (p + 1) % 8 = 0 by omega,
      BitVec.ofNat_add]
    rfl
  · have h7' : p % 8 ≠ 7 := fun h => h7 (BitVec.eq_of_toNat_eq (by rw [ofPos_bit, h]; rfl))
    rw [if_neg h7, ofPos, ofPos, show (p + 1) / 8 = p / 8 by omega, show (p + 1) % 8 = p % 8 + 1 by omega,
      BitVec.ofNat_add]
    rfl

/-- The bits of the window from a position on, none of them in an `0xFF` byte if stuffing is on (R121). -/
theorem bitsAt_srcBit {s : State} {order : Order} {stuff : Bool} {p n : Nat} (hn : p + n ≤ 8 * s.src.len.toNat)
    (hff : stuff = true → ∀ b, b < s.src.len.toNat → p / 8 ≤ b → 8 * b < p + n → s.srcByte b ≠ 0xFF) :
    BitsAt s.srcByte? order stuff ((List.range n).map fun j => s.srcBit order (p + j)) (.ofPos p) (.ofPos (p + n)) := by
  induction n with
  | zero => exact .nil _
  | succ n ih =>
    have hlen := s.src.len.isLt
    have hin : (p + n) / 8 < s.src.len.toNat := by omega
    have hbyte : (ReadCursor.ofPos (p + n)).byte.toNat = (p + n) / 8 := ReadCursor.ofPos_byte (by omega)
    have hsrc : s.srcByte? (ReadCursor.ofPos (p + n)).byte.toNat = some (s.srcByte ((p + n) / 8)) := by
      rw [hbyte]
      exact if_pos hin
    have hplain : stuff = true → s.srcByte ((p + n) / 8) ≠ 0xFF := fun hs => hff hs _ hin (by omega) (by omega)
    have hnot : ¬ (stuff = true ∧ s.srcByte ((p + n) / 8) = 0xFF) := fun h => hplain h.1 h.2
    have hbit := rdBit_of_data (order := order) hsrc fun hs h => absurd h (hplain hs)
    rw [if_neg hnot, ReadCursor.ofPos_bit, ReadCursor.ofPos_advance] at hbit
    rw [List.range_succ, List.map_append]
    exact (ih (by omega) fun hs b hb hle hlt => hff hs b hb hle (by omega)).snoc hbit

/-! ## The obligations about `BS.RD` -/

/-- Settles O24: the bits at the cursor are those of the window from its position on. -/
theorem bsRdValue : Obligations.BsRdValue := by
  intro order stuff zfill n s hi hf hn hff
  have hbits := bitsAt_srcBit (order := order) hn hff
  rw [ReadCursor.ofPos_pos] at hbits
  exact exec_bsRd_of_bitsAt hi hf hbits

theorem legalBitCount_iff {n : BitVec 6} : legalBitCount n = true ↔ 1 ≤ n.toNat ∧ n.toNat ≤ 32 := by
  simp [legalBitCount]

/-- Past the end of the window no bit can be read (R121). -/
theorem rdBit_past_end {s : State} {c : ReadCursor} (h : s.src.len.toNat ≤ c.byte.toNat) (order : Order) :
    rdBit s.srcByte? order false c = (.trunc, c) := by
  rw [rdBit_plain, State.srcByte?, if_neg (Nat.not_lt.mpr h)]

/-- Settles O25: the bits up to the end of the window can be read, and there, or where the cursor stood beyond it, the
reader stops. -/
theorem bsRdPastEnd : Obligations.BsRdPastEnd := by
  intro order zfill n s hn hf hpast
  have hi : (Instr.bsRd order false zfill n).wellFormed = true := by simp [Instr.wellFormed, hn, legalStuffing]
  have hpos : s.rd.pos = 8 * s.rd.byte.toNat + s.rd.bit.toNat := rfl
  have hbit := s.rd.bit.isLt
  obtain ⟨hn0, -⟩ := legalBitCount_iff.mp hn
  by_cases hin : s.rd.byte.toNat < s.src.len.toNat
  · have hbits := bitsAt_srcBit (s := s) (order := order) (stuff := false) (p := s.rd.pos)
      (n := 8 * s.src.len.toNat - s.rd.pos) (by omega) (by simp)
    have hend : ReadCursor.ofPos (s.rd.pos + (8 * s.src.len.toNat - s.rd.pos)) = { byte := s.src.len, bit := 0 } := by
      rw [show s.rd.pos + (8 * s.src.len.toNat - s.rd.pos) = ReadCursor.pos { byte := s.src.len, bit := 0 } by
        simp only [ReadCursor.pos, BitVec.reduceToNat] at hpos ⊢; omega, ReadCursor.ofPos_pos]
    rw [ReadCursor.ofPos_pos, hend] at hbits
    have h := exec_bsRd_of_stop (zfill := zfill) hi hf (by omega) hbits (rdBit_past_end (Nat.le_refl _) order) (by simp)
    simp only [Nat.lt_sub_iff_add_lt'] at h
    rw [if_pos hin]
    exact h
  · have h := exec_bsRd_of_stop (zfill := zfill) (bit := fun j => s.srcBit order (s.rd.pos + j)) hi hf hn0 (.nil s.rd)
      (rdBit_past_end (Nat.not_lt.mp hin) order) (by simp)
    have hbeyond : ∀ j, ¬ s.rd.pos + j < 8 * s.src.len.toNat := fun j => by omega
    simp only [if_neg hin, hbeyond]
    exact h

/-- Settles O26: a marker at the cursor stops the reader before the first bit. -/
theorem bsRdStopsAtMarker : Obligations.BsRdStopsAtMarker := by
  intro zfill n s hn hf hlen hff hmarker
  have hi : (Instr.bsRd .msb true zfill n).wellFormed = true := by simp [Instr.wellFormed, hn, legalStuffing]
  have hstop : rdBit s.srcByte? .msb true s.rd = (.eos, s.rd) := by
    rw [rdBit, State.srcByte?, State.srcByte?, if_pos (by omega), if_pos hlen, hff]
    simpa using hmarker
  have h := exec_bsRd_of_stop (zfill := zfill) (bit := fun _ => false) hi hf (legalBitCount_iff.mp hn).1 (.nil s.rd)
    hstop (by simp)
  simp only [Bool.and_false, numberOf_false] at h
  exact h

/-- Settles O27: the byte's next bit is a one, or the byte that decides whether it is data is missing. -/
theorem bsRdStuffedByte : Obligations.BsRdStuffedByte := by
  intro s hf hin hff
  have hi : ∀ zfill, (Instr.bsRd .msb true zfill 1).wellFormed = true := by decide
  have hsrc : s.srcByte? s.rd.byte.toNat = some 0xFF := by rw [State.srcByte?, if_pos hin, hff]
  refine ⟨fun hnext h0 zfill => ?_, fun hlast => ?_⟩
  · have hzero : s.srcByte? (s.rd.byte.toNat + 1) = some 0x00 := by rw [State.srcByte?, if_pos hnext, h0]
    have hbit := rdBit_of_data (order := .msb) (stuff := true) hsrc fun _ _ => hzero
    rw [streamBitOf_ff _ s.rd.bit.isLt] at hbit
    exact exec_bsRd_of_bitsAt (bit := fun _ => true) (hi zfill) hf (.cons hbit (.nil _))
  · have hstop : rdBit s.srcByte? .msb true s.rd = (.trunc, s.rd) := by
      rw [rdBit, hsrc, State.srcByte?, if_neg (by omega)]
      rfl
    have h := fun zfill => exec_bsRd_of_stop (zfill := zfill) (n := 1) (bit := fun _ => false) (hi zfill) hf
      (m := 0) (by decide) (.nil s.rd) hstop (by simp)
    exact ⟨h false, h true⟩

end Sys2Proof.Machine
end

