-- ==== Sys2Proof/Proofs/BitWriter.lean ====
section
/-!
PROOF. The bit writer, `BS.WR` and `BS.FLUSH` (R124, R125, R127, R128): what one accepted bit does to the byte being
assembled and to the claim `State.appends`, when a bit is refused, and what a run of bits comes to.
-/

namespace Sys2Proof.Machine

/-! ## The byte being assembled -/

theorem getLsbD_setBit (v : Byte) (b : Bool) {p i : Nat} (hi : i < 8) :
    (setBit v p b).getLsbD i = if i = p then b else v.getLsbD i := by
  have hone : (1#8 <<< p).getLsbD i = decide (i = p) := by
    rw [BitVec.getLsbD_shiftLeft, BitVec.getLsbD_one]
    grind
  cases b with
  | true =>
    rw [setBit, if_pos rfl, BitVec.getLsbD_or, hone]
    by_cases h : i = p <;> simp [h]
  | false =>
    rw [setBit, if_neg Bool.false_ne_true, BitVec.getLsbD_and, BitVec.getLsbD_not, hone]
    by_cases h : i = p <;> simp [h, hi]

/-- In stream order the bit written as number `k` of a byte is the byte's bit `k`, in either order (R31). -/
theorem streamBitOf_setBit (order : Order) (v : Byte) (k : BitVec 3) (b : Bool) {i : Nat} (hi : i < 8) :
    streamBitOf order (setBit v (bitPos order k) b) i = if i = k.toNat then b else streamBitOf order v i := by
  have hk := k.isLt
  cases order with
  | msb =>
    have hpos : 7 - i = bitPos .msb k ↔ i = k.toNat := by
      change 7 - i = 7 - k.toNat ↔ _
      omega
    simp only [streamBitOf, getLsbD_setBit v b (show 7 - i < 8 by omega), hpos]
  | lsb => exact getLsbD_setBit v b hi

theorem eq_of_streamBitOf {order : Order} {v w : Byte}
    (h : ∀ k, k < 8 → streamBitOf order v k = streamBitOf order w k) : v = w := by
  refine BitVec.eq_of_getLsbD_eq fun i hi => ?_
  cases order with
  | msb => simpa [streamBitOf, show 7 - (7 - i) = i by omega] using h (7 - i) (by omega)
  | lsb => exact h i hi

theorem eq_ff_iff {order : Order} {v : Byte} : v = 0xFF ↔ ∀ k, k < 8 → streamBitOf order v k = true :=
  ⟨fun h _ hk => h ▸ streamBitOf_ff order hk,
    fun h => eq_of_streamBitOf fun k hk => (h k hk).trans (streamBitOf_ff order hk).symm⟩

theorem streamBitOf_zero (order : Order) (k : Nat) : streamBitOf order 0 k = false := by
  cases order <;> simp [streamBitOf]

/-! ## One bit (R124) -/

/-- `WR_ACC` with one more bit in its place. -/
def State.accWith (s : State) (order : Order) (b : Bool) : Byte := setBit s.wr.acc (bitPos order s.wr.bit) b

theorem State.streamBitOf_accWith (s : State) (order : Order) (b : Bool) {k : Nat} (hk : k < 8) :
    streamBitOf order (s.accWith order b) k = if k = s.wr.bit.toNat then b else streamBitOf order s.wr.acc k :=
  streamBitOf_setBit order s.wr.acc s.wr.bit b hk

/-- The last bit of a byte that needs no stuffing. -/
theorem wrBit_last_plain {s : State} {order : Order} {stuff b : Bool} (h7 : s.wr.bit = 7)
    (hff : ¬ (stuff = true ∧ s.accWith order b = 0xFF)) :
    wrBit order stuff b s =
      if s.dst.len.toNat < s.wr.byte.toNat + 1 then none
      else some { s.dstBytes s.wr.byte.toNat [s.accWith order b] with
        wr := { byte := s.wr.byte + 1, bit := 0, acc := 0 } } := by
  have hplain : (stuff && s.accWith order b == 0xFF) = false := by simpa using hff
  unfold State.accWith at hplain
  simp only [wrBit, if_pos h7, hplain]
  rfl

/-- The last bit of an `0xFF` with stuffing on. -/
theorem wrBit_last_stuffed {s : State} {order : Order} {b : Bool} (h7 : s.wr.bit = 7)
    (hff : s.accWith order b = 0xFF) :
    wrBit order true b s =
      if s.dst.len.toNat < s.wr.byte.toNat + 2 then none
      else some { s.dstBytes s.wr.byte.toNat [0xFF, 0x00] with
        wr := { byte := s.wr.byte + 2, bit := 0, acc := 0 } } := by
  unfold State.accWith at hff
  simp only [wrBit, if_pos h7, hff]
  rfl

/-- What memory reads as after a byte and its stuffed zero have been stored. -/
theorem read_dstBytes_pair {s : State} (hm : s.mem.wf) (hd : s.dst.fits = true) {o : Nat}
    (ho : o + 2 ≤ s.dst.len.toNat) (v w : Byte) (a : Word) :
    (s.dstBytes o [v, w]).mem.read a =
      if a = s.dst.addr o then v else if a = s.dst.addr (o + 1) then w else s.mem.read a := by
  have hne : s.dst.addr o ≠ s.dst.addr (o + 1) := fun h => by
    have := Window.addr_inj hd (by omega) (by omega) h
    omega
  simp only [State.dstBytes, State.dstByte, Memory.read_write (Memory.write_wf hm _ _), Memory.read_write hm]
  by_cases h : a = s.dst.addr o
  · simp [h, hne]
  · simp [h]

/-! ## Lists of bits (R125) -/

theorem bitsOf_eq (order : Order) (n v : Nat) : bitsOf order n v = (List.range n).map (bitOf order n v) := by
  cases order <;> rfl

theorem padBits_eq (pad : Bool) (k : BitVec 3) :
    padBits pad k = (List.range ((8 - k.toNat) % 8)).map fun _ => pad := by
  simp [padBits]

/-- After bits that are all accepted the next is written from where they leave off. -/
theorem writeBits_append {order : Order} {stuff : Bool} {as : List Bool} {s u : State}
    (h : writeBits order stuff as s = (u, .ok)) (bs : List Bool) :
    writeBits order stuff (as ++ bs) s = writeBits order stuff bs u := by
  induction as generalizing s with
  | nil =>
    obtain rfl : s = u := congrArg Prod.fst h
    rfl
  | cons a as ih =>
    simp only [List.cons_append, writeBits] at h ⊢
    split at h
    · simp at h
    · exact ih h

/-! ## The bits accepted so far -/

section

variable {s u : State} {order : Order} {stuff : Bool} {n : Nat} {bit : Nat → Bool}

@[simp] theorem State.begun_appendedBit (s : State) (w : Word) : (s.begun w).appendedBit = s.appendedBit := rfl

theorem State.appends_zero (s : State) (order : Order) (bit : Nat → Bool) : s.appends s order 0 bit := by
  have hbit := s.wr.bit.isLt
  refine ⟨by omega, by omega, fun k _ => ?_, fun j hj => by omega, fun _ _ => rfl⟩
  have h0 : (s.wr.bit.toNat + 0) / 8 = 0 := by omega
  simp only [State.appendedBit, h0, show (s.wr.bit.toNat + 0) % 8 = s.wr.bit.toNat by omega]
  by_cases hk : k < s.wr.bit.toNat <;> simp [hk]

/-- The bits of the byte under assembly once bit `n` is in its place. -/
theorem State.appends.streamBitOf_accWith (h : s.appends u order n bit) {k : Nat}
    (hk : k ≤ (s.wr.bit.toNat + n) % 8) :
    streamBitOf order (u.accWith order (bit n)) k = s.appendedBit order bit ((s.wr.bit.toNat + n) / 8 * 8 + k) := by
  obtain ⟨-, hbit, hacc, -, -⟩ := h
  rw [State.streamBitOf_accWith _ _ _ (by omega), hbit, hacc k (by omega)]
  by_cases hlast : k = (s.wr.bit.toNat + n) % 8
  · rw [if_pos hlast, State.appendedBit, if_neg (by omega)]
    congr 1
    omega
  · rw [if_neg hlast, if_pos (by omega)]

/-- A bit that does not complete a byte waits in `WR_ACC`. -/
theorem State.appends.inner (h : s.appends u order n bit) (hbit : (s.wr.bit.toNat + n) % 8 ≠ 7) :
    ∃ t, wrBit order stuff (bit n) u = some t ∧ s.appends t order (n + 1) bit := by
  have hacc := fun k => h.streamBitOf_accWith (k := k)
  obtain ⟨hbyte, hubit, huacc, hstored, hframe⟩ := h
  have h7 : u.wr.bit ≠ 7 := fun e => hbit (by rw [← hubit, e]; rfl)
  have hdiv : (s.wr.bit.toNat + (n + 1)) / 8 = (s.wr.bit.toNat + n) / 8 := by omega
  have hmod : (s.wr.bit.toNat + (n + 1)) % 8 = (s.wr.bit.toNat + n) % 8 + 1 := by omega
  refine ⟨_, wrBit_of_inner h7 order stuff (bit n), ?_⟩
  rw [State.appends, hdiv, hmod]
  refine ⟨hbyte, ?_, fun k hk => ?_, hstored, hframe⟩
  · simp only [BitVec.toNat_add, hubit, BitVec.reduceToNat]
    omega
  · by_cases hlt : k < (s.wr.bit.toNat + n) % 8 + 1
    · rw [if_pos hlt]
      exact hacc k (by omega)
    · rw [if_neg hlt]
      refine (State.streamBitOf_accWith u order (bit n) hk).trans ?_
      rw [if_neg (by omega), huacc k hk, if_neg (by omega)]

/-- A bit that completes a byte which fits, and is no `0xFF` if stuffing is on, stores it. -/
theorem State.appends.last (h : s.appends u order n bit) (hd : s.dst.fits = true) (hdst : u.dst = s.dst)
    (hm : u.mem.wf) (hbit : (s.wr.bit.toNat + n) % 8 = 7)
    (hroom : s.wr.byte.toNat + (s.wr.bit.toNat + n) / 8 + 1 ≤ s.dst.len.toNat)
    (hff : stuff = true → ∃ k, k < 8 ∧ s.appendedBit order bit (8 * ((s.wr.bit.toNat + n) / 8) + k) = false) :
    ∃ t, wrBit order stuff (bit n) u = some t ∧ s.appends t order (n + 1) bit := by
  have hacc := fun k => h.streamBitOf_accWith (k := k)
  obtain ⟨hbyte, hubit, -, hstored, hframe⟩ := h
  have hlen := s.dst.len.isLt
  have h7 : u.wr.bit = 7 := BitVec.eq_of_toNat_eq (by rw [hubit, hbit]; rfl)
  have hplain : ¬ (stuff = true ∧ u.accWith order (bit n) = 0xFF) := fun ⟨hs, he⟩ => by
    obtain ⟨k, hk, hfalse⟩ := hff hs
    rw [Nat.mul_comm, ← hacc k (by omega), he, streamBitOf_ff order hk] at hfalse
    cases hfalse
  have hdiv : (s.wr.bit.toNat + (n + 1)) / 8 = (s.wr.bit.toNat + n) / 8 + 1 := by omega
  have hmod : (s.wr.bit.toNat + (n + 1)) % 8 = 0 := by omega
  have hstore : u.dst.addr u.wr.byte.toNat = s.dst.addr (s.wr.byte.toNat + (s.wr.bit.toNat + n) / 8) := by
    rw [hdst, hbyte]
  rw [wrBit_last_plain h7 hplain, if_neg (by rw [hdst]; omega)]
  refine ⟨_, rfl, ?_⟩
  rw [State.appends, hdiv, hmod]
  simp only [State.dstBytes, State.dstByte, hstore, Memory.read_write hm]
  refine ⟨?_, rfl, fun k _ => ?_, fun j hj k hk => ?_, fun a ha => ?_⟩
  · simp only [BitVec.toNat_add, hbyte, BitVec.reduceToNat]
    omega
  · exact streamBitOf_zero order k
  · by_cases hlast : j = (s.wr.bit.toNat + n) / 8
    · rw [if_pos (by rw [hlast]), hacc k (by omega), hlast, Nat.mul_comm]
    · rw [if_neg fun e => ?_]
      · exact hstored j (by omega) k hk
      · have := Window.addr_inj hd (by omega) (by omega) e
        omega
  · rw [if_neg (ha _ (by omega))]
    exact hframe a fun j hj => ha j (by omega)

/-- Nothing but the write cursor changes while no byte is complete. -/
theorem State.appends.mem_eq (h : s.appends u order n bit) (hm : s.mem.wf) (hmu : u.mem.wf)
    (hn : s.wr.bit.toNat + n < 8) : u.mem = s.mem := by
  obtain ⟨-, -, -, -, hframe⟩ := h
  exact Memory.ext hmu hm fun a => hframe a fun j hj => absurd hj (by omega)

/-- No bits leave the write cursor as it is. -/
theorem State.appends.wr_eq (h : s.appends u order 0 bit) : u.wr = s.wr := by
  obtain ⟨hbyte, hbit, hacc, -, -⟩ := h
  have hs := s.wr.bit.isLt
  have hdiv : (s.wr.bit.toNat + 0) / 8 = 0 := by omega
  have hmod : (s.wr.bit.toNat + 0) % 8 = s.wr.bit.toNat := by omega
  rw [hdiv] at hbyte hacc
  rw [hmod] at hbit hacc
  have hacc' : u.wr.acc = s.wr.acc := eq_of_streamBitOf fun k hk => by
    rw [hacc k hk]
    split
    · next hlt => rw [State.appendedBit, if_pos (by omega), Nat.zero_mul, Nat.zero_add]
    · simp
  rw [show u.wr = ⟨u.wr.byte, u.wr.bit, u.wr.acc⟩ from rfl, BitVec.eq_of_toNat_eq hbyte, BitVec.eq_of_toNat_eq hbit,
    hacc']

/-- A bit with room is accepted. -/
theorem State.appends.succ (h : s.appends u order n bit) (hd : s.dst.fits = true) (hdst : u.dst = s.dst)
    (hm : u.mem.wf) (hroom : s.roomFor order stuff (n + 1) bit) :
    ∃ t, wrBit order stuff (bit n) u = some t ∧ s.appends t order (n + 1) bit := by
  obtain ⟨hfit, hff⟩ := hroom
  by_cases hbit : (s.wr.bit.toNat + n) % 8 = 7
  · exact h.last hd hdst hm hbit (by omega) fun hs => hff hs _ (by omega)
  · exact h.inner hbit

theorem State.roomFor.mono {m : Nat} (h : s.roomFor order stuff n bit) (hmn : m ≤ n) : s.roomFor order stuff m bit :=
  ⟨by have := h.1; omega, fun hs j hj => h.2 hs j (by omega)⟩

/-- Bits with room are accepted. -/
theorem writeBits_appends (hd : s.dst.fits = true) (hm : s.mem.wf) (hroom : s.roomFor order stuff n bit) :
    ∃ u, writeBits order stuff ((List.range n).map bit) s = (u, .ok) ∧ s.appends u order n bit ∧ u.dst = s.dst ∧
      u.mem.wf := by
  induction n with
  | zero => exact ⟨s, rfl, s.appends_zero order bit, rfl, hm⟩
  | succ n ih =>
    obtain ⟨u, hu, happ, hdst, hmu⟩ := ih (hroom.mono n.le_succ)
    obtain ⟨t, ht, happ'⟩ := happ.succ hd hdst hmu hroom
    refine ⟨t, ?_, happ', ?_, wrBit_wf ht hmu⟩
    · rw [List.range_succ, List.map_append, writeBits_append hu]
      simp [writeBits, ht]
    · rw [wrBit_eq ht, ← hdst]

/-- The bit that completes a byte without room is refused. -/
theorem State.appends.refused {j : Nat} (hroom : s.refusedAt order stuff n bit j)
    (h : s.appends u order (8 * j + 7 - s.wr.bit.toNat) bit) (hdst : u.dst = s.dst) :
    wrBit order stuff (bit (8 * j + 7 - s.wr.bit.toNat)) u = none := by
  have hacc := fun k => h.streamBitOf_accWith (k := k)
  obtain ⟨hbyte, hubit, -, -, -⟩ := h
  obtain ⟨-, -, hfull⟩ := hroom
  have hs := s.wr.bit.isLt
  have hdiv : (s.wr.bit.toNat + (8 * j + 7 - s.wr.bit.toNat)) / 8 = j := by omega
  have hmod : (s.wr.bit.toNat + (8 * j + 7 - s.wr.bit.toNat)) % 8 = 7 := by omega
  rw [hdiv, hmod] at hacc
  have h7 : u.wr.bit = 7 := BitVec.eq_of_toNat_eq (by rw [hubit, hmod]; rfl)
  by_cases hff : stuff = true ∧ u.accWith order (bit (8 * j + 7 - s.wr.bit.toNat)) = 0xFF
  · obtain ⟨rfl, hff⟩ := hff
    rw [wrBit_last_stuffed h7 hff, if_pos (by rw [hdst, hbyte, hdiv]; omega)]
  · have hplain : s.dst.len.toNat < s.wr.byte.toNat + j + 1 := hfull.resolve_right fun ⟨hst, hones, _⟩ => by
      refine hff ⟨hst, (eq_ff_iff (order := order)).mpr fun k hk => ?_⟩
      rw [hacc k (by omega), Nat.mul_comm]
      exact hones k hk
    rw [wrBit_last_plain h7 hff, if_pos (by rw [hdst, hbyte, hdiv]; omega)]

/-- Bits without room are accepted up to the one that completes the byte that does not fit. -/
theorem writeBits_refused {j : Nat} (hd : s.dst.fits = true) (hm : s.mem.wf)
    (hroom : s.refusedAt order stuff n bit j) :
    ∃ u, writeBits order stuff ((List.range n).map bit) s = (u.setDstfull, .truncatedData) ∧
      s.appends u order (8 * j + 7 - s.wr.bit.toNat) bit ∧ u.mem.wf := by
  have hs := s.wr.bit.isLt
  obtain ⟨hj, hbefore, -⟩ := id hroom
  have hfit : s.roomFor order stuff (8 * j + 7 - s.wr.bit.toNat) bit := by
    have hdiv : (s.wr.bit.toNat + (8 * j + 7 - s.wr.bit.toNat)) / 8 = j := by omega
    refine ⟨?_, fun hst i hi => (hbefore i (by omega)).2 hst⟩
    rw [hdiv]
    by_cases h0 : j = 0
    · exact .inl (by omega)
    · have := (hbefore (j - 1) (by omega)).1
      exact .inr (by omega)
  obtain ⟨u, hu, happ, hdst, hmu⟩ := writeBits_appends hd hm hfit
  refine ⟨u, ?_, happ, hmu⟩
  obtain ⟨m, hn⟩ := Nat.exists_eq_add_of_lt (show 8 * j + 7 - s.wr.bit.toNat < n by omega)
  rw [hn, Nat.add_assoc, List.range_add, List.map_append, writeBits_append hu, List.range_succ_eq_map]
  simp [writeBits, happ.refused hroom hdst]

end

/-! ## The life of a command that writes bits -/

/-- How the state looks after a command whose bits were all accepted. -/
theorem complete_of_accepted {i : Instr} {order : Order} {stuff : Bool} {bs : List Bool} {s u : State}
    (h : writeBits order stuff bs (s.begun (encode i)) = (u, .ok)) :
    u.complete .ok = { s.endedOk i with wr := u.wr, mem := u.mem } := by
  rcases writeBits_eq order stuff bs (s.begun (encode i)) with ⟨-, hu⟩ | ⟨he, -⟩
  · rw [h] at hu
    rw [State.complete, congrArg State.status hu, State.endedOk, State.ended, ← Status.cleared_finished]
    exact congrArg (fun v : State => { v with status := (s.begun (encode i)).status.finished .ok }) hu
  · simp [h] at he

/-- How the state looks after a command one of whose bits was refused. -/
theorem complete_of_refused {i : Instr} {order : Order} {stuff : Bool} {bs : List Bool} {s u : State}
    (h : writeBits order stuff bs (s.begun (encode i)) = (u, .truncatedData)) :
    u.complete .truncatedData =
      { s.ended i .truncatedData true false false with wr := u.wr, mem := u.mem } := by
  rcases writeBits_eq order stuff bs (s.begun (encode i)) with ⟨he, -⟩ | ⟨-, hu⟩
  · simp [h] at he
  · rw [h] at hu
    rw [State.complete, congrArg State.status hu, State.ended, ← Status.finished_of_flags]
    exact congrArg (fun v : State => { v with
      status := (s.begun (encode i)).setDstfull.status.finished .truncatedData }) hu

end Sys2Proof.Machine

namespace Sys2Proof

open Machine

/-- On state `s` the command is the life of a command (R314) around writing `n` bits. -/
def Instr.Writes (i : Instr) (s : State) (order : Order) (stuff : Bool) (n : Nat) (bit : Nat → Bool) : Prop :=
  exec i s = .next
    ((writeBits order stuff ((List.range n).map bit) (s.begun (encode i))).1.complete
      (writeBits order stuff ((List.range n).map bit) (s.begun (encode i))).2)

namespace Instr.Writes

variable {i : Instr} {s u : State} {order : Order} {stuff : Bool} {n : Nat} {bit : Nat → Bool} {e : ResultCode}

theorem exec_eq (h : i.Writes s order stuff n bit)
    (hu : writeBits order stuff ((List.range n).map bit) (s.begun (encode i)) = (u, e)) :
    exec i s = .next (u.complete e) := by
  rw [show exec i s = _ from h, hu]

/-- With room the command appends its bits. -/
theorem appends (h : i.Writes s order stuff n bit) (hd : s.dst.fits = true) (hm : s.mem.wf)
    (hroom : s.roomFor order stuff n bit) :
    ∃ t, exec i s = .next t ∧ t = { s.endedOk i with wr := t.wr, mem := t.mem } ∧ s.appends t order n bit := by
  obtain ⟨u, hu, happ, -, -⟩ := writeBits_appends (s := s.begun (encode i)) hd hm hroom
  exact ⟨u.complete .ok, h.exec_eq hu, complete_of_accepted hu, happ⟩

/-- Without room it keeps the bits before the one that is refused. -/
theorem refused {j : Nat} (h : i.Writes s order stuff n bit) (hd : s.dst.fits = true) (hm : s.mem.wf)
    (hroom : s.refusedAt order stuff n bit j) :
    ∃ t, exec i s = .next t ∧
      t = { s.ended i .truncatedData true false false with wr := t.wr, mem := t.mem } ∧
      s.appends t order (8 * j + 7 - s.wr.bit.toNat) bit ∧ t.mem.wf := by
  obtain ⟨u, hu, happ, hmu⟩ := writeBits_refused (s := s.begun (encode i)) hd hm hroom
  exact ⟨u.setDstfull.complete .truncatedData, h.exec_eq hu, complete_of_refused hu, happ, hmu⟩

/-- Where the bits complete just the pending byte to an `0xFF`, with stuffing on and room for two bytes, the command
stores it with its stuffed zero (R124). -/
theorem stuffed (h : i.Writes s order true (8 - s.wr.bit.toNat) bit) (hd : s.dst.fits = true) (hm : s.mem.wf)
    (hroom : s.wr.byte.toNat + 2 ≤ s.dst.len.toNat) (hones : ∀ k, k < 8 → s.appendedBit order bit k = true) :
    ∃ t, exec i s = .next t ∧
      t = { s.endedOk i with wr := { byte := s.wr.byte + 2, bit := 0, acc := 0 }, mem := t.mem } ∧
      ∀ a, t.mem.read a =
        if a = s.dst.addr s.wr.byte.toNat then 0xFF
        else if a = s.dst.addr (s.wr.byte.toNat + 1) then 0x00 else s.mem.read a := by
  have hs := s.wr.bit.isLt
  have hinner : (s.begun (encode i)).roomFor order true (7 - s.wr.bit.toNat) bit :=
    ⟨.inl (show s.wr.bit.toNat + _ < 8 by omega),
      fun _ j hj => absurd hj (show ¬ j < (s.wr.bit.toNat + _) / 8 by omega)⟩
  obtain ⟨u, hu, happ, hdst, hmu⟩ := writeBits_appends (s := s.begun (encode i)) hd hm hinner
  have hdiv : (s.wr.bit.toNat + (7 - s.wr.bit.toNat)) / 8 = 0 := by omega
  have hmod : (s.wr.bit.toNat + (7 - s.wr.bit.toNat)) % 8 = 7 := by omega
  have hff : u.accWith order (bit (7 - s.wr.bit.toNat)) = 0xFF := (eq_ff_iff (order := order)).mpr fun k hk => by
    rw [happ.streamBitOf_accWith (show k ≤ (s.wr.bit.toNat + _) % 8 by omega)]
    simpa [hdiv] using hones k hk
  obtain ⟨hbyte, hubit, -, -, hframe⟩ := happ
  simp only [State.begun_wr, hdiv, hmod, Nat.add_zero] at hbyte hubit
  have hubyte : u.wr.byte = s.wr.byte := BitVec.eq_of_toNat_eq hbyte
  have hlast := wrBit_last_stuffed (BitVec.eq_of_toNat_eq hubit : u.wr.bit = 7) hff
  rw [hdst, hubyte, if_neg (by simpa using hroom)] at hlast
  have hwrite : writeBits order true ((List.range (8 - s.wr.bit.toNat)).map bit) (s.begun (encode i)) =
      ({ u.dstBytes s.wr.byte.toNat [0xFF, 0x00] with wr := { byte := s.wr.byte + 2, bit := 0, acc := 0 } }, .ok) := by
    rw [show 8 - s.wr.bit.toNat = 7 - s.wr.bit.toNat + 1 by omega, List.range_succ, List.map_append,
      writeBits_append hu]
    simp [writeBits, hlast]
  refine ⟨_, h.exec_eq hwrite, complete_of_accepted hwrite, fun a => ?_⟩
  have hread := read_dstBytes_pair (s := u) hmu (hdst ▸ hd) (hdst ▸ hroom) 0xFF 0x00 a
  rw [hdst, hframe a fun j hj => absurd hj (show ¬ j < (s.wr.bit.toNat + _) / 8 by omega)] at hread
  exact hread

end Instr.Writes

namespace Machine

/-- `BS.WR` writes the `N` low bits of `ARG0` (R127). -/
theorem bsWr_writes {order : Order} {stuff : Bool} {n : BitVec 6} {s : State}
    (hi : (Instr.bsWr order stuff n).wellFormed = true) (hd : s.dst.fits = true) :
    (Instr.bsWr order stuff n).Writes s order stuff n.toNat (bitOf order n.toNat s.arg0.toNat) := by
  rw [Instr.Writes, exec_of_ok (by simp) (by simp) hi (by simp [windowsOk, Instr.usesSrc, hd]), ← bitsOf_eq]
  rfl

/-- `BS.FLUSH` writes the pad bits that complete the pending byte (R128). -/
theorem bsFlush_writes {order : Order} {stuff pad : Bool} {s : State}
    (hi : (Instr.bsFlush order stuff pad).wellFormed = true) (hd : s.dst.fits = true) :
    (Instr.bsFlush order stuff pad).Writes s order stuff ((8 - s.wr.bit.toNat) % 8) fun _ => pad := by
  rw [Instr.Writes, exec_of_ok (by simp) (by simp) hi (by simp [windowsOk, Instr.usesSrc, hd]), ← padBits_eq]
  rfl

/-! ## The obligations about `BS.WR` and `BS.FLUSH` -/

/-- Settles O28, bit by bit from `State.appends.succ`. -/
theorem bsWrAppends : Obligations.BsWrAppends :=
  fun _ _ _ _ hi hd hm hroom => (bsWr_writes hi hd).appends hd hm hroom

/-- `BS.WR` keeps the bits before the one that completes a byte that does not fit. -/
theorem bsWr_refused {order : Order} {stuff : Bool} {n : BitVec 6} {s : State} {j : Nat}
    (hi : (Instr.bsWr order stuff n).wellFormed = true) (hd : s.dst.fits = true) (hm : s.mem.wf)
    (hroom : s.refusedAt order stuff n.toNat (bitOf order n.toNat s.arg0.toNat) j) :
    ∃ t, exec (.bsWr order stuff n) s = .next t ∧
      t = { s.ended (.bsWr order stuff n) .truncatedData true false false with wr := t.wr, mem := t.mem } ∧
      s.appends t order (8 * j + 7 - s.wr.bit.toNat) (bitOf order n.toNat s.arg0.toNat) := by
  obtain ⟨t, ht, heq, happ, -⟩ := (bsWr_writes hi hd).refused hd hm hroom
  exact ⟨t, ht, heq, happ⟩

/-- Settles O29. Without stuffing the byte that does not fit is the first past the end of the window, so the first
clause is a case of the second. -/
theorem bsWrFull : Obligations.BsWrFull := by
  intro order n s hn hd hm
  have hi : ∀ stuff, legalStuffing order stuff = true → (Instr.bsWr order stuff n).wellFormed = true :=
    fun stuff hst => by simp [Instr.wellFormed, hn, hst]
  refine ⟨fun hwhole hfull => ?_, fun stuff j hst hroom => bsWr_refused (hi stuff hst) hd hm hroom⟩
  exact bsWr_refused (j := s.dst.len.toNat - s.wr.byte.toNat) (hi false rfl) hd hm
    ⟨by omega, fun k hk => ⟨by omega, by simp⟩, .inl (by omega)⟩

/-- Settles O30: the pending bits and the one written make up the `0xFF`. -/
theorem stuffedWrite : Obligations.StuffedWrite := by
  intro s hd hm h7 hacc harg
  have h7' : s.wr.bit.toNat = 7 := by rw [h7]; rfl
  have hwrites := bsWr_writes (order := .msb) (stuff := true) (n := 1) (s := s) (by decide) hd
  have hones : ∀ k, k < 8 → s.appendedBit .msb (bitOf .msb 1 s.arg0.toNat) k = true := fun k hk => by
    rw [State.appendedBit, h7']
    by_cases hlt : k < 7
    · have hbit := congrArg (fun v : Byte => v.getLsbD (7 - k)) hacc
      rw [if_pos hlt]
      have hff := streamBitOf_ff .msb hk
      have hone : (1#8).getLsbD (7 - k) = false := by simp [show 7 - k ≠ 0 by omega]
      simpa [streamBitOf, hone] using hbit.trans hff
    · rw [if_neg hlt, show k - 7 = 0 by omega]
      exact harg
  refine ⟨fun hroom => ?_, fun hfull => ?_⟩
  · exact Instr.Writes.stuffed (by rw [h7']; exact hwrites) hd hm hroom hones
  · obtain ⟨t, ht, heq, happ, hmt⟩ := hwrites.refused (j := 0) hd hm
      ⟨by rw [h7']; decide, by simp, .inr ⟨rfl, by simpa using hones, hfull⟩⟩
    rw [h7'] at happ
    rw [happ.mem_eq hm hmt (by omega), happ.wr_eq] at heq
    exact ht.trans (congrArg _ heq)

/-- Settles O31: with room the pad bits are appended, to an `0xFF` with its stuffed zero if there is one, and without
room those before the last wait in `WR_ACC`. -/
theorem bsFlushCompletes : Obligations.BsFlushCompletes := by
  intro order stuff pad s hi hd hm
  have hwrites := bsFlush_writes hi hd
  have hs := s.wr.bit.isLt
  refine ⟨hwrites.appends hd hm, fun hst hne hroom hones => ?_, fun hroom => ?_⟩
  · subst hst
    have hpos : s.wr.bit.toNat ≠ 0 := fun h => hne (BitVec.eq_of_toNat_eq h)
    rw [show (8 - s.wr.bit.toNat) % 8 = 8 - s.wr.bit.toNat by omega] at hwrites
    exact hwrites.stuffed hd hm hroom hones
  · obtain ⟨t, ht, heq, happ, hmt⟩ := hwrites.refused hd hm hroom
    rw [happ.mem_eq hm hmt (by omega)] at heq
    exact ⟨t, ht, heq, by simpa using happ⟩

end Machine

end Sys2Proof
end

