-- ==== Sys2Proof/Proofs/BitRoundTrip.lean ====
section
/-!
PROOF. What the bit writer has written the bit reader reads back (R125): as bits are written, the write cursor goes
through the positions at which the reader will find them.
-/

namespace Sys2Proof.Machine

/-! ## The number that the low bits of a number stand for -/

/-- The `n` low bits of `v`, in the order `WriteBits` appends them, are assembled to `v` modulo `2 ^ n` (R122, R125). -/
theorem numberOf_bitOf (order : Order) (n v : Nat) : numberOf order n (bitOf order n v) = v % 2 ^ n := by
  induction n with
  | zero => simp [numberOf, Nat.mod_one]
  | succ n ih =>
    rw [Nat.mod_pow_succ, ← Nat.toNat_testBit, ← ih]
    cases order with
    | lsb =>
      rw [numberOf_lsb_succ, Nat.mul_comm]
      rfl
    | msb =>
      have hrest : (fun j => (bitOf .msb (n + 1) v j).toNat * 2 ^ bitWeight .msb (n + 1) j) ∘ Nat.succ =
          fun j => (bitOf .msb n v j).toNat * 2 ^ bitWeight .msb n j := funext fun j => by
        simp only [Function.comp, bitOf, bitWeight, show n + 1 - 1 - j.succ = n - 1 - j by omega]
      rw [numberOf, List.range_succ_eq_map, List.map_cons, List.sum_cons, List.map_map, hrest, Nat.mul_comm,
        Nat.add_comm]
      rfl

/-! ## What the reader finds where the writer has been -/

/-- The position of the write cursor, as a read cursor. -/
def State.wrPos (s : State) : ReadCursor := { byte := s.wr.byte, bit := s.wr.bit }

/-- The byte source `src` holds what the write cursor of `s` has stored, and at the cursor a byte that the pending bits
of `WR_ACC` begin, with a stuffed zero if it needs one. -/
structure State.ReadBack (s : State) (src : Nat → Option Byte) (order : Order) (stuff : Bool) : Prop where
  stored : ∀ i, i < s.wr.byte.toNat → i < s.dst.len.toNat → src i = some (s.mem.read (s.dst.addr i))
  pending : s.wr.bit ≠ 0 → ∃ v, src s.wr.byte.toNat = some v ∧
    (stuff = true → v = 0xFF → src (s.wr.byte.toNat + 1) = some 0x00) ∧
    ∀ k, k < s.wr.bit.toNat → streamBitOf order v k = streamBitOf order s.wr.acc k

section

variable {s t : State} {src : Nat → Option Byte} {order : Order} {stuff b : Bool}

/-- The source as the reader will find it, read through a bit that waits in `WR_ACC`. -/
theorem State.ReadBack.of_inner (h7 : s.wr.bit ≠ 7)
    (h : State.ReadBack { s with wr := { s.wr with bit := s.wr.bit + 1, acc := s.accWith order b } } src order stuff) :
    s.ReadBack src order stuff ∧
      rdBit src order stuff s.wrPos = (.bit b, { byte := s.wr.byte, bit := s.wr.bit + 1 }) := by
  have hs := s.wr.bit.isLt
  have hlt : s.wr.bit.toNat ≠ 7 := fun e => h7 (BitVec.eq_of_toNat_eq e)
  have hnext : (s.wr.bit + 1).toNat = s.wr.bit.toNat + 1 := by
    simp only [BitVec.toNat_add, BitVec.reduceToNat]
    omega
  obtain ⟨v, hv, hstuffed, hbits⟩ := h.pending fun e => by
    rw [show s.wr.bit + 1 = 0 from e] at hnext
    cases hnext
  have hbit : ∀ k, k < s.wr.bit.toNat + 1 →
      streamBitOf order v k = if k = s.wr.bit.toNat then b else streamBitOf order s.wr.acc k := fun k hk => by
    rw [← s.streamBitOf_accWith order b (by omega)]
    exact hbits k (hnext ▸ hk)
  refine ⟨⟨h.stored, fun _ => ⟨v, hv, hstuffed, fun k hk => ?_⟩⟩, ?_⟩
  · rw [hbit k (by omega), if_neg (by omega)]
  · refine (rdBit_of_data (c := s.wrPos) hv hstuffed).trans ?_
    rw [show s.wrPos.bit.toNat = s.wr.bit.toNat from rfl, hbit _ (by omega), if_pos rfl, ReadCursor.advance,
      if_neg (show s.wrPos.bit ≠ 7 from h7)]
    rfl

/-- The same for a bit that completes a byte, stored with its stuffed zero if it needs one. -/
theorem State.ReadBack.of_last (h7 : s.wr.bit = 7) (hm : s.mem.wf) (hd : s.dst.fits = true) {out : List Byte}
    (hout : out = if stuff = true ∧ s.accWith order b = 0xFF then [0xFF, 0x00] else [s.accWith order b])
    (hroom : s.wr.byte.toNat + out.length ≤ s.dst.len.toNat)
    (h : State.ReadBack { s.dstBytes s.wr.byte.toNat out with
      wr := { byte := s.wr.byte + BitVec.ofNat 32 out.length, bit := 0, acc := 0 } } src order stuff) :
    s.ReadBack src order stuff ∧
      rdBit src order stuff s.wrPos = (.bit b, { byte := s.wr.byte + BitVec.ofNat 32 out.length, bit := 0 }) := by
  have hlen := s.dst.len.isLt
  have h7' : s.wr.bit.toNat = 7 := by rw [h7]; rfl
  have hnext : (s.wr.byte + BitVec.ofNat 32 out.length).toNat = s.wr.byte.toNat + out.length := by
    rw [BitVec.toNat_add, BitVec.toNat_ofNat]
    omega
  have hstored : ∀ i, i < s.wr.byte.toNat + out.length →
      src i = some ((s.dstBytes s.wr.byte.toNat out).mem.read (s.dst.addr i)) := fun i hi => by
    have hi' := h.stored i (hnext ▸ hi) (by simp only [dstBytes_dst]; omega)
    simpa using hi'
  have hnew : ∀ j, j < out.length → src (s.wr.byte.toNat + j) = some (out.getD j 0) := fun j hj => by
    rw [hstored _ (by omega), dstBytes_read hm hd hroom hj]
  have hfirst : 0 < out.length ∧ out.getD 0 0 = s.accWith order b ∧
      (stuff = true → s.accWith order b = 0xFF → 1 < out.length ∧ out.getD 1 0 = 0x00) ∧
      BitVec.ofNat 32 out.length = if stuff = true ∧ s.accWith order b = 0xFF then 2 else 1 := by
    by_cases hff : stuff = true ∧ s.accWith order b = 0xFF
    · simp [hout, hff]
    · rw [hout, if_neg hff, if_neg hff]
      exact ⟨by simp, rfl, fun h1 h2 => absurd ⟨h1, h2⟩ hff, rfl⟩
  obtain ⟨hpos, hacc, hzero, hskip⟩ := hfirst
  have hv : src s.wr.byte.toNat = some (s.accWith order b) := hacc ▸ hnew 0 hpos
  have hstuffed : stuff = true → s.accWith order b = 0xFF → src (s.wr.byte.toNat + 1) = some 0x00 := fun h1 h2 => by
    obtain ⟨hlt, h0⟩ := hzero h1 h2
    rw [hnew 1 hlt, h0]
  refine ⟨⟨fun i hi hil => ?_, fun _ => ⟨_, hv, hstuffed, fun k hk => ?_⟩⟩, ?_⟩
  · rw [hstored i (by omega), dstBytes_read_other]
    intro j hj e
    have := Window.addr_inj hd hil (by omega) e
    omega
  · rw [s.streamBitOf_accWith order b (by omega), if_neg (by omega)]
  · refine (rdBit_of_data (c := s.wrPos) hv hstuffed).trans ?_
    rw [show s.wrPos.bit.toNat = s.wr.bit.toNat from rfl, s.streamBitOf_accWith order b (by omega), if_pos rfl,
      ReadCursor.advance, if_pos (show s.wrPos.bit = 7 from h7), hskip]
    rfl

/-- Where the source holds what was written up to after a bit, it holds what was written up to before it, and the
reader finds that bit there. -/
theorem State.ReadBack.of_wrBit (hw : wrBit order stuff b s = some t) (hm : s.mem.wf) (hd : s.dst.fits = true)
    (h : t.ReadBack src order stuff) :
    s.ReadBack src order stuff ∧ rdBit src order stuff s.wrPos = (.bit b, t.wrPos) := by
  rcases wrBit_some hw with ⟨h7, rfl⟩ | ⟨h7, out, hout, hroom, rfl⟩
  · exact h.of_inner h7
  · exact h.of_last h7 hm hd hout hroom

/-- The reader goes through a run of accepted bits as the writer did. -/
theorem State.ReadBack.of_writeBits {bs : List Bool} (hw : writeBits order stuff bs s = (t, .ok)) (hm : s.mem.wf)
    (hd : s.dst.fits = true) (h : t.ReadBack src order stuff) :
    s.ReadBack src order stuff ∧ BitsAt src order stuff bs s.wrPos t.wrPos := by
  induction bs generalizing s with
  | nil =>
    obtain rfl : s = t := congrArg Prod.fst hw
    exact ⟨h, .nil _⟩
  | cons b bs ih =>
    rw [writeBits] at hw
    split at hw
    · simp at hw
    · next u hu =>
      have hdu : u.dst = s.dst := by rw [wrBit_eq hu]
      obtain ⟨hback, htail⟩ := ih hw (wrBit_wf hu hm) (hdu ▸ hd)
      obtain ⟨hback', hhead⟩ := hback.of_wrBit hu hm hd
      exact ⟨hback', .cons hhead htail⟩

end

/-! ## The write cursor after a flush -/

theorem wrBit_bit {order : Order} {stuff b : Bool} {s t : State} (h : wrBit order stuff b s = some t) :
    t.wr.bit = s.wr.bit + 1 := by
  rcases wrBit_some h with ⟨-, rfl⟩ | ⟨h7, out, -, -, rfl⟩
  · rfl
  · rw [h7]
    rfl

theorem writeBits_bit {order : Order} {stuff : Bool} {bs : List Bool} {s t : State}
    (h : writeBits order stuff bs s = (t, .ok)) : t.wr.bit = s.wr.bit + BitVec.ofNat 3 bs.length := by
  induction bs generalizing s with
  | nil =>
    obtain rfl : s = t := congrArg Prod.fst h
    simp
  | cons b bs ih =>
    rw [writeBits] at h
    split at h
    · simp at h
    · next u hu =>
      rw [ih h, wrBit_bit hu, List.length_cons, BitVec.ofNat_add, BitVec.add_assoc, BitVec.add_comm 1]
      rfl

theorem writeBits_dst {order : Order} {stuff : Bool} {bs : List Bool} {s t : State}
    (h : writeBits order stuff bs s = (t, .ok)) : t.dst = s.dst := by
  rcases writeBits_eq order stuff bs s with ⟨-, ht⟩ | ⟨he, -⟩
  · have hdst := congrArg State.dst ht
    rwa [h] at hdst
  · simp [h] at he

/-- A flush leaves no bit pending (R128). -/
theorem writeBits_padBits_bit {order : Order} {stuff pad : Bool} {s t : State}
    (h : writeBits order stuff (padBits pad s.wr.bit) s = (t, .ok)) : t.wr.bit = 0 := by
  have hs := s.wr.bit.isLt
  refine BitVec.eq_of_toNat_eq ?_
  rw [writeBits_bit h, padBits, List.length_replicate, BitVec.toNat_add, BitVec.toNat_ofNat]
  simp only [BitVec.reduceToNat]
  omega

/-! ## The obligation -/

/-- A command that ended OK was legal, its window checks passed, and its pseudocode ended OK. -/
theorem exec_ok {i : Instr} {s t : State} (hc : i ≠ .clrerr) (hs : i ≠ .sreset) (h : exec i s = .next t)
    (hok : t.status.err = .ok) :
    i.wellFormed = true ∧ windowsOk i s = true ∧ ∃ u, i.body (s.begun (encode i)) = (u, .ok) ∧ t = u.complete .ok := by
  rcases exec_cases h with ⟨hi, -⟩ | ⟨hi, -⟩ | ⟨-, -, -, rfl⟩ | ⟨-, -, hi, hw, rfl⟩
  · exact absurd hi hc
  · exact absurd hi hs
  · cases hok
  · have hcode : (i.body (s.begun (encode i))).2 = .ok := hok
    exact ⟨hi, hw, _, Prod.ext rfl hcode, by rw [hcode]⟩

/-- Once nothing is pending, a source window over the destination window holds all that was written. -/
theorem State.ReadBack.of_flushed {t r : State} (hbit : t.wr.bit = 0) (hm : r.mem = t.mem) (hs : r.src = t.dst)
    (order : Order) (stuff : Bool) : t.ReadBack r.srcByte? order stuff where
  stored i _ hi := by rw [State.srcByte?, State.srcByte, hm, hs, if_pos hi]
  pending h := absurd hbit h

/-- What was written and then flushed, in a state that has the write cursor, the destination window and the memory that
the writing left, is read back from where it was written. -/
theorem bitsAt_of_flushed {order : Order} {stuff pad : Bool} {bs : List Bool} {s u t v r : State} (hm : s.mem.wf)
    (hd : s.dst.fits = true) (hwrite : writeBits order stuff bs s = (u, .ok))
    (hwr : t.wr = u.wr) (hdst : t.dst = u.dst) (hmem : t.mem = u.mem)
    (hflush : writeBits order stuff (padBits pad t.wr.bit) t = (v, .ok)) (hrm : r.mem = v.mem) (hrs : r.src = v.dst) :
    BitsAt r.srcByte? order stuff bs s.wrPos u.wrPos := by
  have hmu : u.mem.wf := by simpa [hwrite] using writeBits_wf order stuff bs hm
  have hdu : u.dst = s.dst := writeBits_dst hwrite
  have hv : v.ReadBack r.srcByte? order stuff := .of_flushed (writeBits_padBits_bit hflush) hrm hrs order stuff
  obtain ⟨ht, -⟩ := hv.of_writeBits hflush (hmem ▸ hmu) (by rw [hdst, hdu, hd])
  have hu : u.ReadBack r.srcByte? order stuff :=
    ⟨hwr ▸ hdst ▸ hmem ▸ ht.stored, hwr ▸ ht.pending⟩
  exact (hu.of_writeBits hwrite hm hd).2

/-- Settles O32: `BS.RD` finds the bits that `BS.WR` wrote, and they stand for the low bits of `ARG0`. -/
theorem writeReadRoundTrip : Obligations.WriteReadRoundTrip := by
  intro order stuff pad zfill n s s₁ s₂ hm h₁ ok₁ h₂ ok₂
  obtain ⟨hi, hw₁, u₁, hu₁, rfl⟩ := exec_ok (by simp) (by simp) h₁ ok₁
  obtain ⟨-, hw₂, u₂, hu₂, rfl⟩ := exec_ok (by simp) (by simp) h₂ ok₂
  have hd₁ : s.dst.fits = true := (fits_of_windowsOk hw₁).2 rfl
  have hd₂ : u₂.dst.fits = true := (exec_frame (by simp) h₂).dst ▸ (fits_of_windowsOk hw₂).2 rfl
  change writeBits order stuff (bitsOf order n.toNat s.arg0.toNat) _ = _ at hu₁
  rw [bitsOf_eq] at hu₁
  have hbits := bitsAt_of_flushed (s := s.begun _) (t := (u₁.complete .ok).begun _)
    (r := { u₂.complete .ok with src := u₂.dst, rd := s.wrPos }) hm hd₁ hu₁ rfl rfl rfl hu₂ rfl rfl
  refine ⟨_, exec_bsRd_of_bitsAt hi hd₂ hbits, rfl, rfl, rfl, ?_, ?_⟩
  · have hn : n.toNat ≤ 32 := (legalBitCount_iff.mp ((Bool.and_eq_true _ _).mp hi).1).2
    have hlt : s.arg0.toNat % 2 ^ n.toNat < 2 ^ 32 :=
      (Nat.mod_lt _ (Nat.two_pow_pos _)).trans_le (Nat.pow_le_pow_right (by decide) hn)
    simpa [numberOf_bitOf] using hlt
  · exact BitVec.toNat_setWidth_of_le (by decide)

end Sys2Proof.Machine
end

