-- ==== Sys2Proof/Proofs/HuffmanTables.lean ====
section
/-!
PROOF. The tables of `HUF.BUILD` (R150 to R152): the recurrence of R151 in closed form, when it succeeds, and what the
command leaves in its slot.
-/

namespace Sys2Proof.Machine

/-! ## The counts, the codes and the positions of a length -/

/-- How many codes have length `n + 1`. -/
def countAt (counts : List Byte) (n : Nat) : Nat := (counts.getD n 0).toNat

/-- The first code of length `n + 1`: the code space that the shorter codes take up at that length (R152). -/
def codeBase (counts : List Byte) (n : Nat) : Nat := ((List.range n).map fun j => countAt counts j * 2 ^ (n - j)).sum

/-- The first position of length `n + 1`: the number of shorter codes (R151). -/
def posBase (counts : List Byte) (n : Nat) : Nat := ((List.range n).map fun j => countAt counts j).sum

theorem posBase_succ (counts : List Byte) (n : Nat) :
    posBase counts (n + 1) = posBase counts n + countAt counts n := by
  simp [posBase, List.range_succ]

theorem posBase_mono (counts : List Byte) {m n : Nat} (h : m ≤ n) : posBase counts m ≤ posBase counts n :=
  monotone_nat_of_le_succ (fun k => (posBase_succ counts k).symm ▸ Nat.le_add_right _ _) h

/-- All the codes up to length `n + 1`, as code space at that length. -/
theorem codeBase_add_countAt (counts : List Byte) (n : Nat) :
    codeBase counts n + countAt counts n =
      ((List.range (n + 1)).map fun j => countAt counts j * 2 ^ (n - j)).sum := by
  simp [codeBase, List.range_succ]

/-- One bit more doubles the code space that is taken up. -/
theorem codeBase_succ (counts : List Byte) (n : Nat) :
    codeBase counts (n + 1) = 2 * (codeBase counts n + countAt counts n) := by
  have hdouble : ∀ j ∈ List.range (n + 1),
      countAt counts j * 2 ^ (n + 1 - j) = 2 * (countAt counts j * 2 ^ (n - j)) := fun j hj => by
    have hj : n + 1 - j = n - j + 1 := by have := List.mem_range.mp hj; omega
    rw [hj, Nat.pow_succ]
    ring
  rw [codeBase_add_countAt, codeBase, List.map_congr_left hdouble, List.sum_map_mul_left]

/-- The Kraft inequality keeps the codes of each length below the end of its numbers. -/
theorem kraft_iff {counts : List Byte} :
    kraft counts ↔ ∀ n, n < counts.length → codeBase counts n + countAt counts n ≤ 2 ^ (n + 1) := by
  simp only [codeBase_add_countAt]
  rfl

theorem totalOf_eq_posBase (counts : List Byte) : totalOf counts = posBase counts counts.length := by
  rw [totalOf, posBase]
  exact congrArg List.sum (List.ext_getElem (by simp) fun j h _ => by
    rw [List.length_map] at h
    simp [countAt, h])

/-! ## The recurrence of R151 -/

/-- The row of length `n + 1`. -/
def rowAt (counts : List Byte) (n : Nat) : HuffRow where
  count := counts.getD n 0
  mincode := BitVec.ofNat 17 (codeBase counts n)
  maxcode :=
    if 0 < countAt counts n then BitVec.ofInt 18 (((codeBase counts n + countAt counts n : Nat) : Int) - 1) else -1
  valptr := BitVec.ofNat 9 (posBase counts n)

/-- From length `n + 1` on the recurrence succeeds if the Kraft inequality holds there, with the rows in closed form. -/
theorem huffRows_drop_eq_some {counts ls : List Byte} {n : Nat} (hls : counts.drop n = ls) {rows : List HuffRow} :
    huffRows ls (n + 1) (codeBase counts n) (posBase counts n) = some rows ↔
      (∀ m, n ≤ m → m < counts.length → codeBase counts m + countAt counts m ≤ 2 ^ (m + 1)) ∧
        rows = (List.range' n ls.length).map (rowAt counts) := by
  induction ls generalizing n rows with
  | nil =>
    have hn := List.drop_eq_nil_iff.mp hls
    have hkraft : ∀ m, n ≤ m → m < counts.length → codeBase counts m + countAt counts m ≤ 2 ^ (m + 1) :=
      fun m h1 h2 => absurd h2 (by omega)
    simpa [huffRows, eq_comm] using fun _ => hkraft
  | cons l ls ih =>
    have hn : n < counts.length := List.length_lt_of_drop_ne_nil (by simp [hls])
    rw [List.drop_eq_getElem_cons hn, List.cons.injEq] at hls
    obtain ⟨hl, hls⟩ := hls
    have hget : counts.getD n 0 = l := by simp [hn, hl]
    have hcount : countAt counts n = l.toNat := congrArg BitVec.toNat hget
    have hsplit : (∀ m, n ≤ m → m < counts.length → codeBase counts m + countAt counts m ≤ 2 ^ (m + 1)) ↔
        codeBase counts n + l.toNat ≤ 2 ^ (n + 1) ∧
          ∀ m, n + 1 ≤ m → m < counts.length → codeBase counts m + countAt counts m ≤ 2 ^ (m + 1) := by
      refine ⟨fun h => ⟨hcount ▸ h n n.le_refl hn, fun m hm => h m (by omega)⟩, fun ⟨h0, h⟩ m hm => ?_⟩
      rcases Nat.eq_or_lt_of_le hm with rfl | hm
      · exact fun _ => hcount ▸ h0
      · exact h m hm
    rw [huffRows, hsplit, ← hcount, ← codeBase_succ, ← posBase_succ, hcount]
    by_cases hk : codeBase counts n + l.toNat ≤ 2 ^ (n + 1)
    · have hrow : rowAt counts n = _ := rfl
      rw [if_neg (by omega), Option.map_eq_some_iff]
      simp only [ih hls, hk, true_and, List.length_cons, List.range'_succ, List.map_cons]
      simp only [rowAt, hget, hcount]
      exact ⟨fun ⟨_, ⟨hrest, hrows⟩, hcons⟩ => ⟨hrest, hrows ▸ hcons.symm⟩, fun ⟨hrest, hcons⟩ =>
        ⟨_, ⟨hrest, rfl⟩, hcons.symm⟩⟩
    · simp [hk, Nat.lt_of_not_le hk]

/-- The recurrence succeeds exactly under the Kraft inequality (R151). -/
theorem huffRows_eq_some {counts : List Byte} {rows : List HuffRow} :
    huffRows counts 1 0 0 = some rows ↔ kraft counts ∧ rows = (List.range counts.length).map (rowAt counts) := by
  have h := huffRows_drop_eq_some (counts := counts) (n := 0) rfl (rows := rows)
  simp only [Nat.zero_le, true_imp_iff, ← kraft_iff, ← List.range_eq_range'] at h
  exact h

theorem huffRows_eq_none {counts : List Byte} : huffRows counts 1 0 0 = none ↔ ¬ kraft counts := by
  simp [Option.eq_none_iff_forall_ne_some, huffRows_eq_some]

/-! ## The rows of a table -/

/-- The row is that of length `n + 1` in the table of the given counts, each field as a number (R33, R152). -/
structure HuffRow.Describes (row : HuffRow) (counts : List Byte) (n : Nat) : Prop where
  count : row.count = counts.getD n 0
  mincode : row.mincode.toNat = codeBase counts n
  valptr : row.valptr.toNat = posBase counts n
  maxcode : row.maxcode.toInt =
    if countAt counts n = 0 then -1 else (codeBase counts n : Int) + countAt counts n - 1

/-- The fields of a row are wide enough for sixteen lengths and 256 symbols. -/
theorem rowAt_describes {counts : List Byte} (hlen : counts.length = 16) (hk : kraft counts)
    (htotal : totalOf counts ≤ 256) {n : Nat} (hn : n < counts.length) : (rowAt counts n).Describes counts n := by
  have hspace := kraft_iff.mp hk n hn
  have hpow : 2 ^ (n + 1) ≤ 2 ^ 16 := Nat.pow_le_pow_right (by decide) (by omega)
  have hpos : posBase counts n ≤ 256 := (posBase_mono counts hn.le).trans (totalOf_eq_posBase counts ▸ htotal)
  refine ⟨rfl, ?_, ?_, ?_⟩
  · exact (BitVec.toNat_ofNat ..).trans (Nat.mod_eq_of_lt (by omega))
  · exact (BitVec.toNat_ofNat ..).trans (Nat.mod_eq_of_lt (by omega))
  · simp only [rowAt]
    by_cases h0 : countAt counts n = 0
    · rw [if_neg (by omega), if_pos h0]
      rfl
    · rw [if_pos (by omega), if_neg h0, BitVec.toInt_ofInt, Int.bmod_eq_of_le (by omega) (by omega)]
      omega

/-- The rows of a table of sixteen counts. -/
theorem huffRows_describes {counts : List Byte} {rows : List HuffRow} (hlen : counts.length = 16)
    (hrows : huffRows counts 1 0 0 = some rows) (htotal : totalOf counts ≤ 256) {n : Nat} {row : HuffRow}
    (hrow : rows[n]? = some row) : row.Describes counts n := by
  obtain ⟨hk, rfl⟩ := huffRows_eq_some.mp hrows
  obtain ⟨hn, rfl⟩ : n < counts.length ∧ rowAt counts n = row := by
    simpa [List.getElem?_eq_some_iff] using hrow
  exact rowAt_describes hlen hk htotal hn

/-! ## `HUF.BUILD` (R151) -/

/-- The table that the image in the source window describes. -/
def State.imageTable (s : State) : HuffTable where
  rows := (List.range 16).map (rowAt (s.srcBytes 0 16))
  total := BitVec.ofNat 9 (totalOf (s.srcBytes 0 16))
  values := s.srcBytes 16 (totalOf (s.srcBytes 0 16))

@[simp] theorem imageTable_total (s : State) : s.imageTable.total = BitVec.ofNat 9 (totalOf (s.srcBytes 0 16)) := rfl
@[simp] theorem imageTable_values (s : State) :
    s.imageTable.values = s.srcBytes 16 (totalOf (s.srcBytes 0 16)) := by rw [State.imageTable]
@[simp] theorem imageTable_rows (s : State) :
    s.imageTable.rows = (List.range 16).map (rowAt (s.srcBytes 0 16)) := rfl

@[simp] theorem imageTable_begun (s : State) (w : Word) : (s.begun w).imageTable = s.imageTable := by
  simp [State.imageTable]

theorem countAt_srcBytes (s : State) {n : Nat} (hn : n < 16) :
    countAt (s.srcBytes 0 16) n = (s.srcByte n).toNat := by
  rw [countAt, srcBytes_getD hn, Nat.zero_add]

@[simp] theorem setHuff_srcBytes (s : State) (slot : BitVec 3) (h : Option HuffTable) :
    (s.setHuff slot h).srcBytes = s.srcBytes :=
  funext₂ (srcBytes_congr (State.setHuff_mem s slot h) (State.setHuff_src s slot h))

@[simp] theorem setHuff_setHuff (s : State) (slot : BitVec 3) (h k : Option HuffTable) :
    (s.setHuff slot h).setHuff slot k = s.setHuff slot k := by
  simp [State.setHuff]

/-- A whole image in order fills the slot. -/
theorem hufBuildBody_of_image {slot : BitVec 3} {s : State} (hk : kraft (s.srcBytes 0 16))
    (htotal : totalOf (s.srcBytes 0 16) ≤ 256) (hwhole : 16 + totalOf (s.srcBytes 0 16) ≤ s.src.len.toNat) :
    hufBuildBody slot s =
      ((s.setHuff slot (some s.imageTable)).withRes (totalOf (s.srcBytes 0 16)) (16 + totalOf (s.srcBytes 0 16)),
        .ok) := by
  have hrows : huffRows (s.srcBytes 0 16) 1 0 0 = some s.imageTable.rows :=
    huffRows_eq_some.mpr ⟨hk, by rw [srcBytes_length]; rfl⟩
  have h16 : ¬ s.src.len.toNat < 16 := by omega
  simp [hufBuildBody, hrows, h16, Nat.not_lt.mpr htotal, Nat.not_lt.mpr hwhole, State.imageTable]

/-- An image without all its counts (R151). -/
theorem hufBuildBody_of_short {slot : BitVec 3} {s : State} (hshort : s.src.len.toNat < 16) :
    hufBuildBody slot s = (s.setHuff slot none, .truncatedData) := by
  simp [hufBuildBody, hshort]

/-- An image with counts that no table can have (R151). -/
theorem hufBuildBody_of_bad_counts {slot : BitVec 3} {s : State} (h16 : 16 ≤ s.src.len.toNat)
    (hbad : 256 < totalOf (s.srcBytes 0 16) ∨ ¬ kraft (s.srcBytes 0 16)) :
    hufBuildBody slot s = (s.setHuff slot none, .invalidFormat) := by
  by_cases htotal : 256 < totalOf (s.srcBytes 0 16)
  · simp [hufBuildBody, Nat.not_lt.mpr h16, htotal]
  · have hrows := huffRows_eq_none.mpr (hbad.resolve_left htotal)
    simp [hufBuildBody, Nat.not_lt.mpr h16, htotal, hrows]

/-- An image without all its symbols (R151). -/
theorem hufBuildBody_of_cut {slot : BitVec 3} {s : State} (h16 : 16 ≤ s.src.len.toNat)
    (htotal : totalOf (s.srcBytes 0 16) ≤ 256) (hk : kraft (s.srcBytes 0 16))
    (hcut : s.src.len.toNat < 16 + totalOf (s.srcBytes 0 16)) :
    hufBuildBody slot s = (s.setHuff slot none, .truncatedData) := by
  have hrows := huffRows_eq_some.mpr ⟨hk, rfl⟩
  simp [hufBuildBody, Nat.not_lt.mpr h16, Nat.not_lt.mpr htotal, hrows, hcut]

/-- A command whose pseudocode leaves the flags alone ends with none of them. -/
theorem begun_complete (i : Instr) (s : State) (e : ResultCode) :
    (s.begun (encode i)).complete e = s.ended i e false false false := by
  rw [State.ended, ← Status.cleared_finished]
  rfl

theorem exec_hufBuild {slot : BitVec 3} {s : State} (hf : s.src.fits = true) :
    exec (.hufBuild slot) s = .next
      ((hufBuildBody slot (s.begun (encode (.hufBuild slot)))).1.complete
        (hufBuildBody slot (s.begun (encode (.hufBuild slot)))).2) :=
  exec_of_ok (by simp) (by simp) rfl (by simp [windowsOk, Instr.usesSrc, Instr.usesDst, hf])

/-! ## The obligations about `HUF.BUILD` -/

/-- Settles O33: the recurrence of R151 has the closed sums as its values. -/
theorem hufBuildTable : Obligations.HufBuildTable := by
  intro slot s hf h16 htotal hk hwhole
  have hbody := hufBuildBody_of_image (slot := slot) (s := s.begun (encode (.hufBuild slot)))
    (by simpa using hk) (by simpa using htotal) (by simpa using hwhole)
  refine ⟨s.imageTable, ?_, ?_, imageTable_values s, by simp, fun l r hr => ?_⟩
  · rw [exec_hufBuild hf, hbody, State.endedOk, ← begun_complete]
    simp [State.complete, State.withRes, State.setHuff]
  · exact (BitVec.toNat_ofNat ..).trans (Nat.mod_eq_of_lt (by omega))
  · obtain ⟨hl, rfl⟩ : l < 16 ∧ rowAt (s.srcBytes 0 16) l = r := by
      simpa [List.getElem?_eq_some_iff] using hr
    have hrow := rowAt_describes (srcBytes_length s 0 16) hk htotal (by simpa using hl)
    have hcounts : ∀ j ∈ List.range l, countAt (s.srcBytes 0 16) j = (s.srcByte j).toNat := fun j hj =>
      countAt_srcBytes s (by have := List.mem_range.mp hj; omega)
    refine ⟨by rw [hrow.count, srcBytes_getD hl, Nat.zero_add], ?_, ?_, ?_⟩
    · rw [hrow.mincode, codeBase, List.map_congr_left fun j hj => congrArg (· * _) (hcounts j hj)]
    · rw [hrow.valptr, posBase, List.map_congr_left hcounts]
    · rw [hrow.maxcode, hrow.mincode, countAt_srcBytes s hl]
      simp only [BitVec.toNat_eq, BitVec.reduceToNat]

/-- Settles O34: every failing check leaves what the first step of R151 made of the slot. -/
theorem hufBuildFails : Obligations.HufBuildFails := by
  intro slot s e hf h
  have hbody : hufBuildBody slot (s.begun (encode (.hufBuild slot))) =
      ((s.begun (encode (.hufBuild slot))).setHuff slot none, e) := by
    rcases h with ⟨hshort, rfl⟩ | ⟨h16, hbad, rfl⟩ | ⟨h16, htotal, hk, hcut, rfl⟩
    · exact hufBuildBody_of_short hshort
    · exact hufBuildBody_of_bad_counts h16 (by simpa using hbad)
    · exact hufBuildBody_of_cut h16 (by simpa using htotal) (by simpa using hk) (by simpa using hcut)
  rw [exec_hufBuild hf, hbody, ← begun_complete]
  rfl

end Sys2Proof.Machine
end

