-- ==== Sys2Proof/Proofs/HuffmanCodes.lean ====
section
/-!
PROOF. The canonical codes (R153, R154): which position has which code, and why no code begins another.
-/

namespace Sys2Proof.Machine

/-! ## The rows of a table in order -/

/-- The counts of a table. -/
def HuffTable.counts (h : HuffTable) : List Byte := h.rows.map HuffRow.count

section

variable {h : HuffTable}

theorem HuffTable.wf.counts_length (hw : h.wf) : h.counts.length = 16 := by
  obtain ⟨hrows, -⟩ := hw
  rw [counts, List.length_map, hrows]

theorem HuffTable.wf.describes (hw : h.wf) {n : Nat} {row : HuffRow} (hrow : h.rows[n]? = some row) :
    row.Describes h.counts n := by
  obtain ⟨-, hrows, htotal, hle, -⟩ := id hw
  exact huffRows_describes hw.counts_length hrows (htotal ▸ hle) hrow

theorem HuffTable.wf.exists_row (hw : h.wf) {n : Nat} (hn : n < 16) :
    ∃ row, h.rows[n]? = some row ∧ row.Describes h.counts n := by
  obtain ⟨hlen, -⟩ := id hw
  exact ⟨h.rows[n], List.getElem?_eq_getElem (hlen ▸ hn), hw.describes (List.getElem?_eq_getElem _)⟩

/-- R154 (a): the codes of a length are numbers of that length. -/
theorem HuffTable.wf.kraft_le (hw : h.wf) {n : Nat} (hn : n < 16) :
    codeBase h.counts n + countAt h.counts n ≤ 2 ^ (n + 1) := by
  obtain ⟨-, hrows, -⟩ := id hw
  exact kraft_iff.mp (huffRows_eq_some.mp hrows).1 n (hw.counts_length.symm ▸ hn)

theorem HuffTable.wf.posBase_total (hw : h.wf) : posBase h.counts 16 = h.total.toNat := by
  obtain ⟨-, -, htotal, -⟩ := id hw
  rw [htotal, totalOf_eq_posBase, ← HuffTable.counts, hw.counts_length]

end

/-! ## Positions and codes (R153) -/

/-- A row is found for position `k` if and only if one of the rows has it. -/
theorem codeIn_eq_none {rows : List HuffRow} {len k : Nat} :
    codeIn rows len k = none ↔
      ∀ row ∈ rows, ¬ (row.valptr.toNat ≤ k ∧ k < row.valptr.toNat + row.count.toNat) := by
  induction rows generalizing len with
  | nil => simp [codeIn]
  | cons row rows ih =>
    rw [codeIn, List.forall_mem_cons]
    split
    · next hrow => simp [hrow]
    · next hrow => rw [ih, and_iff_right hrow]

/-- What is found is the code of `k` in a row that has it. -/
theorem codeIn_eq_some {rows : List HuffRow} {len k l code : Nat} (h : codeIn rows len k = some (l, code)) :
    ∃ n row, rows[n]? = some row ∧ l = len + n ∧ row.valptr.toNat ≤ k ∧
      k < row.valptr.toNat + row.count.toNat ∧ code = row.mincode.toNat + (k - row.valptr.toNat) := by
  induction rows generalizing len with
  | nil => simp [codeIn] at h
  | cons row rows ih =>
    rw [codeIn] at h
    split at h
    · next hrow =>
      obtain ⟨rfl, rfl⟩ := Prod.mk.inj (Option.some.inj h)
      exact ⟨0, row, rfl, rfl, hrow.1, hrow.2, rfl⟩
    · obtain ⟨n, row', hn, hl, hk⟩ := ih h
      exact ⟨n + 1, row', hn, by omega, hk⟩

/-- Position `k` is one of length `n + 1`, with the given code (R153). -/
structure CodeAt (counts : List Byte) (k n code : Nat) : Prop where
  lt : n < 16
  le : posBase counts n ≤ k
  lt_next : k < posBase counts (n + 1)
  code_eq : code = codeBase counts n + (k - posBase counts n)

/-- A position has one length and one code. -/
theorem CodeAt.unique {counts : List Byte} {k m n c d : Nat} (h : CodeAt counts k m c) (h' : CodeAt counts k n d) :
    m = n ∧ c = d := by
  have hle : ∀ {a b x y : Nat}, CodeAt counts k a x → CodeAt counts k b y → a ≤ b := fun ha hb =>
    Nat.le_of_not_lt fun hlt => by
      have := posBase_mono counts (Nat.add_one_le_of_lt hlt)
      have := ha.le
      have := hb.lt_next
      omega
  obtain rfl := Nat.le_antisymm (hle h h') (hle h' h)
  exact ⟨rfl, h.code_eq.trans h'.code_eq.symm⟩

/-- The codes of one length follow each other from the first. -/
theorem CodeAt.code_lt {counts : List Byte} {k n code : Nat} (h : CodeAt counts k n code) :
    code < codeBase counts n + countAt counts n := by
  obtain ⟨-, hle, hlt, rfl⟩ := h
  rw [posBase_succ] at hlt
  omega

theorem CodeAt.base_le {counts : List Byte} {k n code : Nat} (h : CodeAt counts k n code) :
    codeBase counts n ≤ code := h.code_eq ▸ Nat.le_add_right _ _

/-- Every position before the last length's end is one of some length. -/
theorem exists_posBase_le {counts : List Byte} {k : Nat} {N : Nat} (hk : k < posBase counts N) :
    ∃ n, n < N ∧ posBase counts n ≤ k ∧ k < posBase counts (n + 1) := by
  induction N with
  | zero => exact absurd hk (Nat.not_lt_zero k)
  | succ N ih =>
    by_cases hN : k < posBase counts N
    · obtain ⟨n, hn, hk⟩ := ih hN
      exact ⟨n, by omega, hk⟩
    · exact ⟨N, N.lt_succ_self, Nat.le_of_not_lt hN, hk⟩

section

variable {h : HuffTable}

/-- `codeof(k)` and `len(k)` of R153. -/
theorem HuffTable.wf.codeOf_eq_some (hw : h.wf) {k len code : Nat} :
    h.codeOf k = some (len, code) ↔ ∃ n, len = n + 1 ∧ CodeAt h.counts k n code := by
  have hsound : ∀ {l c : Nat}, h.codeOf k = some (l, c) → ∃ n, l = n + 1 ∧ CodeAt h.counts k n c := fun hc => by
    obtain ⟨n, row, hrow, rfl, hle, hlt, rfl⟩ := codeIn_eq_some hc
    have hd := hw.describes hrow
    obtain ⟨hlen, -⟩ := hw
    rw [hd.valptr, hd.count] at hlt
    rw [hd.valptr] at hle
    refine ⟨n, Nat.add_comm 1 n, ⟨?_, hle, (posBase_succ ..).symm ▸ hlt, by rw [hd.valptr, hd.mincode]⟩⟩
    exact hlen ▸ (List.getElem?_eq_some_iff.mp hrow).1
  refine ⟨hsound, fun ⟨n, hn, hat⟩ => ?_⟩
  cases hc : h.codeOf k with
  | none =>
    obtain ⟨row, hrow, hd⟩ := hw.exists_row hat.lt
    refine absurd ⟨hd.valptr ▸ hat.le, ?_⟩ (codeIn_eq_none.mp hc row (List.mem_of_getElem? hrow))
    rw [hd.valptr, hd.count]
    exact posBase_succ h.counts n ▸ hat.lt_next
  | some p =>
    obtain ⟨n', hl, hat'⟩ := hsound (l := p.1) (c := p.2) hc
    obtain ⟨rfl, hcode⟩ := hat.unique hat'
    rw [hn, hcode, ← hl]

/-- A code is a number of its length (R154 (a)). -/
theorem HuffTable.wf.code_lt (hw : h.wf) {k n code : Nat} (hat : CodeAt h.counts k n code) : code < 2 ^ (n + 1) :=
  hat.code_lt.trans_le (hw.kraft_le hat.lt)

/-- The positions that have a code are those below `total`. -/
theorem HuffTable.wf.exists_codeAt (hw : h.wf) {k : Nat} :
    (∃ n code, CodeAt h.counts k n code) ↔ k < h.total.toNat := by
  rw [← hw.posBase_total]
  refine ⟨fun ⟨n, code, hat⟩ => hat.lt_next.trans_le (posBase_mono _ hat.lt), fun hk => ?_⟩
  obtain ⟨n, hn, hle, hlt⟩ := exists_posBase_le hk
  exact ⟨n, _, hn, hle, hlt, rfl⟩

end

/-! ## No code begins another (R154 (b)) -/

/-- The code space that one length takes up lies before the first code of every greater length. -/
theorem codeBase_le {counts : List Byte} {m n : Nat} (h : m < n) :
    (codeBase counts m + countAt counts m) * 2 ^ (n - m) ≤ codeBase counts n := by
  induction n, h using Nat.le_induction with
  | base => rw [codeBase_succ, show m + 1 - m = 1 by omega, Nat.mul_comm]; rfl
  | succ n hn ih =>
    rw [codeBase_succ, show n + 1 - m = n - m + 1 by omega, Nat.pow_succ]
    have := Nat.le_add_right (codeBase counts n) (countAt counts n)
    linarith

/-- The first bits of a code are none of the codes of their own length, but greater. -/
theorem CodeAt.firstBits_ge {counts : List Byte} {k n code : Nat} (h : CodeAt counts k n code) {m : Nat} (hm : m < n) :
    codeBase counts m + countAt counts m ≤ code / 2 ^ (n - m) :=
  (Nat.le_div_iff_mul_le (Nat.two_pow_pos _)).mpr ((codeBase_le hm).trans h.base_le)

/-- The codes of two positions are not the same, and neither begins the other. -/
theorem CodeAt.not_begins {counts : List Byte} {j k m n c d : Nat} (hj : CodeAt counts j m c)
    (hk : CodeAt counts k n d) (hne : j ≠ k) (hmn : m ≤ n) : d / 2 ^ (n - m) ≠ c := by
  rcases Nat.eq_or_lt_of_le hmn with rfl | hlt
  · rw [Nat.sub_self, Nat.pow_zero, Nat.div_one, hj.code_eq, hk.code_eq]
    have := hj.le
    have := hk.le
    omega
  · exact (hj.code_lt.trans_le (hk.firstBits_ge hlt)).ne'

/-- Settles O35 by the closed form of the codes. -/
theorem canonicalCodes : Obligations.CanonicalCodes := by
  intro h hw
  refine ⟨fun k hk => ?_, fun k hk => ?_, fun j k lenj codej lenk codek hne hj hk hle => ?_⟩
  · obtain ⟨n, code, hat⟩ := hw.exists_codeAt.mpr hk
    have hn := hat.lt
    exact ⟨n + 1, code, hw.codeOf_eq_some.mpr ⟨n, rfl, hat⟩, by omega, by omega, hw.code_lt hat⟩
  · refine Option.eq_none_iff_forall_ne_some.mpr fun ⟨len, code⟩ hc => ?_
    obtain ⟨n, -, hat⟩ := hw.codeOf_eq_some.mp hc
    exact absurd (hw.exists_codeAt.mp ⟨n, code, hat⟩) (Nat.not_lt.mpr hk)
  · obtain ⟨m, rfl, hatj⟩ := hw.codeOf_eq_some.mp hj
    obtain ⟨n, rfl, hatk⟩ := hw.codeOf_eq_some.mp hk
    rw [Nat.add_sub_add_right]
    exact hatj.not_begins hatk hne (by omega)

end Sys2Proof.Machine
end

