-- ==== Sys2Proof/Proofs/HuffmanDecode.lean ====
section
/-!
PROOF. `HUF.DEC` (R156): when a row of the table matches the bits read so far (R154 (c)), and what the loop over the
rows makes of a code, of sixteen bits that are none, and of the end of the window.
-/

namespace Sys2Proof.Machine

/-! ## The number of the first bits -/

theorem numberOf_congr {order : Order} {n : Nat} {f g : Nat → Bool} (h : ∀ j, j < n → f j = g j) :
    numberOf order n f = numberOf order n g := by
  rw [numberOf, numberOf, List.map_congr_left fun j hj => by rw [h j (List.mem_range.mp hj)]]

/-- The first bits of a code stand for the code without its last bits. -/
theorem numberOf_bitOf_firstBits {m n code : Nat} (hm : m ≤ n) (hcode : code < 2 ^ n) :
    numberOf .msb m (bitOf .msb n code) = code / 2 ^ (n - m) := by
  have hbits : ∀ j, j < m → bitOf .msb n code j = bitOf .msb m (code / 2 ^ (n - m)) j := fun j hj => by
    rw [bitOf, bitOf, Nat.testBit_div_two_pow, bitWeight, bitWeight]
    congr 1
    omega
  have hlt : code / 2 ^ (n - m) < 2 ^ m := by
    rwa [Nat.div_lt_iff_lt_mul (Nat.two_pow_pos _), ← Nat.pow_add, Nat.add_sub_cancel' hm]
  rw [numberOf_congr hbits, numberOf_bitOf, Nat.mod_eq_of_lt hlt]

/-- Bits are those of the number they stand for. -/
theorem bitOf_numberOf {n : Nat} {bit : Nat → Bool} {j : Nat} (hj : j < n) :
    bitOf .msb n (numberOf .msb n bit) j = bit j := by
  induction n with
  | zero => omega
  | succ n ih =>
    rw [numberOf_msb_succ, bitOf, bitWeight, Nat.add_sub_cancel]
    rcases Nat.eq_or_lt_of_le (Nat.le_of_lt_succ hj) with rfl | hlt
    · cases bit j <;> simp [Nat.testBit_zero]
    · have hdiv : (2 * numberOf .msb n bit + (bit n).toNat) / 2 = numberOf .msb n bit := by
        have := Bool.toNat_lt (bit n)
        omega
      rw [show n - j = n - 1 - j + 1 by omega, Nat.testBit_add_one, hdiv]
      exact ih hlt

/-! ## The test of R156 -/

/-- From the first code of a length on, the signed test of R156 finds exactly the codes of that length (R154 (c)). -/
theorem HuffRow.Describes.le_maxcode {row : HuffRow} {counts : List Byte} {n x : Nat} (h : row.Describes counts n)
    (hx : codeBase counts n ≤ x) : (x : Int) ≤ row.maxcode.toInt ↔ x < codeBase counts n + countAt counts n := by
  rw [h.maxcode]
  split <;> omega

section

variable {h : HuffTable} {bit : Nat → Bool} {n : Nat}

/-- The bits `bit 0, bit 1, ...` match no row before row `n`: they are past the codes of each length (R154 (c)). -/
def HuffTable.Misses (h : HuffTable) (bit : Nat → Bool) (n : Nat) : Prop :=
  ∀ m, m < n → codeBase h.counts m + countAt h.counts m ≤ numberOf .msb (m + 1) bit

/-- After bits that match no row, one bit more is not before the codes of its length. -/
theorem HuffTable.Misses.base_le (hmiss : h.Misses bit n) :
    codeBase h.counts n ≤ numberOf .msb (n + 1) bit := by
  cases n with
  | zero => simp [codeBase]
  | succ n =>
    have hlast := hmiss n n.lt_succ_self
    rw [codeBase_succ, numberOf_msb_succ]
    omega

/-- The bits of a code match no row before its own. -/
theorem CodeAt.misses {k code : Nat} (hw : h.wf) (hat : CodeAt h.counts k n code) :
    h.Misses (bitOf .msb (n + 1) code) n := fun m hm => by
  rw [numberOf_bitOf_firstBits (by omega) (hw.code_lt hat), Nat.add_sub_add_right]
  exact hat.firstBits_ge hm

/-- Bits that begin with no code of up to `n` bits match none of the first `n` rows. -/
theorem HuffTable.misses_of_no_code (hn : n ≤ 16)
    (hno : ∀ k m code, m < n → CodeAt h.counts k m code → ∃ j, j ≤ m ∧ bit j ≠ bitOf .msb (m + 1) code j) :
    h.Misses bit n := by
  induction n with
  | zero => exact fun m hm => absurd hm (Nat.not_lt_zero m)
  | succ n ih =>
    have hmiss := ih (by omega) fun k m code hm => hno k m code (by omega)
    have hbase := hmiss.base_le
    refine fun m hm => ?_
    rcases Nat.eq_or_lt_of_le (Nat.le_of_lt_succ hm) with rfl | hlt
    · refine Nat.le_of_not_lt fun hcode => ?_
      have hat : CodeAt h.counts (posBase h.counts m + (numberOf .msb (m + 1) bit - codeBase h.counts m)) m
          (numberOf .msb (m + 1) bit) :=
        ⟨by omega, by omega, by rw [posBase_succ]; omega, by omega⟩
      obtain ⟨j, hj, hne⟩ := hno _ m _ hm hat
      exact hne (bitOf_numberOf (by omega)).symm
    · exact hmiss m hlt

end

/-! ## Reading one bit -/

section

variable {s : State} {stuff zfill : Bool}

theorem readBits_one_of_bit {b : Bool} {d : ReadCursor} (hbit : rdBit s.srcByte? .msb stuff s.rd = (.bit b, d)) :
    readBits 1 .msb stuff zfill s = ({ s with rd := d }, some b.toNat) := by
  simp [readBits, readLoop, hbit, shiftIn]

theorem readBits_one_of_trunc (hstop : rdBit s.srcByte? .msb stuff s.rd = (.trunc, s.rd)) :
    readBits 1 .msb stuff false s = ({ s with status := { s.status with trunc := true } }, none) := by
  simp [readBits, readLoop, hstop]

end

theorem BitsAt.of_snoc {src : Nat → Option Byte} {order : Order} {stuff : Bool} {bs : List Bool} {b : Bool}
    {c e : ReadCursor} (h : BitsAt src order stuff (bs ++ [b]) c e) :
    ∃ d, BitsAt src order stuff bs c d ∧ rdBit src order stuff d = (.bit b, e) := by
  induction bs generalizing c with
  | nil =>
    cases h with
    | cons head tail =>
      cases tail
      exact ⟨c, .nil c, head⟩
  | cons a bs ih =>
    cases h with
    | cons head tail =>
      obtain ⟨d, hd, hlast⟩ := ih tail
      exact ⟨d, .cons head hd, hlast⟩

/-! ## The loop of `HUF.DEC` (R156) -/

section

variable {h : HuffTable} {bit : Nat → Bool} {n : Nat} {s : State} {stuff zfill : Bool} {d : ReadCursor}

/-- One turn: a bit is read, and the row is tried. -/
theorem hufDecLoop_of_bit {rows : List HuffRow} {row : HuffRow} {b : Bool}
    (hbit : rdBit s.srcByte? .msb stuff s.rd = (.bit b, d)) (len : Nat) :
    hufDecLoop h stuff zfill (row :: rows) len (numberOf .msb n bit) s =
      let code := shiftIn .msb (numberOf .msb n bit) n b
      if (code : Int) ≤ row.maxcode.toInt then
        (({ s with rd := d } : State).withRes (h.value (row.valptr.toNat + code - row.mincode.toNat)).toNat len, .ok)
      else hufDecLoop h stuff zfill rows (len + 1) code { s with rd := d } := by
  rw [hufDecLoop, readBits_one_of_bit hbit]
  rfl

/-- Bits that match none of the first `n` rows leave the loop at the next row. -/
theorem hufDecLoop_of_misses (hw : h.wf) (hn : n ≤ 16) (hmiss : h.Misses bit n)
    (hbits : BitsAt s.srcByte? .msb stuff ((List.range n).map bit) s.rd d) :
    hufDecLoop h stuff zfill h.rows 1 0 s =
      hufDecLoop h stuff zfill (h.rows.drop n) (n + 1) (numberOf .msb n bit) { s with rd := d } := by
  induction n generalizing d with
  | zero =>
    obtain ⟨⟩ := hbits
    rfl
  | succ n ih =>
    rw [List.range_succ, List.map_append] at hbits
    obtain ⟨c, hinit, hlast⟩ := hbits.of_snoc
    have hmiss' : h.Misses bit n := fun m hm => hmiss m (by omega)
    obtain ⟨row, hrow, hd⟩ := hw.exists_row (n := n) (by omega)
    obtain ⟨hlt, rfl⟩ := List.getElem?_eq_some_iff.mp hrow
    have hpast : ¬ (numberOf .msb (n + 1) bit : Int) ≤ h.rows[n].maxcode.toInt := fun hle =>
      absurd ((hd.le_maxcode hmiss'.base_le).mp hle) (Nat.not_lt.mpr (hmiss n n.lt_succ_self))
    rw [ih (by omega) hmiss' hinit, List.drop_eq_getElem_cons hlt, hufDecLoop_of_bit (s := { s with rd := c }) hlast]
    simp only [shiftIn_numberOf, if_neg hpast]

/-- A code ends the loop with the symbol of its position. -/
theorem hufDecLoop_of_code (hw : h.wf) {k code : Nat} (hat : CodeAt h.counts k n code)
    (hbits : BitsAt s.srcByte? .msb stuff ((List.range (n + 1)).map (bitOf .msb (n + 1) code)) s.rd d) :
    hufDecLoop h stuff zfill h.rows 1 0 s =
      (({ s with rd := d } : State).withRes (h.value k).toNat (n + 1), .ok) := by
  rw [List.range_succ, List.map_append] at hbits
  obtain ⟨c, hinit, hlast⟩ := hbits.of_snoc
  have hmiss := hat.misses hw
  obtain ⟨row, hrow, hd⟩ := hw.exists_row hat.lt
  obtain ⟨hlt, rfl⟩ := List.getElem?_eq_some_iff.mp hrow
  have hnumber : numberOf .msb (n + 1) (bitOf .msb (n + 1) code) = code := by
    rw [numberOf_bitOf, Nat.mod_eq_of_lt (hw.code_lt hat)]
  have hmatch : (code : Int) ≤ h.rows[n].maxcode.toInt := (hd.le_maxcode hat.base_le).mpr hat.code_lt
  have hindex : h.rows[n].valptr.toNat + code - h.rows[n].mincode.toNat = k := by
    rw [hd.valptr, hd.mincode, hat.code_eq]
    have := hat.le
    omega
  rw [hufDecLoop_of_misses hw hat.lt.le hmiss hinit, List.drop_eq_getElem_cons hlt,
    hufDecLoop_of_bit (s := { s with rd := c }) hlast]
  simp only [shiftIn_numberOf, hnumber, if_pos hmatch, hindex]

/-- Sixteen bits that match no row are no code. -/
theorem hufDecLoop_of_no_code (hw : h.wf) (hmiss : h.Misses bit 16)
    (hbits : BitsAt s.srcByte? .msb stuff ((List.range 16).map bit) s.rd d) :
    hufDecLoop h stuff zfill h.rows 1 0 s = ({ s with rd := d }, .decompressionFailed) := by
  obtain ⟨hlen, -⟩ := id hw
  rw [hufDecLoop_of_misses hw le_rfl hmiss hbits, List.drop_eq_nil_of_le hlen.le, hufDecLoop]

/-- Where the bits end before a row matches, and none are filled in, the loop raises `TruncatedData`. -/
theorem hufDecLoop_of_trunc (hw : h.wf) (hn : n < 16) (hmiss : h.Misses bit n)
    (hbits : BitsAt s.srcByte? .msb stuff ((List.range n).map bit) s.rd d)
    (hstop : rdBit s.srcByte? .msb stuff d = (.trunc, d)) :
    hufDecLoop h stuff false h.rows 1 0 s =
      ({ s with rd := d, status := { s.status with trunc := true } }, .truncatedData) := by
  obtain ⟨hlen, -⟩ := id hw
  rw [hufDecLoop_of_misses hw hn.le hmiss hbits, List.drop_eq_getElem_cons (hlen.symm ▸ hn), hufDecLoop,
    readBits_one_of_trunc (s := { s with rd := d }) hstop]

end

/-! ## The life of `HUF.DEC` -/

section

variable {h : HuffTable} {bit : Nat → Bool} {n : Nat} {slot : BitVec 3} {stuff zfill : Bool} {s : State}
  {d : ReadCursor}

/-- All that `HUF.DEC` does, by what its loop answers. -/
theorem exec_hufDec (hf : s.src.fits = true) (hslot : s.huffSlot slot = some h) :
    exec (.hufDec slot stuff zfill) s = .next
      (let r := hufDecLoop h stuff zfill h.rows 1 0 (s.begun (encode (.hufDec slot stuff zfill)))
       r.1.complete r.2) := by
  have hbody : hufDecBody slot stuff zfill (s.begun (encode (.hufDec slot stuff zfill))) =
      hufDecLoop h stuff zfill h.rows 1 0 (s.begun (encode (.hufDec slot stuff zfill))) := by
    rw [hufDecBody, show (s.begun _).huffSlot slot = some h from hslot]
  rw [exec_of_ok (by simp) (by simp) rfl (by simp [windowsOk, Instr.usesSrc, Instr.usesDst, hf]), Instr.body, hbody]

/-- `HUF.DEC` where the code of a position can be read. -/
theorem exec_hufDec_of_code (hf : s.src.fits = true) (hslot : s.huffSlot slot = some h) (hw : h.wf)
    {k len code : Nat} (hcode : h.codeOf k = some (len, code))
    (hbits : BitsAt s.srcByte? .msb stuff ((List.range len).map (bitOf .msb len code)) s.rd d) :
    exec (.hufDec slot stuff zfill) s = .next
      { s.endedOk (.hufDec slot stuff zfill) with
        rd := d, res0 := (h.values.getD k 0).setWidth 32, res1 := BitVec.ofNat 32 len } := by
  obtain ⟨n, rfl, hat⟩ := hw.codeOf_eq_some.mp hcode
  rw [exec_hufDec hf hslot, hufDecLoop_of_code (s := s.begun _) hw hat (by simpa using hbits), State.endedOk,
    ← begun_complete]
  simp [State.complete, State.withRes, HuffTable.value]

end

/-! ## The obligations about `HUF.DEC` -/

/-- Settles O36: the bits at the cursor are those of the code, and match its row and none before. -/
theorem hufDecSymbol : Obligations.HufDecSymbol := by
  intro slot stuff zfill s h k len code hf hslot hw hcode hin hff hstands
  have hbits := bitsAt_srcBit (order := .msb) hin hff
  rw [ReadCursor.ofPos_pos, List.map_congr_left fun j hj => hstands j (List.mem_range.mp hj)] at hbits
  exact exec_hufDec_of_code hf hslot hw hcode hbits

/-- The read cursor at the end of the window, where the reader stops; one beyond it stays (R121). -/
def State.rdEnd (s : State) : ReadCursor :=
  if s.rd.byte.toNat < s.src.len.toNat then { byte := s.src.len, bit := 0 } else s.rd

/-- All bits of the window from the cursor on can be read, and then the reader stops. -/
theorem bitsAt_rdEnd (s : State) (order : Order) :
    BitsAt s.srcByte? order false
      ((List.range (8 * s.src.len.toNat - s.rd.pos)).map fun j => s.srcBit order (s.rd.pos + j)) s.rd s.rdEnd ∧
    rdBit s.srcByte? order false s.rdEnd = (.trunc, s.rdEnd) := by
  have hpos : s.rd.pos = 8 * s.rd.byte.toNat + s.rd.bit.toNat := rfl
  have hbit := s.rd.bit.isLt
  rw [State.rdEnd]
  by_cases hin : s.rd.byte.toNat < s.src.len.toNat
  · have hbits := bitsAt_srcBit (s := s) (order := order) (stuff := false) (p := s.rd.pos)
      (n := 8 * s.src.len.toNat - s.rd.pos) (by omega) (by simp)
    have hend : s.rd.pos + (8 * s.src.len.toNat - s.rd.pos) = ReadCursor.pos { byte := s.src.len, bit := 0 } := by
      simp only [ReadCursor.pos, BitVec.reduceToNat] at hpos ⊢
      omega
    rw [hend, ReadCursor.ofPos_pos, ReadCursor.ofPos_pos] at hbits
    rw [if_pos hin]
    exact ⟨hbits, rdBit_past_end le_rfl order⟩
  · rw [if_neg hin, show 8 * s.src.len.toNat - s.rd.pos = 0 by omega]
    exact ⟨.nil _, rdBit_past_end (Nat.le_of_not_lt hin) order⟩

/-- Settles O37: bits that begin with no code match no row. -/
theorem hufDecFails : Obligations.HufDecFails := by
  intro slot s h hf hslot hw hno
  have hmiss : ∀ n, n ≤ 16 → n ≤ 8 * s.src.len.toNat - s.rd.pos →
      h.Misses (fun j => s.srcBit .msb (s.rd.pos + j)) n := fun n hn hin =>
    HuffTable.misses_of_no_code hn fun k m code hm hat => by
      have hk := hw.exists_codeAt.mp ⟨m, code, hat⟩
      obtain ⟨-, -, -, htotal, -⟩ := id hw
      obtain ⟨j, hj, hne⟩ := hno k (m + 1) code (by omega) (hw.codeOf_eq_some.mpr ⟨m, rfl, hat⟩) (by omega)
      exact ⟨j, by omega, hne⟩
  refine ⟨fun hin zfill => ?_, fun hcut => ?_⟩
  · have hbits := bitsAt_srcBit (s := s) (order := .msb) (stuff := false) hin (by simp)
    rw [ReadCursor.ofPos_pos] at hbits
    rw [exec_hufDec hf hslot,
      hufDecLoop_of_no_code (s := s.begun _) hw (hmiss 16 le_rfl (by omega)) (by simpa using hbits), ← begun_complete]
    rfl
  · obtain ⟨hbits, hstop⟩ := bitsAt_rdEnd s .msb
    rw [exec_hufDec hf hslot,
      hufDecLoop_of_trunc (s := s.begun _) hw (by omega) (hmiss _ (by omega) le_rfl) (by simpa using hbits)
        (by simpa using hstop), State.ended, ← Status.finished_of_flags]
    rfl

end Sys2Proof.Machine
end

