-- ==== Sys2Proof/Proofs/HuffmanEncode.lean ====
section
/-!
PROOF. `HUF.ENC` (R159, R160): which code a symbol has, what the command makes of it with room, without room and for an
absent symbol, and that `HUF.DEC` finds the symbol again (R154 (d)).
-/

namespace Sys2Proof.Machine

/-! ## The code of a symbol -/

/-- The code of the first position of a symbol (R160). -/
def HuffTable.codeOfSymbol (h : HuffTable) (sym : Byte) : Option (Nat × Nat) :=
  (h.values.findIdx? (· == sym)).bind h.codeOf

section

variable {h : HuffTable} {sym : Byte}

theorem HuffTable.codeOfSymbol_of_first {k len code : Nat} (hk : h.values[k]? = some sym)
    (hfirst : ∀ j, j < k → h.values[j]? ≠ some sym) (hcode : h.codeOf k = some (len, code)) :
    h.codeOfSymbol sym = some (len, code) := by
  obtain ⟨hlt, hval⟩ := List.getElem?_eq_some_iff.mp hk
  have hidx : h.values.findIdx? (· == sym) = some k := List.findIdx?_eq_some_iff_getElem.mpr
    ⟨hlt, by simp [hval], fun j hj => by
      have := hfirst j hj
      rw [List.getElem?_eq_getElem (hj.trans hlt)] at this
      simpa using this⟩
  rw [codeOfSymbol, hidx, Option.bind_some, hcode]

theorem HuffTable.codeOfSymbol_of_absent (hsym : sym ∉ h.values) : h.codeOfSymbol sym = none := by
  have hidx : h.values.findIdx? (· == sym) = none := List.findIdx?_eq_none_iff.mpr fun v hv => by
    simpa using ne_of_mem_of_not_mem hv hsym
  rw [codeOfSymbol, hidx, Option.bind_none]

/-- The code of a symbol is that of a position that holds it. -/
theorem HuffTable.exists_of_codeOfSymbol {len code : Nat} (hsym : h.codeOfSymbol sym = some (len, code)) :
    ∃ k, h.values.getD k 0 = sym ∧ h.codeOf k = some (len, code) := by
  obtain ⟨k, hk, hcode⟩ := Option.bind_eq_some_iff.mp hsym
  obtain ⟨hlt, hval, -⟩ := List.findIdx?_eq_some_iff_getElem.mp hk
  exact ⟨k, by simpa [hlt] using hval, hcode⟩

end

/-! ## The pseudocode of `HUF.ENC` (R159) -/

section

variable {slot : BitVec 3} {stuff : Bool} {sym : Byte} {s u : State} {h : HuffTable} {len code : Nat}

theorem hufEncBody_of_absent (hslot : s.huffSlot slot = some h) (hsym : h.codeOfSymbol sym = none) :
    hufEncBody slot stuff sym s = (s, .invalidFormat) := by
  rw [HuffTable.codeOfSymbol] at hsym
  simp only [hufEncBody, hslot, hsym]

/-- The bits of the code are written. If all are accepted, the results are too. -/
theorem hufEncBody_of_symbol (hslot : s.huffSlot slot = some h) (hsym : h.codeOfSymbol sym = some (len, code))
    {e : ResultCode} (hwrite : writeBits .msb stuff ((List.range len).map (bitOf .msb len code)) s = (u, e)) :
    hufEncBody slot stuff sym s = (if e = .ok then u.withRes code len else u, e) := by
  rw [HuffTable.codeOfSymbol] at hsym
  simp only [hufEncBody, hslot, hsym, bitsOf_eq, hwrite]
  cases e <;> rfl

/-- A `HUF.ENC` that ends OK has found the symbol and written its code. -/
theorem hufEncBody_ok {t : State} (hslot : s.huffSlot slot = some h) (ht : hufEncBody slot stuff sym s = (t, .ok)) :
    ∃ len code u, h.codeOfSymbol sym = some (len, code) ∧
      writeBits .msb stuff ((List.range len).map (bitOf .msb len code)) s = (u, .ok) ∧ t = u.withRes code len := by
  cases hsym : h.codeOfSymbol sym with
  | none => simp [hufEncBody_of_absent hslot hsym] at ht
  | some p =>
    obtain ⟨hstate, hcode⟩ := Prod.mk.inj ((hufEncBody_of_symbol hslot hsym rfl).symm.trans ht)
    rw [if_pos hcode] at hstate
    exact ⟨p.1, p.2, _, rfl, Prod.ext rfl hcode, hstate.symm⟩

theorem exec_hufEnc (hd : s.dst.fits = true) :
    exec (.hufEnc slot stuff sym) s = .next
      (let r := hufEncBody slot stuff sym (s.begun (encode (.hufEnc slot stuff sym)))
       r.1.complete r.2) :=
  exec_of_ok (by simp) (by simp) rfl (by simp [windowsOk, Instr.usesSrc, hd])

end

/-! ## The obligations about `HUF.ENC` -/

/-- Settles O39: an absent symbol ends the command before the first bit. -/
theorem hufEncAbsent : Obligations.HufEncAbsent := by
  intro slot stuff sym s h hd hslot hsym
  rw [exec_hufEnc hd, hufEncBody_of_absent (s := s.begun _) hslot (HuffTable.codeOfSymbol_of_absent hsym),
    ← begun_complete]

/-- Settles O38: the bits of the code go the way of those of `BS.WR`. -/
theorem hufEncAppends : Obligations.HufEncAppends := by
  intro slot stuff sym s h k len code hd hm hslot hw hk hfirst hcode
  have hsym := HuffTable.codeOfSymbol_of_first hk hfirst hcode
  refine ⟨fun hroom => ?_, fun j hroom => ?_⟩
  · obtain ⟨u, hu, happ, -, -⟩ := writeBits_appends (s := s.begun (encode (.hufEnc slot stuff sym))) hd hm hroom
    refine ⟨(u.complete .ok).withRes code len, ?_, ?_, happ⟩
    · rw [exec_hufEnc hd, hufEncBody_of_symbol (s := s.begun _) hslot hsym hu]
      rfl
    · rw [complete_of_accepted hu]
      rfl
  · obtain ⟨u, hu, happ, -⟩ := writeBits_refused (s := s.begun (encode (.hufEnc slot stuff sym))) hd hm hroom
    refine ⟨u.setDstfull.complete .truncatedData, ?_, complete_of_refused hu, happ⟩
    rw [exec_hufEnc hd, hufEncBody_of_symbol (s := s.begun _) hslot hsym hu]
    rfl

/-- Settles O41: `HUF.DEC` finds the bits that `HUF.ENC` wrote, and they are the code of a position of the symbol. -/
theorem huffmanRoundTrip : Obligations.HuffmanRoundTrip := by
  intro slot stuff pad zfill sym s s₁ s₂ h hm hslot hw h₁ ok₁ h₂ ok₂
  have hslot₁ : s₁.huffSlot slot = some h := ((exec_frame (by simp) h₁).huff slot (by simp)).trans hslot
  have hslot₂ : s₂.huffSlot slot = some h := ((exec_frame (by simp) h₂).huff slot (by simp)).trans hslot₁
  obtain ⟨-, hw₁, u₁, hu₁, rfl⟩ := exec_ok (by simp) (by simp) h₁ ok₁
  obtain ⟨-, hw₂, u₂, hu₂, rfl⟩ := exec_ok (by simp) (by simp) h₂ ok₂
  have hd₁ : s.dst.fits = true := (fits_of_windowsOk hw₁).2 rfl
  have hd₂ : u₂.dst.fits = true := (exec_frame (by simp) h₂).dst ▸ (fits_of_windowsOk hw₂).2 rfl
  obtain ⟨len, code, u, hsym, hwrite, rfl⟩ := hufEncBody_ok (s := s.begun _) hslot hu₁
  obtain ⟨k, hk, hcode⟩ := HuffTable.exists_of_codeOfSymbol hsym
  have hbits := bitsAt_of_flushed (s := s.begun _) (t := ((u.withRes code len).complete .ok).begun _)
    (r := { u₂.complete .ok with src := u₂.dst, rd := s.wrPos }) hm hd₁ hwrite rfl rfl rfl hu₂ rfl rfl
  have hdec := exec_hufDec_of_code (zfill := zfill) (s := { u₂.complete .ok with src := u₂.dst, rd := s.wrPos }) hd₂
    hslot₂ hw hcode hbits
  exact ⟨_, hdec, rfl, rfl, rfl, by rw [← hk], rfl⟩

end Sys2Proof.Machine
end

