-- ==== Sys2Proof/Proofs/Emit.lean ====
section
/-!
SUPPORT. `Emit` of a whole output (R66): the bytes that fit stand at the offsets of the destination window from 0 on,
`DSTFULL` is set if one did not fit, and nothing else has changed.
-/

namespace Sys2Proof.Machine

/-- Memory after `Emit` of each of the given bytes into a window: those that fit are stored from offset 0 on (R66). -/
def Memory.emitted (w : Window) (bs : List Byte) (m : Memory) : Memory :=
  Memory.stored w (placedAt 0 (bs.take w.len.toNat)) m

theorem dstBytes_take_mem (s : State) (bs : List Byte) :
    (s.dstBytes 0 (bs.take s.dst.len.toNat)).mem = Memory.emitted s.dst bs s.mem :=
  congrArg State.mem (dstBytes_withMem s s.mem 0 _)

/-- `Emit` of a list of bytes from `OUT = 0` on, field by field. -/
theorem emitAll_eq (bs : List Byte) (s : State) :
    emitAll bs 0 s = (min bs.length s.dst.len.toNat,
      { s with
        status := { s.status with dstfull := s.status.dstfull || decide (s.dst.len.toNat < bs.length) }
        mem := Memory.emitted s.dst bs s.mem }) := by
  rw [emitAll_spec bs 0 s (Nat.zero_le _), Nat.zero_add, Nat.sub_zero, ← dstBytes_take_mem]
  by_cases hfull : s.dst.len.toNat < bs.length
  · rw [if_pos hfull, decide_eq_true hfull, Bool.or_true, dstBytes_eq]
    rfl
  · rw [if_neg hfull, decide_eq_false hfull, Bool.or_false, List.take_of_length_le (Nat.not_lt.mp hfull), dstBytes_eq]

/-- What the claims call an output is what `Emit` leaves in memory. -/
theorem outputs_of_emitted {s t : State} (hm : s.mem.wf) (hd : s.dst.fits = true) {bs : List Byte}
    (ht : t.mem = Memory.emitted s.dst bs s.mem) : s.outputs t bs := by
  have hlen : (bs.take s.dst.len.toNat).length = min bs.length s.dst.len.toNat := by
    rw [List.length_take, Nat.min_comm]
  rw [← dstBytes_take_mem] at ht
  refine ⟨fun j hj => ?_, fun a ha => ?_⟩
  · have hread := dstBytes_read hm hd (o := 0) (vs := bs.take s.dst.len.toNat) (by omega) (hlen ▸ hj)
    rw [Nat.zero_add] at hread
    rw [ht, hread, List.getD_eq_getElem?_getD, List.getD_eq_getElem?_getD, List.getElem?_take_of_lt (by omega)]
  · rw [ht]
    exact dstBytes_read_other 0 _ fun j hj => (Nat.zero_add j).symm ▸ ha j (hlen ▸ hj)

end Sys2Proof.Machine
end

