-- ==== Sys2Proof/Proofs/LzwDictionary.lean ====
section
/-!
PROOF. The dictionary of `LZW.DEC` (R183 to R186): the expansions of its codes are the strings of the decoder that keeps
the strings themselves, and stay so through every code.
-/

namespace Sys2Proof.Machine

/-! ## Expansion (R183) -/

/-- A code below `bound` has one expansion for any number of steps above it, in any two dictionaries that agree below
`bound`: the prefixes lie below their codes. -/
theorem expandCode_congr {m bound : Nat} {dict dict' : List (Nat × LzwEntry)}
    (hfall : ∀ e ∈ dict, e.2.prefixCode.toNat < e.1)
    (hsame : ∀ c, c < bound → dict'.lookup c = dict.lookup c) {c k k' : Nat} (hc : c < bound) (hk : c < k)
    (hk' : c < k') : expandCode m dict' k' c = expandCode m dict k c := by
  induction k generalizing c k' with
  | zero => omega
  | succ k ih =>
    obtain ⟨k', rfl⟩ := Nat.exists_eq_succ_of_ne_zero (Nat.ne_of_gt (Nat.zero_lt_of_lt hk'))
    rw [expandCode, expandCode, hsame c hc]
    split
    · rfl
    cases hlook : dict.lookup c with
    | none => rfl
    | some e =>
      obtain ⟨before, rest, rfl, -⟩ := List.lookup_eq_some_iff.mp hlook
      have hlt : e.prefixCode.toNat < c := hfall (c, e) (by simp)
      exact congrArg (· ++ [e.suffix]) (ih (by omega) (by omega) (by omega))

namespace LzwUnit

variable {m c : Nat} {u : LzwUnit} {p : BitVec 12} {b : Byte}

theorem expand_literal (u : LzwUnit) (hc : c < 2 ^ m) : u.expand m c = [BitVec.ofNat 8 c] := if_pos hc

/-- No entry stands at or above `next_code` (R35). -/
theorem Bounded.lookup_none (hu : u.Bounded m) (hc : u.nextCode.toNat ≤ c) : u.dict.lookup c = none := by
  obtain ⟨-, -, -, hdict⟩ := hu.wf
  refine List.lookup_eq_none_iff.mpr fun e he => ?_
  have := hdict e he
  exact bne_iff_ne.mpr (by omega)

theorem lookup_append_lt (hroom : u.nextCode.toNat < 4096) (hc : c < u.nextCode.toNat) :
    (u.append p b).dict.lookup c = u.dict.lookup c := by
  have hne : (c == u.nextCode.toNat) = false := beq_eq_false_iff_ne.mpr (Nat.ne_of_lt hc)
  rw [append_dict hroom, List.lookup_append, List.lookup_cons, hne, List.lookup_nil, Option.or_none]

theorem Bounded.lookup_append_next (hu : u.Bounded m) (hroom : u.nextCode.toNat < 4096) :
    (u.append p b).dict.lookup u.nextCode.toNat = some { prefixCode := p, suffix := b } := by
  rw [append_dict hroom, List.lookup_append, hu.lookup_none (Nat.le_refl _), Option.none_or, List.lookup_cons_self]

/-- A new entry leaves the expansion of every older code as it is. -/
theorem Bounded.expand_append_lt (hu : u.Bounded m) (hc : c < u.nextCode.toNat) :
    (u.append p b).expand m c = u.expand m c := by
  by_cases hroom : u.nextCode.toNat < 4096
  · obtain ⟨-, -, -, hdict⟩ := hu.wf
    exact expandCode_congr (fun e he => (hdict e he).1) (fun c hc => lookup_append_lt hroom hc) hc (by omega)
      (by omega)
  · rw [append_of_full hroom]

/-- The new entry expands to the expansion of its first part and its last byte. -/
theorem Bounded.expand_append_next (hu : u.Bounded m) (hroom : u.nextCode.toNat < 4096)
    (hp : p.toNat < u.nextCode.toNat) : (u.append p b).expand m u.nextCode.toNat = u.expand m p.toNat ++ [b] := by
  obtain ⟨-, -, -, hdict⟩ := hu.wf
  have hpart : expandCode m (u.append p b).dict 4095 p.toNat = u.expand m p.toNat :=
    expandCode_congr (fun e he => (hdict e he).1) (fun c hc => lookup_append_lt hroom hc) hp (by omega) (by omega)
  rw [expand, expandCode, if_neg (Nat.not_lt.mpr hu.clear), hu.lookup_append_next hroom]
  exact congrArg (· ++ [b]) hpart

/-- The bytes of a code below `next_code` are its expansion (R183). -/
theorem expand_of_bytesOf {w : List Byte} (hc : c < u.nextCode.toNat) (hw : u.bytesOf m c = some w) :
    u.expand m c = w := by
  unfold bytesOf at hw
  split at hw
  · exact Option.some.inj hw
  · rw [if_neg (Nat.ne_of_lt hc)] at hw
    cases hw

/-- The deferred case: the bytes of `next_code` are those of the previous code and the first of them (R186). -/
theorem Bounded.bytesOf_next (hu : u.Bounded m) (hp : u.prev = some p) :
    u.bytesOf m u.nextCode.toNat = some (u.expand m p.toNat ++ (u.expand m p.toNat).take 1) := by
  have hunknown : ¬ u.knows m u.nextCode.toNat = true := by
    have hclear := hu.clear
    simp only [knows, Bool.or_eq_true, Bool.and_eq_true, decide_eq_true_eq]
    omega
  rw [bytesOf, if_neg hunknown, if_pos rfl, hp, Option.map_some]

end LzwUnit

/-! ## The decoder that keeps the strings -/

/-- The entry that `LzwStrings.after` makes of the previous string `p` and the first byte of `w` (R184). -/
def LzwStrings.append (m : Nat) (r : LzwStrings) (p w : List Byte) : LzwStrings :=
  if firstFree m + r.table.length < 4096 then
    { r with
      table := r.table ++ [p ++ w.take 1]
      width := if firstFree m + r.table.length + 1 = 2 ^ r.width ∧ r.width < 12 then r.width + 1 else r.width }
  else r

theorem LzwStrings.after_of_none {m : Nat} {r : LzwStrings} (h : r.prev = none) (w : List Byte) :
    r.after m w = { r with prev := some w } := by
  rw [after, h]

theorem LzwStrings.after_of_some {m : Nat} {r : LzwStrings} {p : List Byte} (h : r.prev = some p) (w : List Byte) :
    r.after m w = { r.append m p w with prev := some w } := by
  simp only [after, h, append]
  split <;> rfl

theorem LzwStrings.append_prev (m : Nat) (r : LzwStrings) (p w : List Byte) : (r.append m p w).prev = r.prev := by
  unfold append
  split <;> rfl

/-- The codes of the unit `u` expand to the strings that `r` keeps. -/
structure LzwUnit.Represents (m : Nat) (u : LzwUnit) (r : LzwStrings) : Prop where
  bounded : u.Bounded m
  next : u.nextCode.toNat = firstFree m + r.table.length
  width : u.codeSize.toNat = r.width
  table : ∀ i, i < r.table.length → r.table[i]? = some (u.expand m (firstFree m + i))
  prev : r.prev = u.prev.map fun p => u.expand m p.toNat
  nonempty : ∀ w, w ∈ r.table ∨ r.prev = some w → w ≠ []

namespace LzwUnit.Represents

variable {m c : Nat} {u : LzwUnit} {r : LzwStrings} {w : List Byte}

/-- After a clear code both dictionaries are empty (R182). -/
theorem start (hlo : 2 ≤ m) (hhi : m ≤ 8) : (lzwStart m).Represents m (LzwStrings.start m) := by
  have hpos := Nat.two_pow_pos m
  have h256 : 2 ^ m ≤ 2 ^ 8 := Nat.pow_le_pow_right (by decide) hhi
  refine ⟨lzwStart_bounded hlo hhi, ?_, ?_, ?_, rfl, ?_⟩
  · simp only [lzwStart, endCode, LzwStrings.start, firstFree, List.length_nil, BitVec.toNat_ofNat]
    omega
  · simp only [lzwStart, LzwStrings.start, BitVec.toNat_ofNat]
    omega
  · simp [LzwStrings.start]
  · simp [LzwStrings.start]

/-- The two decoders read the same bytes from a code, or none (R183, R186). -/
theorem stringOf_eq (h : u.Represents m r) (hclear : c ≠ 2 ^ m) (hend : c ≠ 2 ^ m + 1) :
    r.stringOf m c = u.bytesOf m c := by
  have hnext := h.next
  have hknows : u.knows m c = true ↔ c < 2 ^ m ∨ firstFree m ≤ c ∧ c < u.nextCode.toNat := by
    simp only [knows, Bool.or_eq_true, Bool.and_eq_true, decide_eq_true_eq]
    unfold clearCode endCode firstFree
    omega
  have hfirst : firstFree m = 2 ^ m + 2 := rfl
  unfold LzwStrings.stringOf bytesOf
  by_cases hlit : c < 2 ^ m
  · rw [if_pos hlit, if_pos (hknows.mpr (.inl hlit)), u.expand_literal hlit]
  rw [if_neg hlit, ← hnext]
  by_cases hentry : c < u.nextCode.toNat
  · rw [if_pos hentry, if_pos (hknows.mpr (.inr ⟨by omega, hentry⟩)), h.table _ (by omega),
      Nat.add_sub_cancel' (by omega)]
  · have hunknown : ¬ u.knows m c = true := fun hk => (hknows.mp hk).elim hlit fun hk => hentry hk.2
    rw [if_neg hentry, if_neg hunknown, h.prev, Option.map_map]
    rfl

/-- No code stands for the empty string. -/
theorem stringOf_ne_nil (h : u.Represents m r) (hw : r.stringOf m c = some w) : w ≠ [] := by
  unfold LzwStrings.stringOf at hw
  split at hw
  · simp [← Option.some.inj hw]
  split at hw
  · exact h.nonempty w (.inl (List.mem_of_getElem? hw))
  split at hw
  · obtain ⟨p, hp, rfl⟩ := Option.map_eq_some_iff.mp hw
    simp [h.nonempty p (.inr hp)]
  · simp at hw

/-- A code becomes the previous one, and its string the previous string. -/
theorem withPrev (h : u.Represents m r) (hnext : c < u.nextCode.toNat) (hc : c < 4096) (hw : u.expand m c = w)
    (hne : w ≠ []) : { u with prev := some (BitVec.ofNat 12 c) }.Represents m { r with prev := some w } := by
  have hcode : (BitVec.ofNat 12 c).toNat = c := (BitVec.toNat_ofNat ..).trans (Nat.mod_eq_of_lt hc)
  refine ⟨⟨h.bounded.wf, h.bounded.clear, fun q hq => ?_⟩, h.next, h.width, h.table, ?_, fun v hv => ?_⟩
  · obtain rfl := Option.some.inj hq
    rwa [hcode]
  · simp only [Option.map_some, hcode]
    exact congrArg some hw.symm
  · rcases hv with hv | hv
    · exact h.nonempty v (.inl hv)
    · exact Option.some.inj hv ▸ hne

/-- Both decoders append the previous string and the first byte of the current one (R184). -/
theorem append (h : u.Represents m r) {p : BitVec 12} (hp : u.prev = some p) (hw : w ≠ []) :
    (u.append p (w.headD 0)).Represents m (r.append m (u.expand m p.toNat) w) := by
  have hlt := h.bounded.prev p hp
  have hbounded := append_bounded h.bounded hlt (w.headD 0)
  have hprev : r.prev = (u.append p (w.headD 0)).prev.map fun q => (u.append p (w.headD 0)).expand m q.toNat := by
    rw [append_prev, h.prev, hp, Option.map_some, Option.map_some, h.bounded.expand_append_lt hlt]
  have hnext := h.next
  by_cases hroom : u.nextCode.toNat < 4096
  · have hhead : w.take 1 = [w.headD 0] := by
      obtain ⟨b, bs, rfl⟩ := List.exists_cons_of_ne_nil hw
      rfl
    rw [LzwStrings.append, if_pos (hnext ▸ hroom), hhead]
    refine ⟨hbounded, ?_, ?_, fun i hi => ?_, hprev, fun v hv => ?_⟩
    · rw [append_nextCode hroom, hnext, List.length_append, List.length_singleton, Nat.add_assoc]
    · rw [append_codeSize hroom, h.width, hnext]
    · rw [List.length_append, List.length_singleton] at hi
      by_cases hold : i < r.table.length
      · rw [List.getElem?_append_left hold, h.table i hold, h.bounded.expand_append_lt (by omega)]
      · obtain rfl : i = r.table.length := by omega
        rw [List.getElem?_concat_length, ← hnext, h.bounded.expand_append_next hroom hlt]
    · rcases hv with hv | hv
      · rcases List.mem_append.mp hv with hv | hv
        · exact h.nonempty v (.inl hv)
        · simp [List.mem_singleton.mp hv]
      · exact h.nonempty v (.inr hv)
  · rw [LzwStrings.append, if_neg (hnext ▸ hroom)]
    rwa [append_of_full hroom]

/-- Once the entry is there, the code just read expands to the bytes it stood for, the deferred case included (R186). -/
theorem expand_append (h : u.Represents m r) {p : BitVec 12} (hp : u.prev = some p) (hc : c < 4096)
    (hw : u.bytesOf m c = some w) :
    c < (u.append p (w.headD 0)).nextCode.toNat ∧ (u.append p (w.headD 0)).expand m c = w := by
  have hlt := h.bounded.prev p hp
  rcases code_of_bytesOf h.bounded hw with hold | ⟨rfl, -⟩
  · have hle : u.nextCode.toNat ≤ (u.append p (w.headD 0)).nextCode.toNat := by
      by_cases hroom : u.nextCode.toNat < 4096
      · exact append_nextCode hroom p _ ▸ Nat.le_succ _
      · rw [append_of_full hroom]
    exact ⟨hold.trans_le hle, (h.bounded.expand_append_lt hold).trans (expand_of_bytesOf hold hw)⟩
  · have hne : u.expand m p.toNat ≠ [] := h.nonempty _ (.inr (by rw [h.prev, hp, Option.map_some]))
    obtain ⟨b, bs, hbs⟩ := List.exists_cons_of_ne_nil hne
    rw [h.bounded.bytesOf_next hp] at hw
    refine ⟨append_nextCode hc p _ ▸ Nat.lt_succ_self _, ?_⟩
    rw [h.bounded.expand_append_next hc hlt]
    simp [← Option.some.inj hw, hbs]

/-- A code of at most twelve bits keeps the two dictionaries in step (R184, R186). -/
theorem after (h : u.Represents m r) (hc : c < 4096) (hw : u.bytesOf m c = some w) (hne : w ≠ []) :
    (u.after c w).Represents m (r.after m w) := by
  have hrprev := h.prev
  cases hprev : u.prev with
  | none =>
    rw [hprev, Option.map_none] at hrprev
    rw [LzwStrings.after_of_none hrprev, LzwUnit.after, hprev]
    have hold : c < u.nextCode.toNat := by simpa [hprev] using code_of_bytesOf h.bounded hw
    exact h.withPrev hold hc (expand_of_bytesOf hold hw) hne
  | some p =>
    rw [hprev, Option.map_some] at hrprev
    rw [LzwStrings.after_of_some hrprev, LzwUnit.after, hprev]
    obtain ⟨hlt, hexp⟩ := h.expand_append hprev hc hw
    exact (h.append hprev hne).withPrev hlt hc hexp hne

end LzwUnit.Represents

end Sys2Proof.Machine
end

