-- ==== Sys2Proof/Proofs/LzwDecode.lean ====
section
/-!
PROOF. `LZW.DEC` (R181, R182): what the reader of one code can answer, the loop against the decoder that keeps the
strings themselves, and that turns beyond those the window can feed change nothing (R189).
-/

namespace Sys2Proof.Machine

/-! ## Reading one code -/

theorem numberOf_lt (order : Order) (n : Nat) (bit : Nat → Bool) : numberOf order n bit < 2 ^ n := by
  cases order with
  | lsb => exact numberOf_lsb_lt n bit
  | msb =>
    induction n with
    | zero => simp [numberOf]
    | succ n ih =>
      have hb := Bool.toNat_lt (bit n)
      rw [numberOf_msb_succ, Nat.pow_succ]
      omega

/-- The value assembled from a list of bits fits in as many bits. -/
theorem shiftAll_lt (order : Order) (bs : List Bool) : shiftAll order 0 0 bs < 2 ^ bs.length := by
  have hbits : (List.range bs.length).map (fun j => bs.getD j false) = bs :=
    List.ext_getElem (by simp) fun j _ hj => by simp [hj]
  rw [← congrArg (shiftAll order 0 0) hbits, shiftAll_range]
  exact numberOf_lt order _ _

/-- Where the loop of `ReadBits` ends without raising and without zero-fill, all its bits stood at the cursor. -/
theorem bitsAt_of_readLoop {src : Nat → Option Byte} {order : Order} {stuff : Bool} {n i : Nat} {a r : BitRead}
    (h : readLoop src order stuff false n i a = (r, true)) :
    ∃ bs, bs.length = n ∧ BitsAt src order stuff bs a.cur r.cur ∧ r.val = shiftAll order a.val i bs := by
  induction n generalizing i a with
  | zero =>
    obtain rfl := (Prod.mk.inj h).1
    exact ⟨[], rfl, .nil _, rfl⟩
  | succ n ih =>
    rw [readLoop] at h
    split at h
    · next b c hbit =>
      obtain ⟨bs, hlen, hbits, hval⟩ := ih h
      exact ⟨b :: bs, congrArg (· + 1) hlen, .cons hbit hbits, hval⟩
    · simp at h
    · simp at h

theorem readLoop_val_lt {src : Nat → Option Byte} {order : Order} {stuff : Bool} {n : Nat} {c : ReadCursor}
    {r : BitRead} (h : readLoop src order stuff false n 0 { cur := c } = (r, true)) : r.val < 2 ^ n := by
  obtain ⟨bs, rfl, -, hval⟩ := bitsAt_of_readLoop h
  exact hval ▸ shiftAll_lt order bs

/-- A code that lies in the window is read as the number its bits stand for (R122). -/
theorem readLoop_srcBit {s : State} {order : Order} {n : Nat} (hroom : s.rd.pos + n ≤ 8 * s.src.len.toNat) :
    readLoop s.srcByte? order false false n 0 { cur := s.rd } =
      ({ cur := .ofPos (s.rd.pos + n), val := numberOf order n fun j => s.srcBit order (s.rd.pos + j) }, true) := by
  have hbits := bitsAt_srcBit (order := order) (stuff := false) hroom (by simp)
  have hread := readLoop_of_bitsAt (zfill := false) hbits 0 0 0
  rwa [ReadCursor.ofPos_pos, shiftAll_range, List.length_map, List.length_range] at hread

theorem ReadCursor.pos_ofPos {p : Nat} (hp : p / 8 < 4294967296) : (ofPos p).pos = p := by
  rw [pos, ofPos_byte hp, ofPos_bit, Nat.div_add_mod]

/-- Without stuffing the cursor moves by the bits read, and never past the end of the window. -/
theorem BitsAt.pos {s : State} {order : Order} {bs : List Bool} {c d : ReadCursor}
    (h : BitsAt s.srcByte? order false bs c d) :
    d.pos = c.pos + bs.length ∧ d.pos ≤ max c.pos (8 * s.src.len.toNat) := by
  induction h with
  | nil c => exact ⟨rfl, Nat.le_max_left _ _⟩
  | @cons b bs c c' d head _ ih =>
    obtain ⟨hpos, hle⟩ := ih
    rw [rdBit_plain] at head
    split at head
    · simp at head
    · next hsrc =>
      obtain ⟨-, rfl⟩ := Prod.mk.inj head
      have hbyte := lt_len_of_srcByte?_eq_some hsrc
      have hlen := s.src.len.isLt
      have hbit := c.bit.isLt
      have hc : c.pos = 8 * c.byte.toNat + c.bit.toNat := rfl
      have hnext : (c.advance 1).pos = c.pos + 1 := by
        rw [← c.ofPos_pos, ReadCursor.ofPos_advance, c.ofPos_pos, ReadCursor.pos_ofPos (by omega)]
      rw [List.length_cons]
      omega

/-! ## The loop against the decoder of strings -/

/-- The two runs leave the same output, codes read, cursor, `TRUNC` and error, and dictionaries in step. -/
structure LzwRun.Agrees (m : Nat) (a : LzwRun) (b : LzwStringRun) : Prop where
  out : a.out = b.out
  ncodes : a.ncodes = b.ncodes
  cur : a.cur = b.cur
  trunc : a.trunc = b.trunc
  err : a.err = b.err
  final : a.unit.Represents m b.final

/-- One more code with its string, the empty one for a clear code, in front of both runs. -/
theorem LzwRun.Agrees.cons {m : Nat} {a : LzwRun} {b : LzwStringRun} (h : a.Agrees m b) (w : List Byte) :
    LzwRun.Agrees m { a with out := w ++ a.out, ncodes := a.ncodes + 1 }
      { b with out := w ++ b.out, ncodes := b.ncodes + 1 } :=
  ⟨congrArg (w ++ ·) h.out, congrArg (· + 1) h.ncodes, h.cur, h.trunc, h.err, h.final⟩

theorem lzwLoop_agrees {m : Nat} (hlo : 2 ≤ m) (hhi : m ≤ 8) (src : Nat → Option Byte) (order : Order) (turns : Nat)
    (cur : ReadCursor) {u : LzwUnit} {r : LzwStrings} (h : u.Represents m r) :
    (lzwLoop src order m turns cur u).Agrees m (lzwStringDecode src order m turns cur r) := by
  induction turns generalizing cur u r with
  | zero => exact ⟨rfl, rfl, rfl, rfl, rfl, h⟩
  | succ turns ih =>
    rw [lzwLoop, lzwStringDecode, h.width]
    rcases hread : readLoop src order false false r.width 0 { cur := cur } with ⟨b, _ | _⟩
    · exact ⟨rfl, rfl, rfl, rfl, rfl, h⟩
    simp only
    have hclearCode : clearCode m = 2 ^ m := rfl
    have hendCode : endCode m = 2 ^ m + 1 := rfl
    rw [hclearCode, hendCode]
    by_cases hclear : b.val = 2 ^ m
    · rw [if_pos hclear, if_pos hclear]
      exact (ih b.cur (.start hlo hhi)).cons []
    by_cases hend : b.val = 2 ^ m + 1
    · rw [if_neg hclear, if_neg hclear, if_pos hend, if_pos hend]
      exact ⟨rfl, rfl, rfl, rfl, rfl, h⟩
    rw [if_neg hclear, if_neg hclear, if_neg hend, if_neg hend, h.stringOf_eq hclear hend]
    cases hw : u.bytesOf m b.val with
    | none => exact ⟨rfl, rfl, rfl, rfl, rfl, h⟩
    | some w =>
      obtain ⟨-, hsize, -, -⟩ := h.bounded.wf
      have hcode : b.val < 4096 :=
        (readLoop_val_lt hread).trans_le (Nat.pow_le_pow_right (j := 12) (by decide) (h.width ▸ hsize))
      have hne : w ≠ [] := h.stringOf_ne_nil ((h.stringOf_eq hclear hend).trans hw)
      exact (ih b.cur (h.after hcode hw hne)).cons w

/-! ## The turns of the loop -/

/-- A code has at least one bit. -/
theorem LzwUnit.Bounded.codeSize_pos {m : Nat} {u : LzwUnit} (hu : u.Bounded m) : 0 < u.codeSize.toNat := by
  obtain ⟨-, -, hwidth, -⟩ := hu.wf
  have hpos : 0 < 2 ^ m := Nat.two_pow_pos m
  have hclear : 2 ^ m ≤ u.nextCode.toNat := hu.clear
  by_contra h0
  rw [Nat.eq_zero_of_not_pos h0] at hwidth
  omega

/-- The loop ends by itself within as many turns as the window has bits left, and one more (R189). -/
theorem lzwLoop_turns {m : Nat} (hlo : 2 ≤ m) (hhi : m ≤ 8) (s : State) (order : Order) {k k' : Nat} {cur : ReadCursor}
    {u : LzwUnit} (hu : u.Bounded m) (hk : 8 * s.src.len.toNat - cur.pos < k)
    (hk' : 8 * s.src.len.toNat - cur.pos < k') :
    lzwLoop s.srcByte? order m k cur u = lzwLoop s.srcByte? order m k' cur u := by
  induction k generalizing k' cur u with
  | zero => omega
  | succ k ih =>
    obtain ⟨k', rfl⟩ := Nat.exists_eq_succ_of_ne_zero (Nat.ne_of_gt (Nat.zero_lt_of_lt hk'))
    rw [lzwLoop, lzwLoop]
    rcases hread : readLoop s.srcByte? order false false u.codeSize.toNat 0 { cur := cur } with ⟨b, _ | _⟩
    · rfl
    have hsize := hu.codeSize_pos
    have hrest : 8 * s.src.len.toNat - b.cur.pos < k ∧ 8 * s.src.len.toNat - b.cur.pos < k' := by
      obtain ⟨bs, hlen, hbits, -⟩ := bitsAt_of_readLoop hread
      obtain ⟨hpos, hle⟩ := hbits.pos
      simp only at hpos hle
      omega
    simp only
    rw [ih (lzwStart_bounded hlo hhi) hrest.1 hrest.2]
    cases hbytes : u.bytesOf m b.val with
    | none => rfl
    | some bytes =>
      simp only
      rw [ih (LzwUnit.after_bounded hu hbytes) hrest.1 hrest.2]

/-- A clear code at the cursor costs a turn, counts as a code and starts the unit anew (R182). -/
theorem lzwLoop_of_clear {src : Nat → Option Byte} {order : Order} {m n turns : Nat} {cur : ReadCursor} {u : LzwUnit}
    {b : BitRead} (hsize : u.codeSize.toNat = n)
    (hread : readLoop src order false false n 0 { cur := cur } = (b, true)) (hclear : b.val = clearCode m) :
    lzwLoop src order m (turns + 1) cur u =
      let rest := lzwLoop src order m turns b.cur (lzwStart m)
      { rest with ncodes := rest.ncodes + 1 } := by
  rw [lzwLoop, hsize, hread]
  exact if_pos hclear

/-! ## `LZW.DEC` -/

/-- All that `LZW.DEC` does, by what its loop leaves. -/
theorem exec_lzwDec {order : Order} {mincs : BitVec 4} {s : State} (hi : legalMinCodeSize mincs = true)
    (hw : windowsOk (.lzwDec order mincs) s = true) {r : LzwRun}
    (hr : lzwLoop s.srcByte? order mincs.toNat (8 * s.src.len.toNat + 1) s.rd (lzwStart mincs.toNat) = r) :
    exec (.lzwDec order mincs) s = .next
      { s.ended (.lzwDec order mincs) r.err (decide (s.dst.len.toNat < r.out.length)) r.trunc false with
        rd := r.cur
        res0 := BitVec.ofNat 32 (min r.out.length s.dst.len.toNat)
        res1 := BitVec.ofNat 32 r.ncodes
        lzwNext := BitVec.ofNat 32 r.unit.nextCode.toNat
        lzwCsize := BitVec.ofNat 32 r.unit.codeSize.toNat
        lzw := r.unit
        mem := Memory.emitted s.dst r.out s.mem } := by
  rw [exec_of_ok (i := .lzwDec order mincs) (by simp) (by simp) hi hw]
  simp only [Instr.body, lzwDecBody, srcByte?_begun, State.begun_src, State.begun_rd, hr, emitAll_eq, State.ended,
    ← Status.finished_of_flags, BitVec.ofNat_toNat]
  rfl

/-! ## The obligations about `LZW.DEC` -/

/-- Settles O42: the loop and the decoder of strings go through the same codes with dictionaries in step. -/
theorem lzwRefinesStrings : Obligations.LzwRefinesStrings := by
  intro order mincs s hi hw hm m r
  obtain ⟨hlo, hhi⟩ := (legalMinCodeSize_iff mincs).mp hi
  have hagrees : LzwRun.Agrees m _ r := lzwLoop_agrees hlo hhi s.srcByte? order _ s.rd (.start hlo hhi)
  refine ⟨_, exec_lzwDec hi hw rfl, ?_, ?_⟩
  · simp only [hagrees.out, hagrees.ncodes, hagrees.cur, hagrees.trunc, hagrees.err, hagrees.final.next,
      hagrees.final.width]
  · exact outputs_of_emitted hm ((fits_of_windowsOk hw).2 rfl) (congrArg (Memory.emitted s.dst · s.mem) hagrees.out)

/-- Settles O43: after the clear code the unit is as it was, and one turn less is still enough. -/
theorem lzwLeadingClear : Obligations.LzwLeadingClear := by
  intro order mincs s t hi hroom hclear hw ht
  obtain ⟨hlo, hhi⟩ := (legalMinCodeSize_iff mincs).mp hi
  have hlen := s.src.len.isLt
  have hsize : (lzwStart mincs.toNat).codeSize.toNat = mincs.toNat + 1 := (LzwUnit.Represents.start hlo hhi).width
  have hloop := lzwLoop_of_clear (turns := 8 * s.src.len.toNat) hsize (readLoop_srcBit hroom) hclear
  have hpos : (ReadCursor.ofPos (s.rd.pos + (mincs.toNat + 1))).pos = s.rd.pos + (mincs.toNat + 1) :=
    ReadCursor.pos_ofPos (by omega)
  have hturns := lzwLoop_turns hlo hhi s order (cur := .ofPos (s.rd.pos + (mincs.toNat + 1)))
    (k := 8 * s.src.len.toNat + 1) (k' := 8 * s.src.len.toNat) (lzwStart_bounded hlo hhi) (by omega) (by omega)
  have hafter := exec_lzwDec (s := { s with rd := .ofPos (s.rd.pos + (mincs.toNat + 1)) }) hi hw hturns
  obtain rfl := Host.Outcome.next.inj (hafter.symm.trans ht)
  rw [exec_lzwDec hi hw hloop, BitVec.ofNat_add]
  rfl

end Sys2Proof.Machine
end

