-- ==== Sys2Proof/Proofs/RunLengthDecode.lean ====
section
/-!
PROOF. `RLE.PBD` and `RLE.HBD` (R210 to R212, R215, R216): what each turn of a decoder does at a packet and at a packet
that is cut short, the loop over a whole stream, and the life of the command around it.
-/

namespace Sys2Proof.Machine

/-! ## The loop over the packets of a stream, in either dialect -/

@[simp] theorem RleRun.after_out (bytes : List Byte) (used : Nat) (r : RleRun) :
    (r.after bytes used).out = bytes ++ r.out := rfl
@[simp] theorem RleRun.after_used (bytes : List Byte) (used : Nat) (r : RleRun) :
    (r.after bytes used).used = used + r.used := rfl
@[simp] theorem RleRun.after_err (bytes : List Byte) (used : Nat) (r : RleRun) : (r.after bytes used).err = r.err := rfl

/-- What is read before a packet and what is read before a row of packets add up. -/
theorem RleRun.after_after (bytes bytes' : List Byte) (used used' : Nat) (r : RleRun) :
    (r.after bytes' used').after bytes used = r.after (bytes ++ bytes') (used + used') := by
  simp [RleRun.after, Nat.add_assoc]

section

variable {π : Type} {decode : Nat → List Byte → RleRun} {stream output : π → List Byte} {ps : List π}

/-- A loop that takes each packet in one turn takes a row of packets in as many turns. -/
theorem decode_packets (k : Nat) (rest : List Byte)
    (hturn : ∀ p ∈ ps, ∀ k rest,
      decode (k + 1) (stream p ++ rest) = (decode k rest).after (output p) (stream p).length) :
    decode (ps.length + k) (ps.flatMap stream ++ rest) =
      (decode k rest).after (ps.flatMap output) (ps.flatMap stream).length := by
  induction ps with
  | nil => simp [RleRun.after]
  | cons p ps ih =>
    rw [List.length_cons, Nat.add_right_comm, List.flatMap_cons, List.append_assoc, hturn p List.mem_cons_self,
      ih fun q hq => hturn q (List.mem_cons_of_mem p hq), RleRun.after_after]
    simp

/-- As many turns as there are bytes are enough (R220): after the packets, turns are left for the bytes that follow. -/
theorem decode_stream {tail : List Byte} {last : RleRun}
    (hturn : ∀ p ∈ ps, ∀ k rest,
      decode (k + 1) (stream p ++ rest) = (decode k rest).after (output p) (stream p).length)
    (hheader : ∀ p, 1 ≤ (stream p).length) (hlast : ∀ k, tail.length ≤ k → decode k tail = last) :
    decode (ps.flatMap stream ++ tail).length (ps.flatMap stream ++ tail) =
      last.after (ps.flatMap output) (ps.flatMap stream).length := by
  have hle : ps.length ≤ (ps.flatMap stream).length := by
    simpa [List.length_flatMap] using (ps.map fun p => (stream p).length).length_le_sum_of_one_le (by simp [hheader])
  obtain ⟨k, hk⟩ := Nat.exists_eq_add_of_le hle
  rw [List.length_append, hk, Nat.add_assoc, decode_packets _ _ hturn, hlast _ (Nat.le_add_left _ _), hk]

/-- Where bytes follow that end the loop in one turn, there is a turn left for them. -/
theorem decode_cut_stream {tail : List Byte} {last : RleRun}
    (hturn : ∀ p ∈ ps, ∀ k rest,
      decode (k + 1) (stream p ++ rest) = (decode k rest).after (output p) (stream p).length)
    (hheader : ∀ p, 1 ≤ (stream p).length) (htail : 1 ≤ tail.length) (hcut : ∀ k, decode (k + 1) tail = last) :
    decode (ps.flatMap stream ++ tail).length (ps.flatMap stream ++ tail) =
      last.after (ps.flatMap output) (ps.flatMap stream).length :=
  decode_stream hturn hheader fun k hk => by
    obtain ⟨j, rfl⟩ := Nat.exists_eq_add_of_le' (htail.trans hk)
    exact hcut j

end

/-! ## The PackBits packets -/

theorem sext8_ofInt {n : Int} (hlo : -128 ≤ n) (hhi : n < 128) : sext8 (BitVec.ofInt 8 n) = n :=
  BitVec.toInt_ofInt_eq_self (by decide) hlo hhi

theorem sext8_ofNat {n : Nat} (h : n < 128) : sext8 (BitVec.ofNat 8 n) = n := by
  rw [← BitVec.ofInt_natCast]
  exact sext8_ofInt (by omega) (by omega)

theorem pbDecode_nil (k : Nat) : pbDecode k [] = {} := by
  cases k <;> rfl

/-- A literal header (R210) whose bytes are all there. -/
theorem pbDecode_of_literal {h : Byte} {bytes : List Byte} (hh : sext8 h + 1 = bytes.length) (h0 : 0 ≤ sext8 h)
    (k : Nat) (rest : List Byte) :
    pbDecode (k + 1) (h :: (bytes ++ rest)) = (pbDecode k rest).after bytes (1 + bytes.length) := by
  have hc : (sext8 h).toNat + 1 = bytes.length := by omega
  simp [pbDecode, h0, hc]

/-- A literal header that announces more bytes than are there (R211). -/
theorem pbDecode_of_cut_literal {h : Byte} {bytes : List Byte} (hh : (bytes.length : Int) < sext8 h + 1) (k : Nat) :
    pbDecode (k + 1) (h :: bytes) = { out := bytes, used := 1 + bytes.length, err := .truncatedData } := by
  have h0 : 0 ≤ sext8 h := by omega
  have hc : bytes.length < (sext8 h).toNat + 1 := by omega
  simp [pbDecode, h0, hc]

theorem pbDecode_of_noop {h : Byte} (hh : sext8 h = -128) (k : Nat) (rest : List Byte) :
    pbDecode (k + 1) (h :: rest) = (pbDecode k rest).after [] 1 := by
  simp [pbDecode, hh]

/-- A repeat header (R210) with its byte. -/
theorem pbDecode_of_rep {h : Byte} (hneg : sext8 h < 0) (hne : sext8 h ≠ -128) (k : Nat) (v : Byte)
    (rest : List Byte) :
    pbDecode (k + 1) (h :: v :: rest) = (pbDecode k rest).after (List.replicate (1 - sext8 h).toNat v) 2 := by
  simp [pbDecode, Int.not_le.mpr hneg, hne]

/-- A repeat header without its byte (R211). -/
theorem pbDecode_of_cut_rep {h : Byte} (hneg : sext8 h < 0) (hne : sext8 h ≠ -128) (k : Nat) :
    pbDecode (k + 1) [h] = { used := 1, err := .truncatedData } := by
  simp [pbDecode, Int.not_le.mpr hneg, hne]

theorem PbPacket.one_le_length (p : PbPacket) : 1 ≤ p.stream.length := by
  cases p <;> simp [stream]

/-- One turn of the loop takes one packet. -/
theorem pbDecode_packet {p : PbPacket} (hp : p.legal) (k : Nat) (rest : List Byte) :
    pbDecode (k + 1) (p.stream ++ rest) = (pbDecode k rest).after p.output p.stream.length := by
  cases p with
  | literal bytes =>
    obtain ⟨hlo, hhi⟩ := hp
    have hn := sext8_ofInt (n := (bytes.length : Int) - 1) (by omega) (by omega)
    rw [PbPacket.stream, List.cons_append, pbDecode_of_literal (by omega) (by omega), List.length_cons, Nat.add_comm]
    rfl
  | rep times v =>
    obtain ⟨hlo, hhi⟩ := hp
    have hn := sext8_ofInt (n := 1 - (times : Int)) (by omega) (by omega)
    have htimes : (1 - sext8 (BitVec.ofInt 8 (1 - (times : Int)))).toNat = times := by omega
    rw [PbPacket.stream, List.cons_append, List.cons_append, pbDecode_of_rep (by omega) (by omega), htimes]
    rfl
  | noop => exact pbDecode_of_noop rfl k rest

theorem PbCut.one_le_length (c : PbCut) : 1 ≤ c.stream.length := by
  cases c <;> simp [stream]

/-- The turn at a packet that is cut short is the last. -/
theorem pbDecode_cut {c : PbCut} (hc : c.legal) (k : Nat) :
    pbDecode (k + 1) c.stream = { out := c.output, used := c.stream.length, err := .truncatedData } := by
  cases c with
  | literal announced bytes =>
    obtain ⟨hhi, hcut⟩ := hc
    have hn := sext8_ofNat (n := announced - 1) (by omega)
    rw [PbCut.stream, pbDecode_of_cut_literal (by omega), List.length_cons, Nat.add_comm]
    rfl
  | rep times =>
    obtain ⟨hlo, hhi⟩ := hc
    have hn := sext8_ofInt (n := 1 - (times : Int)) (by omega) (by omega)
    exact pbDecode_of_cut_rep (by omega) (by omega) k

/-! ## The high-bit-flag packets -/

/-- The header of a literal packet (R215): the top bit is clear, the low seven bits are one less than the count. -/
theorem hbHeader_literal {n : Nat} (hn : n < 128) :
    (BitVec.ofNat 8 n).getLsbD 7 = false ∧ ((BitVec.ofNat 8 n).extractLsb' 0 7).toNat = n := by
  rw [← BitVec.testBit_toNat, Nat.testBit_eq_decide_div_mod_eq, BitVec.extractLsb'_toNat, BitVec.toNat_ofNat]
  constructor
  · rw [decide_eq_false_iff_not]
    omega
  · rw [Nat.shiftRight_zero]
    omega

/-- The header of a repeat packet (R215): the top bit is set, the low seven bits are one less than the count. -/
theorem hbHeader_rep {n : Nat} (hn : n < 128) :
    (BitVec.ofNat 8 (128 + n)).getLsbD 7 = true ∧ ((BitVec.ofNat 8 (128 + n)).extractLsb' 0 7).toNat = n := by
  rw [← BitVec.testBit_toNat, Nat.testBit_eq_decide_div_mod_eq, BitVec.extractLsb'_toNat, BitVec.toNat_ofNat]
  constructor
  · rw [decide_eq_true_iff]
    omega
  · rw [Nat.shiftRight_zero]
    omega

theorem hbDecode_nil (sz k : Nat) : hbDecode sz k [] = {} := by
  cases k <;> rfl

section

variable {sz n : Nat} (hn : n < 128)
include hn

theorem hbDecode_of_literal {bytes : List Byte} (hlen : bytes.length = (n + 1) * sz) (k : Nat) (rest : List Byte) :
    hbDecode sz (k + 1) (BitVec.ofNat 8 n :: (bytes ++ rest)) =
      (hbDecode sz k rest).after bytes (1 + bytes.length) := by
  obtain ⟨hflag, hcount⟩ := hbHeader_literal hn
  simp only [hbDecode, hflag, hcount, ← hlen]
  simp

/-- A literal header that announces more bytes than are there (R216). -/
theorem hbDecode_of_cut_literal {bytes : List Byte} (hcut : bytes.length < (n + 1) * sz) (k : Nat) :
    hbDecode sz (k + 1) (BitVec.ofNat 8 n :: bytes) =
      { out := bytes, used := 1 + bytes.length, err := .truncatedData } := by
  obtain ⟨hflag, hcount⟩ := hbHeader_literal hn
  simp only [hbDecode, hflag, hcount, if_pos hcut]
  simp

theorem hbDecode_of_rep {e : List Byte} (hlen : e.length = sz) (k : Nat) (rest : List Byte) :
    hbDecode sz (k + 1) (BitVec.ofNat 8 (128 + n) :: (e ++ rest)) =
      (hbDecode sz k rest).after (List.replicate (n + 1) e).flatten (1 + sz) := by
  obtain ⟨hflag, hcount⟩ := hbHeader_rep hn
  simp only [hbDecode, hflag, hcount, ← hlen]
  simp

/-- A repeat header without its whole element (R216). -/
theorem hbDecode_of_cut_rep {bytes : List Byte} (hcut : bytes.length < sz) (k : Nat) :
    hbDecode sz (k + 1) (BitVec.ofNat 8 (128 + n) :: bytes) = { used := 1, err := .truncatedData } := by
  obtain ⟨hflag, -⟩ := hbHeader_rep hn
  simp only [hbDecode, hflag, if_pos hcut, if_true]

end

/-- A row of elements of one size has as many bytes as that says. -/
theorem length_flatten_of_elements {sz : Nat} {es : List (List Byte)} (h : ∀ e ∈ es, e.length = sz) :
    es.flatten.length = es.length * sz := by
  rw [List.length_flatten, List.sum_eq_card_nsmul _ sz (by simpa using h), List.length_map, smul_eq_mul]

theorem HbPacket.one_le_length (p : HbPacket) : 1 ≤ p.stream.length := by
  cases p <;> simp [stream]

/-- One turn of the loop takes one packet. -/
theorem hbDecode_packet {sz : Nat} {p : HbPacket} (hp : p.legal sz) (k : Nat) (rest : List Byte) :
    hbDecode sz (k + 1) (p.stream ++ rest) = (hbDecode sz k rest).after p.output p.stream.length := by
  cases p with
  | literal es =>
    obtain ⟨hlo, hhi, hes⟩ := hp
    have hlen : es.flatten.length = (es.length - 1 + 1) * sz := by
      rw [Nat.sub_add_cancel hlo, length_flatten_of_elements hes]
    rw [HbPacket.stream, List.cons_append, hbDecode_of_literal (by omega) hlen, List.length_cons, Nat.add_comm]
    rfl
  | rep times e =>
    obtain ⟨hlo, hhi, he⟩ := hp
    rw [HbPacket.stream, List.cons_append, hbDecode_of_rep (by omega) he, Nat.sub_add_cancel hlo, List.length_cons, he,
      Nat.add_comm]
    rfl

theorem HbCut.one_le_length (c : HbCut) : 1 ≤ c.stream.length := by
  cases c <;> simp [stream]

/-- The turn at a packet that is cut short is the last. -/
theorem hbDecode_cut {sz : Nat} {c : HbCut} (hc : c.legal sz) (k : Nat) :
    hbDecode sz (k + 1) c.stream = { out := c.output.1, used := c.output.2, err := .truncatedData } := by
  cases c with
  | literal announced bytes =>
    obtain ⟨hhi, hcut⟩ := hc
    have hpos : announced ≠ 0 := by
      rintro rfl
      simp at hcut
    have hcut' : bytes.length < (announced - 1 + 1) * sz := by rwa [Nat.sub_add_cancel (Nat.pos_of_ne_zero hpos)]
    exact hbDecode_of_cut_literal (by omega) hcut' k
  | rep times bytes =>
    obtain ⟨hlo, hhi, hcut⟩ := hc
    exact hbDecode_of_cut_rep (by omega) hcut k

/-! ## The life of a decoder's command -/

/-- All that a command does whose pseudocode is to emit the output of a decoder (R66, R211, R216). -/
theorem exec_decoder {i : Instr} {s : State} {r : RleRun} {out : List Byte} {used : Word} {err : ResultCode}
    (hc : i ≠ .clrerr) (hs : i ≠ .sreset) (hi : i.wellFormed = true) (hd : i.usesDst = true)
    (hw : windowsOk i s = true) (hm : s.mem.wf)
    (hbody : i.body (s.begun (encode i)) = finishDecode r (s.begun (encode i)))
    (hout : r.out = out) (hused : BitVec.ofNat 32 r.used = used) (herr : r.err = err) :
    ∃ t, exec i s = .next t ∧
      t = { s.ended i err (decide (s.dst.len.toNat < out.length)) false false with
            res0 := BitVec.ofNat 32 (min out.length s.dst.len.toNat)
            res1 := used
            mem := t.mem } ∧
      s.outputs t out := by
  subst hout hused herr
  refine ⟨_, exec_of_ok hc hs hi hw, ?_, outputs_of_emitted hm ((fits_of_windowsOk hw).2 hd) ?_⟩
  · simp only [hbody, finishDecode, emitAll_eq, State.ended, ← Status.finished_of_flags]
    rfl
  · simp only [hbody, finishDecode, emitAll_eq]
    rfl

/-- The number of bytes in the source window, as the register shows it. -/
theorem ofNat_length_of_srcAll {s : State} {bytes : List Byte} (h : s.srcAll = bytes) :
    BitVec.ofNat 32 bytes.length = s.src.len := by
  rw [← h, srcAll_length, BitVec.ofNat_toNat, BitVec.setWidth_eq]

/-! ## The obligations about the decoders -/

/-- Settles O44: the loop takes one packet in each turn, and `Emit` clamps what they stand for. -/
theorem rlePbdDecodes : Obligations.RlePbdDecodes := by
  intro s ps hw hm hps
  have hturn : ∀ p ∈ ps, ∀ k rest, pbDecode (k + 1) (p.stream ++ rest) = _ := fun p hp => pbDecode_packet (hps p hp)
  refine ⟨fun hsrc => ?_, fun c hc hsrc => ?_⟩
  · have hrun := decode_stream hturn PbPacket.one_le_length (tail := []) fun k _ => pbDecode_nil k
    rw [List.append_nil, ← hsrc] at hrun
    refine exec_decoder (by simp) (by simp) rfl rfl hw hm (by rw [Instr.body, srcAll_begun, hrun]) ?_ ?_ rfl
    · rw [RleRun.after_out, List.append_nil]
    · exact ofNat_length_of_srcAll rfl
  · have hrun := decode_cut_stream hturn PbPacket.one_le_length c.one_le_length (pbDecode_cut hc)
    rw [← hsrc] at hrun
    refine exec_decoder (by simp) (by simp) rfl rfl hw hm (by rw [Instr.body, srcAll_begun, hrun]) rfl ?_ rfl
    rw [RleRun.after_used, ← List.length_append, ofNat_length_of_srcAll hsrc]

/-- Settles O45: as for `RLE.PBD`, with the packets of the other dialect. -/
theorem rleHbdDecodes : Obligations.RleHbdDecodes := by
  intro size s ps hi hw hm hps
  have hturn : ∀ p ∈ ps, ∀ k rest, hbDecode size.toNat (k + 1) (p.stream ++ rest) = _ :=
    fun p hp => hbDecode_packet (hps p hp)
  refine ⟨fun hsrc => ?_, fun c hc hsrc => ?_⟩
  · have hrun := decode_stream hturn HbPacket.one_le_length (tail := []) fun k _ => hbDecode_nil size.toNat k
    rw [List.append_nil, ← hsrc] at hrun
    refine exec_decoder (by simp) (by simp) hi rfl hw hm (by rw [Instr.body, srcAll_begun, hrun]) ?_ ?_ rfl
    · rw [RleRun.after_out, List.append_nil]
    · exact ofNat_length_of_srcAll rfl
  · have hrun := decode_cut_stream hturn HbPacket.one_le_length c.one_le_length (hbDecode_cut hc)
    rw [← hsrc] at hrun
    exact exec_decoder (by simp) (by simp) hi rfl hw hm (by rw [Instr.body, srcAll_begun, hrun]) rfl rfl rfl

end Sys2Proof.Machine
end

