-- ==== Sys2Proof/Proofs/RunLengthTokens.lean ====
section
/-!
PROOF. The tokens of the run-length encoders (R213, R218): the two inner loops, what the first token of a sequence is,
that the tokens are those of the greedy encoder and stand for the whole sequence, and how large their packets get.
-/

namespace Sys2Proof.Machine

section

variable {α : Type}

/-! ## Tokens and the greedy encoder -/

theorem Token.legal.one_le_length {t : Token α} (h : t.legal) : 1 ≤ t.items.length := by
  cases t with
  | run count x =>
    obtain ⟨htwo, -⟩ := h
    rw [items, List.length_replicate]
    omega
  | literal xs => exact h.1

theorem Token.adv_eq (t : Token α) : t.adv = t.items.length := by
  cases t <;> simp [adv, items]

theorem greedy_cons {t : Token α} {ts : List (Token α)} :
    greedy (t :: ts) ↔ t.legal ∧ (∀ q ∈ ts.head?, t.follows q) ∧ greedy ts := by
  simp only [greedy, List.forall_mem_cons, List.isChain_cons]
  tauto

theorem greedy_nil : greedy ([] : List (Token α)) := ⟨by simp, .nil⟩

variable [DecidableEq α]

/-! ## The first inner loop -/

theorem runMore_le (x : α) (cap : Nat) (xs : List α) : runMore x cap xs ≤ cap := by
  fun_induction runMore x cap xs <;> omega

/-- What the loop passes is equal to the first element of the run. -/
theorem replicate_runMore (x : α) (cap : Nat) (xs : List α) :
    List.replicate (runMore x cap xs) x ++ xs.drop (runMore x cap xs) = xs := by
  fun_induction runMore x cap xs with
  | case3 cap ys ih => rw [Nat.add_comm, List.replicate_succ, List.drop_succ_cons, List.cons_append, ih]
  | _ => rfl

/-- The loop ends because the run is full or no equal element follows. -/
theorem runMore_stop (x : α) (cap : Nat) (xs : List α) :
    runMore x cap xs = cap ∨ (xs.drop (runMore x cap xs)).head? ≠ some x := by
  fun_induction runMore x cap xs with
  | case1 => exact .inl rfl
  | case2 => exact .inr (by simp)
  | case3 cap ys ih => simpa [Nat.add_comm 1] using ih
  | case4 cap y ys hne => exact .inr (by simpa using hne)

/-! ## The second inner loop -/

theorem literalMore_le (cap : Nat) (xs : List α) : literalMore cap xs ≤ cap := by
  fun_induction literalMore cap xs <;> omega

theorem literalMore_le_length (cap : Nat) (xs : List α) : literalMore cap xs ≤ xs.length := by
  fun_induction literalMore cap xs with
  | case4 cap y ys hne ih =>
    rw [List.length_cons]
    omega
  | _ => exact Nat.zero_le _

/-- The loop ends because the literal is full or, if anything is left, two equal elements follow. -/
theorem literalMore_stop (cap : Nat) (xs : List α) :
    literalMore cap xs = cap ∨ ∀ y ys, xs.drop (literalMore cap xs) = y :: ys → ys.head? = some y := by
  fun_induction literalMore cap xs with
  | case1 => exact .inl rfl
  | case2 => exact .inr (by simp)
  | case3 cap y ys heq =>
    refine .inr fun z zs hz => ?_
    obtain ⟨rfl, rfl⟩ := List.cons.inj hz
    exact heq
  | case4 cap y ys hne ih => simpa [Nat.add_comm 1] using ih

/-- No two neighbours of a literal are equal, and neither are its last element and the next one, if this holds of the
element before the loop. -/
theorem literalMore_chain {x : α} {xs : List α} (cap : Nat) (hx : xs.head? ≠ some x) :
    (x :: xs.take (literalMore cap xs)).IsChain (· ≠ ·) ∧
      (x :: xs.take (literalMore cap xs)).getLast? ≠ (xs.drop (literalMore cap xs)).head? := by
  fun_induction literalMore cap xs generalizing x with
  | case4 cap y ys hne ih =>
    obtain ⟨hchain, hlast⟩ := ih hne
    rw [Nat.add_comm, List.take_succ_cons, List.drop_succ_cons, List.isChain_cons_cons, List.getLast?_cons_cons]
    exact ⟨⟨fun e => hx (by rw [e, List.head?_cons]), hchain⟩, hlast⟩
  | _ => exact ⟨List.isChain_singleton x, Ne.symm hx⟩

/-! ## The tokens of a sequence -/

theorem tokens_nil (turns : Nat) : tokens turns ([] : List α) = [] := by
  cases turns <;> rfl

theorem tokens_of_run {x : α} {xs : List α} (h : 0 < runMore x 127 xs) (turns : Nat) :
    tokens (turns + 1) (x :: xs) =
      .run (1 + runMore x 127 xs) x :: tokens turns (xs.drop (runMore x 127 xs)) := by
  simp only [tokens, if_pos h]

theorem tokens_of_literal {x : α} {xs : List α} (h : runMore x 127 xs = 0) (turns : Nat) :
    tokens (turns + 1) (x :: xs) =
      .literal (x :: xs.take (literalMore 127 xs)) :: tokens turns (xs.drop (literalMore 127 xs)) := by
  simp only [tokens, h, if_neg (Nat.lt_irrefl 0)]

/-- The first token begins with the first element. -/
theorem tokens_head_items {turns : Nat} {xs : List α} {q : Token α} (hq : q ∈ (tokens turns xs).head?) :
    q.items.head? = xs.head? := by
  cases turns with
  | zero => simp [tokens] at hq
  | succ turns =>
    cases xs with
    | nil => simp [tokens] at hq
    | cons x xs =>
      rcases Nat.eq_zero_or_pos (runMore x 127 xs) with h | h
      · obtain rfl := by simpa [tokens_of_literal h] using hq
        rfl
      · obtain rfl := by simpa [tokens_of_run h] using hq
        rw [Nat.add_comm, Token.items, List.replicate_succ]
        rfl

/-- Where two equal elements stand first, the first token is a run. -/
theorem tokens_head_run {turns : Nat} {y : α} {ys : List α} (hy : ys.head? = some y) {q : Token α}
    (hq : q ∈ (tokens turns (y :: ys)).head?) : ∃ count x, q = .run count x := by
  cases turns with
  | zero => simp [tokens] at hq
  | succ turns =>
    have hpos : 0 < runMore y 127 ys := by
      rcases Nat.eq_zero_or_pos (runMore y 127 ys) with h | h
      · have hstop := runMore_stop y 127 ys
        simp [h, hy] at hstop
      · exact h
    exact ⟨_, y, by simpa [tokens_of_run hpos, eq_comm] using hq⟩

/-- One turn makes one legal token of the first elements, one that the next token may follow. -/
theorem tokens_cons (turns : Nat) (x : α) (xs : List α) :
    ∃ t rest, tokens (turns + 1) (x :: xs) = t :: tokens turns rest ∧ t.items ++ rest = x :: xs ∧ t.legal ∧
      ∀ q ∈ (tokens turns rest).head?, t.follows q := by
  rcases Nat.eq_zero_or_pos (runMore x 127 xs) with h | h
  · have hx : xs.head? ≠ some x := by simpa [h] using runMore_stop x 127 xs
    obtain ⟨hchain, hlast⟩ := literalMore_chain 127 hx
    have hlen : (x :: xs.take (literalMore 127 xs)).length = literalMore 127 xs + 1 := by
      rw [List.length_cons, List.length_take_of_le (literalMore_le_length 127 xs)]
    refine ⟨_, _, tokens_of_literal h turns, congrArg (x :: ·) (List.take_append_drop _ xs), ⟨?_, ?_, hchain⟩,
      fun q hq => ⟨?_, tokens_head_items hq ▸ hlast⟩⟩
    · omega
    · have := literalMore_le 127 xs
      omega
    · refine (literalMore_stop 127 xs).imp (fun hfull => by rw [hlen, hfull]) fun hpair => ?_
      cases hrest : xs.drop (literalMore 127 xs) with
      | nil => simp [hrest, tokens_nil] at hq
      | cons y ys => exact tokens_head_run (hpair y ys hrest) (hrest ▸ hq)
  · refine ⟨_, _, tokens_of_run h turns, ?_, ⟨?_, ?_⟩, fun q hq => ?_⟩
    · rw [Token.items, Nat.add_comm, List.replicate_succ, List.cons_append, replicate_runMore]
    · omega
    · have := runMore_le x 127 xs
      omega
    · rw [Token.follows, tokens_head_items hq]
      exact (runMore_stop x 127 xs).imp_left fun hfull => by rw [hfull]

/-- The tokens stand for the whole sequence, if there is a turn for each element. -/
theorem tokens_items {turns : Nat} {xs : List α} (h : xs.length ≤ turns) :
    (tokens turns xs).flatMap Token.items = xs := by
  induction turns generalizing xs with
  | zero =>
    obtain rfl := List.length_eq_zero_iff.mp (Nat.le_zero.mp h)
    rfl
  | succ turns ih =>
    cases xs with
    | nil => rfl
    | cons x xs =>
      obtain ⟨t, rest, htokens, hitems, hlegal, -⟩ := tokens_cons turns x xs
      have hlen := congrArg List.length hitems
      have hpos := hlegal.one_le_length
      rw [List.length_append, List.length_cons] at hlen
      rw [List.length_cons] at h
      rw [htokens, List.flatMap_cons, ih (by omega), hitems]

theorem greedy_tokens (turns : Nat) (xs : List α) : greedy (tokens turns xs) := by
  induction turns generalizing xs with
  | zero => exact greedy_nil
  | succ turns ih =>
    cases xs with
    | nil => exact greedy_nil
    | cons x xs =>
      obtain ⟨t, rest, htokens, -, hlegal, hfollows⟩ := tokens_cons turns x xs
      rw [htokens, greedy_cons]
      exact ⟨hlegal, hfollows, ih rest⟩

end

/-! ## How large the packets get -/

/-- A run costs no more than it stands for, a literal one byte more. A run of two or more comes after a literal that is
not full, so that byte is one in at least three, but for the last literal: this is what the 2 is for, and tokens that do
not begin with a literal do without it. -/
theorem greedy_length {ts : List (Token Byte)} (h : greedy ts) :
    3 * (ts.flatMap pbPacket).length ≤ 4 * (ts.flatMap Token.items).length + 2 ∧
      ((∀ xs, ts.head? ≠ some (.literal xs)) →
        3 * (ts.flatMap pbPacket).length ≤ 4 * (ts.flatMap Token.items).length) := by
  induction ts with
  | nil => simp
  | cons t ts ih =>
    obtain ⟨hlegal, hfollows, hrest⟩ := greedy_cons.mp h
    obtain ⟨hany, hrun⟩ := ih hrest
    simp only [List.flatMap_cons, List.length_append]
    cases t with
    | run count x =>
      obtain ⟨htwo, -⟩ := hlegal
      simp only [pbPacket, Token.items, List.length_cons, List.length_nil, List.length_replicate]
      omega
    | literal xs =>
      obtain ⟨hone, -, -⟩ := hlegal
      refine ⟨?_, fun hno => absurd rfl (hno xs)⟩
      simp only [pbPacket, Token.items, List.length_cons]
      by_cases hfull : xs.length = 128
      · omega
      · have := hrun fun ys hys => by
          obtain ⟨hor, -⟩ := hfollows _ hys
          obtain ⟨_, _, hq⟩ := hor.resolve_left hfull
          cases hq
        omega

/-- Settles O50: the bound from the greedy tokens, and 01 02 02 03 with its six bytes. -/
theorem packBitsExpansion : Obligations.PackBitsExpansion := by
  refine ⟨fun bs => ?_, [1, 2, 2, 3], by decide⟩
  have hbound := (greedy_length (greedy_tokens bs.length bs)).1
  rw [tokens_items (Nat.le_refl _)] at hbound
  have hpackets : (pbPackets bs).flatMap Prod.fst = (tokens bs.length bs).flatMap pbPacket := by
    rw [pbPackets, List.flatMap_map]
  rw [hpackets]
  omega

end Sys2Proof.Machine
end

