-- ==== Sys2Proof/Proofs/RunLengthEncode.lean ====
section
/-!
PROOF. `RLE.PBE` and `RLE.HBE` (R213, R218, R67): the encoders' packets are those of their dialects, which packets are
stored, and the life of the command around them.
-/

namespace Sys2Proof.Machine

/-! ## The packets of a token -/

/-- The machine's PackBits packet is that of R210. -/
theorem pbPacket_eq {t : Token Byte} (h : t.legal) : pbPacket t = t.pb.stream := by
  cases t with
  | run count x =>
    obtain ⟨hlo, hhi⟩ := h
    have hheader : BitVec.ofNat 8 ((257 - count) % 256) = BitVec.ofInt 8 (1 - (count : Int)) := by
      refine BitVec.eq_of_toNat_eq ?_
      rw [BitVec.toNat_ofNat, BitVec.toNat_ofInt]
      omega
    rw [pbPacket, Token.pb, PbPacket.stream, hheader]
  | literal xs =>
    obtain ⟨hlo, -, -⟩ := h
    rw [pbPacket, Token.pb, PbPacket.stream, ← BitVec.ofInt_natCast, Nat.cast_sub hlo]
    rfl

/-- The machine's high-bit-flag packet is that of R215. -/
theorem hbPacket_eq {t : Token (List Byte)} (h : t.legal) : hbPacket t = t.hb.stream := by
  cases t with
  | run count x =>
    obtain ⟨hlo, hhi⟩ := h
    have hor : 128 ||| (count - 1) = 128 + (count - 1) := (Nat.two_pow_add_eq_or_of_lt (i := 7) (by omega) 1).symm
    rw [hbPacket, Token.hb, HbPacket.stream, ← hor, BitVec.ofNat_or]
    rfl
  | literal xs => rfl

theorem pbPackets_eq (bs : List Byte) :
    pbPackets bs = (tokens bs.length bs).map fun t => (t.pb.stream, t.adv) :=
  List.map_congr_left fun t ht => by rw [pbPacket_eq ((greedy_tokens _ _).1 t ht)]

theorem hbPackets_eq (es : List (List Byte)) :
    hbPackets es = (tokens es.length es).map fun t => (t.hb.stream, t.adv) :=
  List.map_congr_left fun t ht => by rw [hbPacket_eq ((greedy_tokens _ _).1 t ht)]

/-! ## The packets that are stored -/

/-- The stored packets are the first so many, and the next one does not fit (R67). -/
theorem storedPackets_eq_take (room : Nat) (ps : List (List Byte × Nat)) :
    ∃ n, n ≤ ps.length ∧ storedPackets room ps = ps.take n ∧
      (n < ps.length → room < ((ps.take (n + 1)).flatMap Prod.fst).length) := by
  induction ps generalizing room with
  | nil => exact ⟨0, Nat.le_refl _, rfl, fun h => absurd h (Nat.lt_irrefl 0)⟩
  | cons p ps ih =>
    by_cases hfull : room < p.1.length
    · exact ⟨0, Nat.zero_le _, if_pos hfull, fun _ => by simpa using hfull⟩
    · obtain ⟨n, hle, htake, hnext⟩ := ih (room - p.1.length)
      refine ⟨n + 1, Nat.succ_le_succ hle, (if_neg hfull).trans (by rw [htake, List.take_succ_cons]), fun hlt => ?_⟩
      have := hnext (Nat.lt_of_succ_lt_succ hlt)
      rw [List.take_succ_cons, List.flatMap_cons, List.length_append]
      omega

/-- The loop over the packets, field by field (R67). -/
theorem putPackets_eq {ps : List (List Byte × Nat)} {s : State} {n : Nat} (hn : n ≤ ps.length)
    (hstored : storedPackets s.dst.len.toNat ps = ps.take n) :
    putPackets ps 0 0 s = (((ps.take n).flatMap Prod.fst).length, ((ps.take n).map Prod.snd).sum,
      { s with
        status := { s.status with dstfull := s.status.dstfull || decide (n < ps.length) }
        mem := Memory.emitted s.dst ((ps.take n).flatMap Prod.fst) s.mem }) := by
  have hfit := storedPackets_length s.dst.len.toNat ps
  rw [hstored] at hfit
  rw [putPackets_spec ps 0 0 s (Nat.zero_le _), Nat.sub_zero, hstored, ← dstBytes_take_mem,
    List.take_of_length_le hfit]
  simp only [Nat.zero_add]
  by_cases hall : n < ps.length
  · have hne : ps.take n ≠ ps := fun e => by
      have := congrArg List.length e
      rw [List.length_take_of_le hn] at this
      omega
    rw [if_neg hne, decide_eq_true hall, Bool.or_true, dstBytes_eq]
    rfl
  · rw [if_pos (List.take_of_length_le (Nat.not_lt.mp hall)), decide_eq_false hall, Bool.or_false, dstBytes_eq]

/-! ## The life of an encoder's command -/

/-- The elements that tokens stand for are as many as the tokens say. -/
theorem sum_adv {α : Type} (ts : List (Token α)) : (ts.map Token.adv).sum = (ts.flatMap Token.items).length := by
  rw [List.length_flatMap, List.map_congr_left fun t _ => t.adv_eq]

/-- All that a command does whose pseudocode is to put the packets of tokens (R67, R213, R218). -/
theorem exec_encoder {α : Type} {i : Instr} {s : State} {ts : List (Token α)} {packet : Token α → List Byte}
    {unit : Nat} (hc : i ≠ .clrerr) (hs : i ≠ .sreset) (hi : i.wellFormed = true) (hd : i.usesDst = true)
    (hw : windowsOk i s = true) (hm : s.mem.wf)
    (hbody : i.body (s.begun (encode i)) =
      finishEncode unit (ts.map fun t => (packet t, t.adv)) (s.begun (encode i))) :
    ∃ (n : Nat) (t : State), n ≤ ts.length ∧ ((ts.take n).flatMap packet).length ≤ s.dst.len.toNat ∧
      (n < ts.length → s.dst.len.toNat < ((ts.take (n + 1)).flatMap packet).length) ∧
      exec i s = .next t ∧
      t = { s.ended i .ok (decide (n < ts.length)) false false with
            res0 := BitVec.ofNat 32 ((ts.take n).flatMap packet).length
            res1 := BitVec.ofNat 32 (((ts.take n).flatMap Token.items).length * unit)
            mem := t.mem } ∧
      s.outputs t ((ts.take n).flatMap packet) := by
  have hfst : ∀ k, ((ts.map fun t => (packet t, t.adv)).take k).flatMap Prod.fst = (ts.take k).flatMap packet :=
    fun k => by rw [← List.map_take, List.flatMap_map]
  have hsnd : ∀ k, (((ts.map fun t => (packet t, t.adv)).take k).map Prod.snd).sum =
      ((ts.take k).flatMap Token.items).length :=
    fun k => by rw [← List.map_take, List.map_map, ← sum_adv]; rfl
  obtain ⟨n, hle, hstored, hnext⟩ := storedPackets_eq_take s.dst.len.toNat (ts.map fun t => (packet t, t.adv))
  have hfit := storedPackets_length s.dst.len.toNat (ts.map fun t => (packet t, t.adv))
  rw [hstored, hfst] at hfit
  have hput := putPackets_eq (s := s.begun (encode i)) hle hstored
  rw [hfst, hsnd, List.length_map] at hput
  rw [List.length_map] at hle
  rw [List.length_map, hfst] at hnext
  refine ⟨n, _, hle, hfit, hnext, exec_of_ok hc hs hi hw, ?_,
    outputs_of_emitted hm ((fits_of_windowsOk hw).2 hd) ?_⟩
  · simp only [hbody, finishEncode, hput, State.ended, ← Status.finished_of_flags]
    rfl
  · simp only [hbody, finishEncode, hput]
    rfl

/-! ## The elements of the source -/

/-- The elements are of the size and make up the bytes, if these are a whole number of elements. -/
theorem elements_spec {sz n : Nat} {bs : List Byte} (h : bs.length = n * sz) :
    (∀ e ∈ elements sz n bs, e.length = sz) ∧ (elements sz n bs).flatten = bs := by
  induction n generalizing bs with
  | zero =>
    obtain rfl := List.length_eq_zero_iff.mp (h.trans (Nat.zero_mul sz))
    exact ⟨by simp [elements], rfl⟩
  | succ n ih =>
    rw [Nat.succ_mul] at h
    obtain ⟨hsize, hflat⟩ := ih (bs := bs.drop sz) (by rw [List.length_drop]; omega)
    rw [elements, List.forall_mem_cons, List.flatten_cons, hflat]
    exact ⟨⟨List.length_take_of_le (by omega), hsize⟩, List.take_append_drop sz bs⟩

/-! ## The obligations about the encoders -/

/-- Settles O46: the tokens of the machine are greedy, and the packets of the first so many of them are stored. -/
theorem rlePbeEncodes : Obligations.RlePbeEncodes := by
  intro s hw hm
  obtain ⟨n, t, hle, hfit, hnext, hexec, ht, hout⟩ := exec_encoder (i := .rlePbe) (unit := 1)
    (packet := fun k => k.pb.stream) (by simp) (by simp) rfl rfl hw hm
    (by rw [Instr.body, srcAll_begun, pbPackets_eq])
  rw [Nat.mul_one] at ht
  exact ⟨_, n, t, greedy_tokens _ _, tokens_items (Nat.le_refl _), hle, hfit, hnext, hexec, ht, hout⟩

/-- Settles O47: as for `RLE.PBE`, with the elements of the source in place of its bytes. -/
theorem rleHbeEncodes : Obligations.RleHbeEncodes := by
  intro size s hi hw
  refine ⟨fun hodd => ?_, fun hwhole hm => ?_⟩
  · have hbody : (Instr.rleHbe size).body (s.begun (encode (.rleHbe size))) =
        (s.begun (encode (.rleHbe size)), .invalidFormat) := if_pos hodd
    rw [exec_of_ok (i := .rleHbe size) (by simp) (by simp) hi hw, hbody, begun_complete]
  · obtain ⟨hsize, hflat⟩ := elements_spec (sz := size.toNat) (n := s.src.len.toNat / size.toNat) (bs := s.srcAll)
      (by rw [srcAll_length, Nat.div_mul_cancel (Nat.dvd_of_mod_eq_zero hwhole)])
    have hitems := tokens_items (xs := elements size.toNat (s.src.len.toNat / size.toNat) s.srcAll) (Nat.le_refl _)
    obtain ⟨n, t, hle, hfit, hnext, hexec, ht, hout⟩ := exec_encoder (i := .rleHbe size) (unit := size.toNat)
      (packet := fun k => k.hb.stream) (by simp) (by simp) hi rfl hw hm
      (by rw [Instr.body, rleHbeBody, State.begun_src, if_neg (not_not.mpr hwhole), srcAll_begun, hbPackets_eq])
    exact ⟨_, n, t, greedy_tokens _ _, by rwa [hitems], by rw [hitems, hflat], hle, hfit, hnext, hexec, ht, hout⟩

end Sys2Proof.Machine
end

