-- ==== Sys2Proof/Proofs/RunLengthRoundTrip.lean ====
section
/-!
PROOF. The decoders undo the encoders (R214, R219): the bytes that an encoder has stored are the source of the decoder,
and the packets of tokens stand for what the tokens stand for.
-/

namespace Sys2Proof.Machine

/-! ## From the encoder's destination to the decoder's source -/

/-- The state from which what an encoder has written (`RES0` bytes) is decoded into another window. -/
def State.decoding (t : State) (d : Window) : State :=
  { t with src := { base := t.dst.base, len := t.res0 }, dst := d }

/-- A source window over an output that fits holds that output. -/
theorem srcAll_of_outputs {s t r : State} {out : List Byte} (h : s.outputs t out)
    (hfit : out.length ≤ s.dst.len.toNat) (hmem : r.mem = t.mem) (hbase : r.src.base = s.dst.base)
    (hlen : r.src.len.toNat = out.length) : r.srcAll = out := by
  refine List.ext_getElem (by rw [srcAll_length, hlen]) fun j hj hj' => ?_
  have hread : t.mem.read (s.dst.addr j) = out.getD j 0 := h.1 j (by rwa [Nat.min_eq_left hfit])
  rw [List.getD_eq_getElem?_getD, List.getElem?_eq_getElem hj', Option.getD_some] at hread
  simpa only [State.srcAll, srcBytes_getElem, Nat.zero_add, State.srcByte, Window.addr, hmem, hbase] using hread

/-- The window checks of a decoder pass on what an encoder has written (R65). -/
theorem windowsOk_decoding {i : Instr} {t : State} {d : Window} (ht : t.dst.fits = true)
    (hle : t.res0.toNat ≤ t.dst.len.toNat) (hd : d.fits = true)
    (hover : Window.overlaps { base := t.dst.base, len := t.res0 } d = false) :
    windowsOk i (t.decoding d) = true := by
  have hsrc : Window.fits { base := t.dst.base, len := t.res0 } = true := by
    simp only [Window.fits, decide_eq_true_eq] at ht ⊢
    omega
  simp [windowsOk, State.decoding, hsrc, hd, hover]

/-- A command but `CLRERR` and `SRESET` keeps the canonical form of memory. -/
theorem exec_mem_wf {i : Instr} {s t : State} (hc : i ≠ .clrerr) (hs : i ≠ .sreset) (hm : s.mem.wf)
    (h : exec i s = .next t) : t.mem.wf := by
  obtain ⟨u, e, hu, rfl⟩ := exec_completes hc hs h
  exact hu.memWf hm

/-- An encoder has stored `out` for the first bytes `x` of its source, and the decoder makes `x` of `out`: together they
yield `x`, and `x` is the whole source unless the encoder set `DSTFULL`. -/
theorem decoder_undoes_encoder {i j : Instr} {s t : State} {d : Window} {out x : List Byte} {full : Bool}
    (hc : i ≠ .clrerr) (hs : i ≠ .sreset) (hdst : i.usesDst = true) (hm : s.mem.wf) (hw : windowsOk i s = true)
    (hexec : exec i s = .next t) (hd : d.fits = true)
    (hover : Window.overlaps { base := t.dst.base, len := t.res0 } d = false) (hroom : t.res1.toNat ≤ d.len.toNat)
    (ht : t = { s.ended i .ok full false false with
                res0 := BitVec.ofNat 32 out.length, res1 := BitVec.ofNat 32 x.length, mem := t.mem })
    (hfit : out.length ≤ s.dst.len.toNat) (hout : s.outputs t out) (hx : x <+: s.srcAll)
    (hwhole : full = false → x = s.srcAll)
    (hdecode : windowsOk j (t.decoding d) = true → (t.decoding d).mem.wf → (t.decoding d).srcAll = out →
      ∃ u, exec j (t.decoding d) = .next u ∧
        u = { (t.decoding d).ended j .ok (decide ((t.decoding d).dst.len.toNat < x.length)) false false with
              res0 := BitVec.ofNat 32 (min x.length (t.decoding d).dst.len.toNat)
              res1 := (t.decoding d).src.len
              mem := u.mem } ∧
        (t.decoding d).outputs u x) :
    (t.status.dstfull = false → t.res1 = s.src.len) ∧
      ∃ u, exec j (t.decoding d) = .next u ∧ u.status.err = .ok ∧ u.status.dstfull = false ∧ u.res0 = t.res1 ∧
        ∀ k, k < t.res1.toNat → u.mem.read (d.addr k) = s.srcByte k := by
  have htdst : t.dst = s.dst := by rw [ht]; rfl
  have hres0 : t.res0.toNat = out.length := by
    rw [ht]
    exact Nat.mod_eq_of_lt (hfit.trans_lt s.dst.len.isLt)
  have hxlen : x.length ≤ s.src.len.toNat := srcAll_length s ▸ hx.length_le
  have hres1 : t.res1 = BitVec.ofNat 32 x.length := by rw [ht]
  have hres1_toNat : t.res1.toNat = x.length := by
    rw [hres1]
    exact Nat.mod_eq_of_lt (hxlen.trans_lt s.src.len.isLt)
  rw [hres1_toNat] at hroom
  refine ⟨fun hfull => ?_, ?_⟩
  · rw [ht] at hfull
    rw [hres1, hwhole hfull, ofNat_length_of_srcAll rfl]
  · have hsrc : (t.decoding d).srcAll = out :=
      srcAll_of_outputs hout hfit rfl (congrArg Window.base htdst :) hres0
    have hok : windowsOk j (t.decoding d) = true :=
      windowsOk_decoding (htdst ▸ (fits_of_windowsOk hw).2 hdst) (by rwa [hres0, htdst]) hd hover
    have hmem : t.mem.wf := exec_mem_wf hc hs hm hexec
    obtain ⟨u, hu, hfields, hread, -⟩ := hdecode hok hmem hsrc
    refine ⟨u, hu, by rw [hfields]; rfl, ?_, ?_, fun k hk => ?_⟩
    · rw [hfields]
      exact decide_eq_false (Nat.not_lt.mpr hroom)
    · rw [hfields, hres1]
      exact congrArg (BitVec.ofNat 32) (Nat.min_eq_left hroom)
    · rw [hres1_toNat] at hk
      have hbyte : x.getD k 0 = s.srcByte k := by
        rw [List.getD_eq_getElem?_getD, List.getElem?_eq_getElem hk, Option.getD_some, hx.getElem hk]
        simp only [State.srcAll, srcBytes_getElem, Nat.zero_add]
      exact (hread k (lt_min hk (hk.trans_le hroom))).trans hbyte

/-! ## What the packets of tokens stand for -/

theorem Token.pb_legal {t : Token Byte} (h : t.legal) : t.pb.legal := by
  cases t with
  | run count x => exact h
  | literal xs => exact ⟨h.1, h.2.1⟩

theorem Token.pb_output (t : Token Byte) : t.pb.output = t.items := by
  cases t <;> rfl

theorem flatMap_pb_output (ts : List (Token Byte)) :
    (ts.map Token.pb).flatMap PbPacket.output = ts.flatMap Token.items := by
  rw [List.flatMap_map, List.flatMap_congr fun t _ => t.pb_output]

theorem Token.hb_legal {sz : Nat} {t : Token (List Byte)} (h : t.legal) (hsize : ∀ e ∈ t.items, e.length = sz) :
    t.hb.legal sz := by
  cases t with
  | run count x =>
    obtain ⟨hlo, hhi⟩ := h
    exact ⟨by omega, hhi, hsize x (List.mem_replicate.mpr ⟨by omega, rfl⟩)⟩
  | literal xs => exact ⟨h.1, h.2.1, hsize⟩

theorem Token.hb_output (t : Token (List Byte)) : t.hb.output = t.items.flatten := by
  cases t <;> rfl

theorem flatMap_hb_output (ts : List (Token (List Byte))) :
    (ts.map Token.hb).flatMap HbPacket.output = (ts.flatMap Token.items).flatten := by
  induction ts with
  | nil => rfl
  | cons t ts ih => rw [List.map_cons, List.flatMap_cons, List.flatMap_cons, List.flatten_append, ih, t.hb_output]

theorem items_take_prefix {α : Type} (ts : List (Token α)) (n : Nat) :
    (ts.take n).flatMap Token.items <+: ts.flatMap Token.items :=
  ⟨(ts.drop n).flatMap Token.items, by rw [← List.flatMap_append, List.take_append_drop]⟩

/-! ## The obligations -/

/-- Settles O48: the stored packets are those of greedy tokens, and `RLE.PBD` outputs what packets stand for. -/
theorem packBitsRoundTrip : Obligations.PackBitsRoundTrip := by
  intro s t d hm hw hexec hd hover hroom
  obtain ⟨ts, n, t', ⟨hlegal, -⟩, hitems, hn, hfit, -, hexec', ht, hout⟩ := rlePbeEncodes s hw hm
  obtain rfl := Host.Outcome.next.inj (hexec.symm.trans hexec')
  refine decoder_undoes_encoder (by simp) (by simp) rfl hm hw hexec hd hover hroom ht hfit hout
    (hitems ▸ items_take_prefix ts n) (fun hfull => ?_) fun hok hmem hsrc => ?_
  · rw [List.take_of_length_le (Nat.not_lt.mp (of_decide_eq_false hfull)), hitems]
  · have hps : ∀ p ∈ (ts.take n).map Token.pb, p.legal :=
      List.forall_mem_map.mpr fun k hk => Token.pb_legal (hlegal k (List.mem_of_mem_take hk))
    have hdec := (rlePbdDecodes _ _ hok hmem hps).1 (by rw [hsrc, List.flatMap_map])
    rwa [flatMap_pb_output] at hdec

/-- Settles O49: as for PackBits, with elements of one size. -/
theorem highBitRoundTrip : Obligations.HighBitRoundTrip := by
  intro size s t d hm hi hw hwhole hexec hd hover hroom
  obtain ⟨ts, n, t', ⟨hlegal, -⟩, hsize, hitems, hn, hfit, -, hexec', ht, hout⟩ :=
    (rleHbeEncodes size s hi hw).2 hwhole hm
  obtain rfl := Host.Outcome.next.inj (hexec.symm.trans hexec')
  have hpre := items_take_prefix ts n
  rw [← length_flatten_of_elements fun e he => hsize e (hpre.subset he)] at ht
  refine decoder_undoes_encoder (by simp) (by simp) rfl hm hw hexec hd hover hroom ht hfit hout
    (hitems ▸ hpre.flatten) (fun hfull => ?_) fun hok hmem hsrc => ?_
  · rw [List.take_of_length_le (Nat.not_lt.mp (of_decide_eq_false hfull)), hitems]
  · have hps : ∀ p ∈ (ts.take n).map Token.hb, p.legal size.toNat := List.forall_mem_map.mpr fun k hk =>
      have hk' := List.mem_of_mem_take hk
      Token.hb_legal (hlegal k hk') fun e he => hsize e (List.mem_flatMap.mpr ⟨k, hk', he⟩)
    have hdec := (rleHbdDecodes size _ _ hi hok hmem hps).1 (by rw [hsrc, List.flatMap_map])
    rwa [flatMap_hb_output] at hdec

end Sys2Proof.Machine
end

