-- ==== Sys2Proof/Proofs/PlacedBytes.lean ====
section
/-!
SUPPORT. Bytes placed at offsets of the destination window (R64, R76): which bytes the writes of a row of pixels and of
a block of a raster are (R73, R248, R280), what they leave in memory, and the life of the command around them.
-/

namespace Sys2Proof.Machine

/-! ## What placed bytes leave -/

/-- Placed bytes leave what the claims call placed, if the writes are those of `value` and all lie in the window. -/
theorem dstPlaced_places {s : State} (hm : s.mem.wf) (hd : s.dst.fits = true) {ps : List (Nat × Byte)}
    {value : Nat → Option Byte} (hps : ∀ o v, (o, v) ∈ ps ↔ value o = some v)
    (hfit : ∀ p ∈ ps, p.1 < s.dst.len.toNat) : s.places (s.dstPlaced ps) value := by
  have hvalue : ∀ p ∈ ps, value p.1 = some p.2 := fun p hp => (hps p.1 p.2).mp hp
  refine ⟨fun o v hv => ?_, fun a ha => ?_⟩
  · have hread := dstPlaced_read hm hd (value := fun o => (value o).getD 0) hfit
      (fun p hp => by rw [hvalue p hp, Option.getD_some]) ((hps o v).mpr hv)
    rwa [hv, Option.getD_some] at hread
  · exact dstPlaced_read_other ps fun p hp => ha p.1 p.2 (hvalue p hp)

/-- All that a command does whose pseudocode is to place bytes. -/
theorem exec_placing {i : Instr} {s : State} {ps : List (Nat × Byte)} {value : Nat → Option Byte}
    (hc : i ≠ .clrerr) (hs : i ≠ .sreset) (hi : i.wellFormed = true) (hd : i.usesDst = true)
    (hw : windowsOk i s = true) (hm : s.mem.wf)
    (hbody : i.body (s.begun (encode i)) = ((s.begun (encode i)).dstPlaced ps, .ok))
    (hps : ∀ o v, (o, v) ∈ ps ↔ value o = some v) (hfit : ∀ p ∈ ps, p.1 < s.dst.len.toNat) :
    ∃ t, exec i s = .next t ∧ t = { s.endedOk i with mem := t.mem } ∧ s.places t value := by
  refine ⟨_, exec_of_ok hc hs hi hw, ?_, ?_⟩
  · rw [hbody, State.endedOk, ← begun_complete, dstPlaced_eq]
    rfl
  · rw [hbody]
    exact dstPlaced_places (s := s.begun (encode i)) hm ((fits_of_windowsOk hw).2 hd) hps hfit

/-! ## Pixels in a row -/

/-- Quotient and remainder of a number given by both. -/
theorem mul_add_div_mod {q k j : Nat} (hj : j < k) : (q * k + j) / k = q ∧ (q * k + j) % k = j :=
  (Nat.div_mod_unique (Nat.zero_lt_of_lt hj)).mpr ⟨by rw [Nat.mul_comm, Nat.add_comm], hj⟩

/-- The writes of `n` pixels of `bpp` bytes end to end are the bytes of the pixels in turn. -/
theorem mem_pixelRow {n bpp : Nat} {pixel : Nat → List Byte} (hlen : ∀ i, (pixel i).length = bpp) {o : Nat}
    {v : Byte} :
    (o, v) ∈ ((List.range n).flatMap fun i => placedAt (bpp * i) (pixel i)) ↔
      o < bpp * n ∧ (pixel (o / bpp)).getD (o % bpp) 0 = v := by
  simp only [List.mem_flatMap, List.mem_range, placedAt_mem, hlen, Prod.mk.injEq]
  constructor
  · rintro ⟨i, hi, j, hj, rfl, rfl⟩
    rw [Nat.mul_comm bpp i]
    obtain ⟨hdiv, hmod⟩ := mul_add_div_mod (q := i) hj
    rw [hdiv, hmod]
    exact ⟨by rw [Nat.mul_comm bpp n]; exact Nat.lt_mul_of_div_lt (hdiv.trans_lt hi) (Nat.zero_lt_of_lt hj), rfl⟩
  · rintro ⟨ho, rfl⟩
    exact ⟨o / bpp, Nat.div_lt_of_lt_mul ho, o % bpp, Nat.mod_lt o (Nat.pos_of_lt_mul_right ho),
      (Nat.div_add_mod o bpp).symm, rfl⟩

/-! ## A block of a raster -/

section

variable {side bpp : Nat} {pixel : Nat → Nat → List Byte} {s : State}

/-- Only the pixels of the block decide its writes. -/
theorem blockWrites_congr {pixel' : Nat → Nat → List Byte}
    (h : ∀ dx, dx < side → ∀ dy, dy < side → pixel dx dy = pixel' dx dy) :
    blockWrites side bpp pixel s = blockWrites side bpp pixel' s :=
  List.flatMap_congr fun dy hdy => List.flatMap_congr fun dx hdx => by
    rw [h dx (List.mem_range.mp hdx) dy (List.mem_range.mp hdy)]

/-- The writes of a block are the bytes that the claims say a raster command puts at the offsets. -/
theorem mem_blockWrites_iff_blockByte (hlen : ∀ dx dy, (pixel dx dy).length = bpp) (hside : 0 < side) (hbpp : 0 < bpp)
    (hw : 0 < s.arg0.toNat) (o : Nat) (v : Byte) :
    (o, v) ∈ blockWrites side bpp pixel s ↔ s.blockByte side bpp pixel o = some v := by
  simp only [blockWrites_mem, hlen, State.blockByte, Option.ite_none_right_eq_some, Option.some.injEq, Prod.mk.injEq]
  constructor
  · rintro ⟨dx, dy, j, hdx, hdy, hj, hx, hy, rfl, rfl⟩
    obtain ⟨hpixel, hbyte⟩ := mul_add_div_mod (q := (s.arg3.toNat * side + dy) * s.arg0.toNat + _) hj
    obtain ⟨hrow, hcol⟩ := mul_add_div_mod (q := s.arg3.toNat * side + dy) hx
    obtain ⟨hbx, hdx'⟩ := mul_add_div_mod (q := s.arg2.toNat) hdx
    obtain ⟨hby, hdy'⟩ := mul_add_div_mod (q := s.arg3.toNat) hdy
    rw [hpixel, hbyte, hrow, hcol, hbx, hdx', hby, hdy']
    exact ⟨⟨hy, rfl, rfl⟩, rfl⟩
  · rintro ⟨⟨hy, hcol, hrow⟩, rfl⟩
    have ex := Nat.div_add_mod' (o / bpp % s.arg0.toNat) side
    have ey := Nat.div_add_mod' (o / bpp / s.arg0.toNat) side
    rw [hcol] at ex
    rw [hrow] at ey
    refine ⟨_, _, o % bpp, Nat.mod_lt _ hside, Nat.mod_lt _ hside, Nat.mod_lt o hbpp, ?_, ?_, ?_, rfl⟩
    · rw [ex]
      exact Nat.mod_lt _ hw
    · rwa [ey]
    · rw [ex, ey, Nat.div_add_mod', Nat.div_add_mod']

/-- All that a command does whose pseudocode is to write a block of a legal raster. -/
theorem exec_block {i : Instr} (hc : i ≠ .clrerr) (hs : i ≠ .sreset) (hi : i.wellFormed = true)
    (hd : i.usesDst = true) (hw : windowsOk i s = true) (hm : s.mem.wf) (hok : s.rasterOk bpp)
    (hlen : ∀ dx dy, (pixel dx dy).length = bpp) (hside : 0 < side) (hbpp : 0 < bpp)
    (hbody : i.body (s.begun (encode i)) = ((s.begun (encode i)).dstPlaced (blockWrites side bpp pixel s), .ok)) :
    ∃ t, exec i s = .next t ∧ t = { s.endedOk i with mem := t.mem } ∧ s.places t (s.blockByte side bpp pixel) :=
  exec_placing hc hs hi hd hw hm hbody (mem_blockWrites_iff_blockByte hlen hside hbpp hok.1) fun _ =>
    blockWrites_lt hlen hok

end

end Sys2Proof.Machine
end

