-- ==== Sys2Proof/Proofs/JpegTransform.lean ====
section
/-!
PROOF. The inverse transform of JPEG (R242 to R247): the two passes are one double sum over the coefficients, how large
the values of each pass can get, and the tables of the rules.
-/

namespace Sys2Proof.Machine

/-! ## The two passes as one double sum -/

theorem sum8_eq_sum (f : Nat → Int) : sum8 f = ∑ j ∈ Finset.range 8, f j := by
  simp only [sum8, Finset.sum_range_succ, Finset.sum_range_zero, zero_add]

/-- The inverse transform before rounding at row `y`, column `x`: one double sum over the coefficients `f` (R245). -/
def transformAt (k : List (List Int)) (f : List Int) (y x : Nat) : Int :=
  ∑ v ∈ Finset.range 8, ∑ u ∈ Finset.range 8, kernelAt k x u * kernelAt k y v * f.getD (v * 8 + u) 0

theorem getD_map_range {α : Type} {n i : Nat} (g : Nat → α) (d : α) (hi : i < n) :
    ((List.range n).map g).getD i d = g i := by
  rw [List.getD_eq_getElem _ _ (by simpa using hi), List.getElem_map, List.getElem_range]

theorem columnPass_getD (k : List (List Int)) (f : List Int) {y u : Nat} (hy : y < 8) (hu : u < 8) :
    (columnPass k f).getD (y * 8 + u) 0 = ∑ v ∈ Finset.range 8, kernelAt k y v * f.getD (v * 8 + u) 0 := by
  obtain ⟨hdiv, hmod⟩ := mul_add_div_mod (q := y) hu
  rw [columnPass, getD_map_range _ _ (by omega), hdiv, hmod, sum8_eq_sum]

theorem rowPass_columnPass (k : List (List Int)) (f : List Int) :
    rowPass k (columnPass k f) = (List.range 64).map fun i => transformAt k f (i / 8) (i % 8) := by
  refine List.map_congr_left fun i hi => ?_
  have hy : i / 8 < 8 := Nat.div_lt_of_lt_mul (List.mem_range.mp hi)
  rw [sum8_eq_sum, transformAt, Finset.sum_comm]
  refine Finset.sum_congr rfl fun u hu => ?_
  rw [columnPass_getD k f hy (Finset.mem_range.mp hu), Finset.mul_sum]
  exact Finset.sum_congr rfl fun v _ => (mul_assoc _ _ _).symm

/-- Every sample of a block, by its double sum. -/
theorem idctBlock_eq (k : List (List Int)) (f : List Int) :
    idctBlock k f = (List.range 64).map fun i => sampleOf (transformAt k f (i / 8) (i % 8)) := by
  rw [idctBlock, rowPass_columnPass, List.map_map]
  rfl

theorem idctBlock_getD (k : List (List Int)) (f : List Int) {x y : Nat} (hx : x < 8) (hy : y < 8) :
    (idctBlock k f).getD (y * 8 + x) 0 = sampleOf (transformAt k f y x) := by
  obtain ⟨hdiv, hmod⟩ := mul_add_div_mod (q := y) hx
  rw [idctBlock_eq, getD_map_range _ _ (by omega), hdiv, hmod]

/-- The rounding, the level shift and the clamp of R245, with the shift as a division. -/
theorem sampleOf_eq (p : Int) : sampleOf p = clamp8 ((p + 8388608) / 16777216 + 128) := rfl

/-! ## How large the values get -/

/-- A sum of products is at most the weight of one side times the bound of the other. -/
theorem natAbs_sum8_le {a b : Nat → Int} {bound : Nat} (hb : ∀ j, (b j).natAbs ≤ bound) :
    (sum8 fun j => a j * b j).natAbs ≤ (∑ j ∈ Finset.range 8, (a j).natAbs) * bound := by
  rw [sum8_eq_sum, Finset.sum_mul]
  refine (Int.natAbs_sum_le _ _).trans (Finset.sum_le_sum fun j _ => ?_)
  rw [Int.natAbs_mul]
  exact Nat.mul_le_mul_left _ (hb j)

/-- The weight of a row of a legal kernel (spec/92_eei_decisions.md, 'Open parameters'). -/
theorem OpenParams.rowWeight_le {c : OpenParams} (hc : c.legal = true) {x : Nat} (hx : x < 8) :
    ∑ u ∈ Finset.range 8, (kernelAt c.idctKernel x u).natAbs ≤ 16383 := by
  simp only [OpenParams.legal, Bool.and_eq_true, decide_eq_true_eq, List.all_eq_true] at hc
  obtain ⟨⟨⟨-, -⟩, hlen⟩, hrows⟩ := hc
  have hrow : c.idctKernel.getD x [] ∈ c.idctKernel := by
    rw [List.getD_eq_getElem _ _ (hlen ▸ hx)]
    exact List.getElem_mem _
  obtain ⟨hlen8, hsum⟩ := hrows _ hrow
  have hweight : ∑ u ∈ Finset.range 8, (kernelAt c.idctKernel x u).natAbs =
      OpenParams.rowSum (c.idctKernel.getD x []) := by
    rw [OpenParams.rowSum, ← Fin.sum_univ_fun_getElem, ← hlen8, Finset.sum_range]
    exact Finset.sum_congr rfl fun u _ => by rw [kernelAt, List.getD_eq_getElem _ _ u.isLt]
  omega

theorem natAbs_getD_le {l : List Int} {bound : Nat} (h : ∀ v ∈ l, v.natAbs ≤ bound) (i : Nat) :
    (l.getD i 0).natAbs ≤ bound := by
  by_cases hi : i < l.length
  · rw [List.getD_eq_getElem _ _ hi]
    exact h _ (List.getElem_mem hi)
  · rw [List.getD_eq_default _ _ (Nat.not_lt.mp hi)]
    exact Nat.zero_le _

/-- The column pass of a legal kernel over coefficients of magnitude at most `bound` (R246). -/
theorem columnPass_natAbs_le {c : OpenParams} (hc : c.legal = true) {f : List Int} {bound : Nat}
    (hf : ∀ v ∈ f, v.natAbs ≤ bound) : ∀ v ∈ columnPass c.idctKernel f, v.natAbs ≤ 16383 * bound := by
  refine List.forall_mem_map.mpr fun i hi => ?_
  have hy : i / 8 < 8 := Nat.div_lt_of_lt_mul (List.mem_range.mp hi)
  exact (natAbs_sum8_le fun _ => natAbs_getD_le hf _).trans (Nat.mul_le_mul_right _ (OpenParams.rowWeight_le hc hy))

/-- The row pass of a legal kernel over column values of magnitude at most `bound` (R246). -/
theorem rowPass_natAbs_le {c : OpenParams} (hc : c.legal = true) {t : List Int} {bound : Nat}
    (ht : ∀ v ∈ t, v.natAbs ≤ bound) : ∀ v ∈ rowPass c.idctKernel t, v.natAbs ≤ 16383 * bound := by
  refine List.forall_mem_map.mpr fun i _ => ?_
  have hx : i % 8 < 8 := Nat.mod_lt i (by omega)
  exact (natAbs_sum8_le fun _ => natAbs_getD_le ht _).trans (Nat.mul_le_mul_right _ (OpenParams.rowWeight_le hc hx))

/-! ## The tables -/

theorem zigzag_eq_walk : zigzag = zigzagWalk := by decide

/-- Every raster index stands in the zig-zag table (R242). -/
theorem zigzag_idxOf_lt {r : Nat} (hr : r < 64) : zigzag.idxOf r < 64 := by
  have hmem : ∀ r < 64, r ∈ zigzag := by decide
  exact List.idxOf_lt_length_of_mem (hmem r hr)

/-- A block with only `F[0]` has the same sum everywhere (R247). -/
theorem transformAt_dc (k : List (List Int)) (d : Int) (y x : Nat) :
    transformAt k (d :: List.replicate 63 0) y x = kernelAt k x 0 * kernelAt k y 0 * d := by
  have hac : ∀ i, i ≠ 0 → (d :: List.replicate 63 0).getD i 0 = 0 := by
    intro i hi
    obtain ⟨j, rfl⟩ := Nat.exists_eq_succ_of_ne_zero hi
    rw [List.getD_cons_succ, List.getD_eq_getElem?_getD, List.getElem?_getD_replicate_default_eq]
  rw [transformAt, Finset.sum_eq_single_of_mem 0 (by simp), Finset.sum_eq_single_of_mem 0 (by simp)]
  · rfl
  · intro u _ hu
    rw [hac _ (by omega), mul_zero]
  · intro v _ hv
    exact Finset.sum_eq_zero fun u _ => by rw [hac _ (by omega), mul_zero]

theorem defaultKernel_column_zero : ∀ x < 8, kernelAt defaultKernel x 0 = 1448 := by decide

/-! ## The obligations about the transform -/

/-- Settles O54: a pass makes the values at most a row's weight larger. -/
theorem transformFitsInt64 : Obligations.TransformFitsInt64 := by
  intro c f hc hf
  have hcol := columnPass_natAbs_le hc (bound := 2147483647) fun v hv => by have := hf v hv; omega
  have hrow := rowPass_natAbs_le hc hcol
  exact ⟨fun v hv => (hcol v hv).trans_lt (by norm_num), fun v hv => (hrow v hv).trans_lt (by norm_num)⟩

/-- Settles O53: the tables entry by entry, and a block with only `F[0]` by its double sum. -/
theorem defaultKernel_spec : Obligations.DefaultKernel := by
  refine ⟨zigzag_eq_walk, by decide, rfl, by decide, by decide, by decide, fun d => ?_⟩
  rw [idctBlock_eq, List.eq_replicate_iff]
  refine ⟨by simp, List.forall_mem_map.mpr fun i hi => ?_⟩
  have hy : i / 8 < 8 := Nat.div_lt_of_lt_mul (List.mem_range.mp hi)
  have hx : i % 8 < 8 := Nat.mod_lt i (by omega)
  rw [transformAt_dc, defaultKernel_column_zero _ hx, defaultKernel_column_zero _ hy, sampleOf_eq]

end Sys2Proof.Machine
end

