-- ==== Sys2Proof/Proofs/JpegCommands.lean ====
section
/-!
PROOF. The commands of the JPEG unit: `JPG.LDQ` (R240, R241), `JPG.BLK` (R248, R249), `JPG.YCC` (R250, R251), and
`JPG.DCP` and `JPG.RST` (R252, R253).
-/

namespace Sys2Proof.Machine

/-! ## Little-endian words of the source window -/

/-- The 16-bit numbers at even offsets, byte by byte (R72). -/
theorem srcHalves_eq (s : State) (n : Nat) :
    srcHalves s n = (List.range n).map fun k => (s.srcByte (2 * k)).toNat + 256 * (s.srcByte (2 * k + 1)).toNat := rfl

/-- Two bytes as a number are the two bytes side by side, the one at the higher address first. -/
theorem ofNat_leNat (a b : Byte) : BitVec.ofNat 16 (a.toNat + 256 * b.toNat) = b ++ a := by
  refine BitVec.eq_of_toNat_eq ?_
  rw [BitVec.toNat_append, ← Nat.shiftLeft_add_eq_or_of_lt a.isLt, Nat.shiftLeft_eq, BitVec.toNat_ofNat]
  omega

theorem map_ofNat_srcHalves (s : State) (n : Nat) :
    (srcHalves s n).map (BitVec.ofNat 16) = (List.range n).map fun k => s.srcWord16 (2 * k) := by
  rw [srcHalves_eq, List.map_map]
  exact List.map_congr_left fun k _ => ofNat_leNat _ _

theorem srcHalves_congr {s t : State} (hm : t.mem = s.mem) (hs : t.src = s.src) (n : Nat) :
    srcHalves t n = srcHalves s n := by
  rw [srcHalves_eq, srcHalves_eq, srcByte_congr hm hs]

/-! ## `JPG.LDQ` -/

@[simp] theorem setQuant_setQuant (s : State) (q : BitVec 2) (e f : Option (List (BitVec 16))) :
    (s.setQuant q e).setQuant q f = s.setQuant q f := by
  simp [State.setQuant]

/-- A whole image fills the slot (R241). -/
theorem jpgLdqBody_of_image {slot : BitVec 2} {s : State} (h : 128 ≤ s.src.len.toNat) :
    jpgLdqBody slot s = (s.setQuant slot (some ((List.range 64).map fun k => s.srcWord16 (2 * k))), .ok) := by
  have hhalves : srcHalves (s.setQuant slot none) 64 = srcHalves s 64 := srcHalves_congr rfl rfl 64
  simp [jpgLdqBody, Nat.not_lt.mpr h, hhalves, map_ofNat_srcHalves]

/-- A short image leaves the slot invalid (R241). -/
theorem jpgLdqBody_of_short {slot : BitVec 2} {s : State} (h : s.src.len.toNat < 128) :
    jpgLdqBody slot s = (s.setQuant slot none, .truncatedData) := by
  simp [jpgLdqBody, h]

/-! ## `JPG.BLK` -/

theorem coefficients_getD (s : State) {k : Nat} (hk : k < 64) : (coefficients s).getD k 0 = s.coefficient k := by
  rw [coefficients, srcHalves_eq, List.map_map, getD_map_range _ _ hk]
  rfl

theorem dequantize_getD (s : State) (quant : List (BitVec 16)) {r : Nat} (hr : r < 64) :
    (dequantize (coefficients s) quant).getD r 0 = s.dequantized quant r := by
  rw [dequantize, getD_map_range _ _ hr, coefficients_getD s (zigzag_idxOf_lt hr), zigzag_eq_walk,
    State.dequantized]

theorem sum_flatMap_range (n m : Nat) (g : Nat → Nat → Int) :
    ((List.range n).flatMap fun v => (List.range m).map (g v)).sum =
      ∑ v ∈ Finset.range n, ∑ u ∈ Finset.range m, g v u := by
  rw [List.flatMap_def, List.sum_flatten, List.map_map]
  rfl

/-- The double sum of the claims is that of the transform. -/
theorem blockSample_eq (s : State) (quant : List (BitVec 16)) (y x : Nat) :
    s.blockSample quant y x = sampleOf (transformAt s.cfg.idctKernel (dequantize (coefficients s) quant) y x) := by
  have hsum : transformAt s.cfg.idctKernel (dequantize (coefficients s) quant) y x =
      ∑ v ∈ Finset.range 8, ∑ u ∈ Finset.range 8,
        kernelAt s.cfg.idctKernel x u * kernelAt s.cfg.idctKernel y v * s.dequantized quant (v * 8 + u) := by
    refine Finset.sum_congr rfl fun v hv => Finset.sum_congr rfl fun u hu => ?_
    rw [Finset.mem_range] at hv hu
    rw [dequantize_getD s quant (by omega)]
  rw [State.blockSample, sum_flatMap_range, sampleOf_eq, hsum]

/-- The samples that `JPG.BLK` places from a whole block into a legal raster (R248). -/
theorem jpgBlkBody_of_ok {slot : BitVec 2} {s : State} {quant : List (BitVec 16)}
    (hslot : s.quantSlot slot = some quant) (hok : s.rasterOk 1) (hsrc : 128 ≤ s.src.len.toNat) :
    jpgBlkBody slot s = (s.dstPlaced (blockWrites 8 1 (fun dx dy => [s.blockSample quant dy dx]) s), .ok) := by
  have hwrites : blockWrites 8 1 (fun dx dy => [s.blockSample quant dy dx]) s = blockWrites 8 1 (fun dx dy =>
      [(idctBlock s.cfg.idctKernel (dequantize (coefficients s) quant)).getD (dy * 8 + dx) 0]) s :=
    blockWrites_congr fun dx hdx dy hdy => by rw [blockSample_eq, idctBlock_getD _ _ hdx hdy]
  have hdims : badDimensions 1 s = false := (badDimensions_eq_false 1 s).mpr hok
  simp [jpgBlkBody, hslot, hdims, Nat.not_lt.mpr hsrc, hwrites]

/-! ## `JPG.YCC` -/

/-- The conversion of R250, with the shifts as divisions. -/
theorem yccPixel_eq (y cb cr : Byte) : yccPixel y cb cr = yccReference y.toNat cb.toNat cr.toNat := rfl

/-- Pixel `i` of the three planes (R251). -/
def State.yccPixelAt (s : State) (i : Nat) : List Byte :=
  yccPixel (s.srcByte (s.arg1.toNat + i)) (s.srcByte (s.arg2.toNat + i)) (s.srcByte (s.arg3.toNat + i))

/-- The pixels that `JPG.YCC` places end to end where output and planes fit (R251). -/
theorem jpgYccBody_of_ok {s : State} (hdst : 3 * s.arg0.toNat ≤ s.dst.len.toNat)
    (h1 : s.arg1.toNat + s.arg0.toNat ≤ s.src.len.toNat) (h2 : s.arg2.toNat + s.arg0.toNat ≤ s.src.len.toNat)
    (h3 : s.arg3.toNat + s.arg0.toNat ≤ s.src.len.toNat) :
    jpgYccBody s =
      (s.dstPlaced ((List.range s.arg0.toNat).flatMap fun i => placedAt (3 * i) (s.yccPixelAt i)), .ok) := by
  simp only [jpgYccBody]
  rw [if_neg (Nat.not_lt.mpr hdst), if_neg (by omega)]
  rfl

/-! ## The obligations -/

/-- Settles O51: the slot is invalid until the load has succeeded. -/
theorem jpgLdqLoads : Obligations.JpgLdqLoads := by
  intro slot s hf
  have hw : windowsOk (.jpgLdq slot) s = true := by simp [windowsOk, Instr.usesSrc, Instr.usesDst, hf]
  have hexec := exec_of_ok (i := .jpgLdq slot) (by simp) (by simp) rfl hw
  refine ⟨fun hwhole => ?_, fun hshort => ?_⟩
  · have hbody := jpgLdqBody_of_image (slot := slot) (s := s.begun (encode (.jpgLdq slot))) hwhole
    rw [hexec, Instr.body, hbody, State.endedOk, ← begun_complete]
    rfl
  · have hbody := jpgLdqBody_of_short (slot := slot) (s := s.begun (encode (.jpgLdq slot))) hshort
    rw [hexec, Instr.body, hbody, ← begun_complete]
    rfl

/-- Settles O52: the writes of the block are those of its samples, and each sample is its double sum. -/
theorem jpgBlkPlaces : Obligations.JpgBlkPlaces := by
  intro slot s quant hw hm hslot hok hsrc
  refine exec_block (by simp) (by simp) rfl rfl hw hm hok (by simp) (by omega) (by omega) ?_
  exact jpgBlkBody_of_ok (s := s.begun (encode (.jpgBlk slot))) hslot hok hsrc

/-- Settles O55: the pixels stand end to end in the destination window. -/
theorem jpgYccConverts : Obligations.JpgYccConverts := by
  intro s hw hm hdst h1 h2 h3
  have hbody := jpgYccBody_of_ok (s := s.begun (encode .jpgYcc)) hdst h1 h2 h3
  have hrow := @mem_pixelRow s.arg0.toNat 3 s.yccPixelAt fun _ => rfl
  refine exec_placing (by simp) (by simp) rfl rfl hw hm hbody (fun o v => ?_) fun p hp => (hrow.mp hp).1.trans_le hdst
  rw [Option.ite_none_right_eq_some, Option.some.injEq, ← yccPixel_eq]
  exact hrow

/-- Settles O56: neither command uses a window, so both run their pseudocode. -/
theorem predictors_spec : Obligations.Predictors := by
  intro s
  refine ⟨fun c => ?_, _, exec_of_ok (i := .jpgRst) (by simp) (by simp) rfl (windowsOk_of_none rfl rfl), ?_,
    fun c => Vector.getElem_replicate c.isLt⟩
  · rw [exec_of_ok (by simp) (by simp) rfl (windowsOk_of_none rfl rfl), State.endedOk, ← begun_complete]
    rfl
  · rw [State.endedOk, ← begun_complete]
    rfl

end Sys2Proof.Machine
end

