-- ==== Sys2Proof/Proofs/DxtBlocks.lean ====
section
/-!
PROOF. The block-texture commands `DXT1.BLK`, `DXT3.BLK` and `DXT5.BLK` (R270 to R281): the colours and alphas that the
machine computes from the bytes of a block are those that the rules name by words and bit fields.
-/

namespace Sys2Proof.Machine

/-! ## Bit fields as quotients and remainders -/

/-- Field number `i` of the `k`-bit fields of a number. -/
theorem shiftRight_and_field (x k i : Nat) : x >>> (k * i) &&& (2 ^ k - 1) = x / (2 ^ k) ^ i % 2 ^ k := by
  rw [Nat.and_two_pow_sub_one_eq_mod, Nat.shiftRight_eq_div_pow, pow_mul]

/-- A byte put below a word is its least significant digit to base 256. -/
theorem toNat_append_byte {w : Nat} (x : BitVec w) (b : Byte) : (x ++ b).toNat = b.toNat + 256 * x.toNat := by
  rw [BitVec.toNat_append, ← Nat.shiftLeft_add_eq_or_of_lt b.isLt, Nat.shiftLeft_eq]
  omega

theorem widen5_eq (v : BitVec 5) : widen5 v = v.toNat * 8 + v.toNat / 4 := by
  rw [widen5, ← Nat.shiftLeft_add_eq_or_of_lt (by rw [Nat.shiftRight_eq_div_pow]; omega), Nat.shiftLeft_eq,
    Nat.shiftRight_eq_div_pow]

theorem widen6_eq (v : BitVec 6) : widen6 v = v.toNat * 4 + v.toNat / 16 := by
  rw [widen6, ← Nat.shiftLeft_add_eq_or_of_lt (by rw [Nat.shiftRight_eq_div_pow]; omega), Nat.shiftLeft_eq,
    Nat.shiftRight_eq_div_pow]

/-! ## Colours -/

/-- The three channels of a colour, in the order of a pixel's bytes (R73). -/
def Rgb.channels (c : Rgb) : List Nat := [c.r, c.g, c.b]

/-- The bytes of a pixel are its channels and its alpha. -/
theorem rgba_eq (c : Rgb) (a : Nat) : rgba c a = pixelBytes (c.channels ++ [a]) := rfl

theorem exp565_channels (c : BitVec 16) : (exp565 c.toNat).channels = channels565 c := by
  simp [exp565, Rgb.channels, channels565, widen5_eq, widen6_eq, BitVec.extractLsb'_toNat, Nat.shiftRight_eq_div_pow]

theorem mix_channels (i j : Nat) (e0 e1 : Rgb) :
    (mix i j e0 e1).channels = List.zipWith (fun a b => (i * a + j * b) / (i + j)) e0.channels e1.channels := rfl

section

variable {blk : List Byte} {c0 c1 : BitVec 16} (h0 : endpoint0 blk = c0.toNat) (h1 : endpoint1 blk = c1.toNat)

include h0 h1

/-- The four-colour branch of R274. -/
theorem fourColour_channels (idx : Nat) : (fourColour blk idx).channels ++ [255] = paletteEntry false c0 c1 idx := by
  match idx with
  | 0 => simp [fourColour, paletteEntry, h0, exp565_channels]
  | 1 => simp [fourColour, paletteEntry, h1, exp565_channels]
  | 2 => simp [fourColour, paletteEntry, h0, h1, exp565_channels, mix_channels]
  | n + 3 => simp [fourColour, paletteEntry, h0, h1, exp565_channels, mix_channels]

/-- The three-colour branch of R274, with its transparent entry. -/
theorem threeColour_channels (hle : c0.toNat ≤ c1.toNat) (idx : Nat) :
    (threeColour blk idx).1.channels ++ [(threeColour blk idx).2] = paletteEntry true c0 c1 idx := by
  match idx with
  | 0 => simp [threeColour, paletteEntry, h0, exp565_channels]
  | 1 => simp [threeColour, paletteEntry, h1, exp565_channels]
  | 2 => simp [threeColour, paletteEntry, hle, h0, h1, exp565_channels, mix_channels]
  | n + 3 => simp [threeColour, paletteEntry, hle, Rgb.channels]

end

/-- Without the three-colour branch the two palettes agree (R274). -/
theorem paletteEntry_of_lt {c0 c1 : BitVec 16} (h : c1.toNat < c0.toNat) (idx : Nat) :
    paletteEntry true c0 c1 idx = paletteEntry false c0 c1 idx := by
  simp [paletteEntry, Nat.not_le.mpr h]

theorem paletteEntry_length (dxt1 : Bool) (c0 c1 : BitVec 16) (idx : Nat) :
    (paletteEntry dxt1 c0 c1 idx).length = 4 := by
  unfold paletteEntry
  split_ifs <;> rfl

/-! ## The bytes of a block -/

section

variable {s : State} {o n : Nat}

theorem srcBytes_drop (s : State) (o n k : Nat) : (s.srcBytes o n).drop k = s.srcBytes (o + k) (n - k) := by
  refine List.ext_getElem (by simp) fun i h _ => ?_
  rw [List.getElem_drop, srcBytes_getElem, srcBytes_getElem, Nat.add_assoc]

theorem srcBytes_take (s : State) (o n k : Nat) : (s.srcBytes o n).take k = s.srcBytes o (min k n) := by
  refine List.ext_getElem (by simp) fun i h _ => ?_
  rw [List.getElem_take, srcBytes_getElem, srcBytes_getElem]

theorem byteAt_srcBytes {i : Nat} (h : i < n) : byteAt (s.srcBytes o n) i = (s.srcByte (o + i)).toNat := by
  rw [byteAt, srcBytes_getD h]

theorem srcWord16_toNat (s : State) (o : Nat) :
    (s.srcWord16 o).toNat = (s.srcByte o).toNat + 256 * (s.srcByte (o + 1)).toNat :=
  toNat_append_byte _ _

theorem endpoint0_srcBytes (h : 8 ≤ n) : endpoint0 (s.srcBytes o n) = (s.srcWord16 o).toNat := by
  rw [endpoint0, byteAt_srcBytes (by omega), byteAt_srcBytes (by omega), srcWord16_toNat, Nat.add_zero]

theorem endpoint1_srcBytes (h : 8 ≤ n) : endpoint1 (s.srcBytes o n) = (s.srcWord16 (o + 2)).toNat := by
  rw [endpoint1, byteAt_srcBytes (by omega), byteAt_srcBytes (by omega), srcWord16_toNat]

theorem colourIndex_srcBytes (h : 8 ≤ n) (dx : Nat) {dy : Nat} (hdy : dy < 4) :
    colourIndex (s.srcBytes o n) dx dy = s.indexAt o dx dy := by
  rw [colourIndex, byteAt_srcBytes (by omega), ← Nat.add_assoc]
  exact (shiftRight_and_field _ 2 dx).symm

/-- A colour of the four-colour branch is the palette entry without its alpha. -/
theorem fourColour_srcBytes (h : 8 ≤ n) (dx : Nat) {dy : Nat} (hdy : dy < 4) :
    (fourColour (s.srcBytes o n) (colourIndex (s.srcBytes o n) dx dy)).channels =
      (s.colourAt false o dx dy).take 3 := by
  rw [State.colourAt, ← colourIndex_srcBytes h dx hdy,
    ← fourColour_channels (endpoint0_srcBytes h) (endpoint1_srcBytes h)]
  rfl

/-! ## Alphas -/

theorem alphaNibble_srcBytes {p : Nat} (h : p / 2 < n) : alphaNibble (s.srcBytes 0 n) p * 17 = s.explicitAlpha p := by
  rw [alphaNibble, byteAt_srcBytes h, Nat.zero_add]
  exact congrArg (· * 17) (shiftRight_and_field _ 4 (p % 2)).symm

/-- The 48 bits of the index field are six bytes, the lowest first (R277). -/
theorem indexField_toNat (s : State) : s.indexField.toNat = leNat (s.srcBytes 2 6) := by
  simp only [State.indexField, State.srcBytes, leNat, Nat.mul_zero, Nat.add_zero, toNat_append_byte]

theorem alphaIndex_srcBytes (h : 8 ≤ n) (p : Nat) :
    alphaIndex (s.srcBytes 0 n) p = s.indexField.toNat >>> (3 * p) &&& 7 := by
  rw [alphaIndex, srcBytes_drop, srcBytes_take, Nat.min_eq_left (by omega), Nat.zero_add, ← indexField_toNat]
  exact (shiftRight_and_field _ 3 p).symm

/-- The formula of the ramp at each of its eight indices (R278). -/
theorem alphaRamp_eq (a0 a1 : Nat) {i : Nat} (hi : i < 8) : alphaRamp a0 a1 i = (rampReference a0 a1).getD i 0 := by
  unfold alphaRamp rampReference
  by_cases h : a1 < a0
  · interval_cases i <;> simp [h]
  · interval_cases i <;> simp [h]

theorem alphaRamp_srcBytes (h : 8 ≤ n) (p : Nat) :
    alphaRamp (byteAt (s.srcBytes 0 n) 0) (byteAt (s.srcBytes 0 n) 1) (alphaIndex (s.srcBytes 0 n) p) =
      s.interpolatedAlpha p := by
  have hindex : alphaIndex (s.srcBytes 0 n) p < 8 := Nat.mod_lt _ (by omega)
  rw [alphaRamp_eq _ _ hindex, byteAt_srcBytes (by omega), byteAt_srcBytes (by omega), alphaIndex_srcBytes h,
    State.interpolatedAlpha]

end

/-! ## The pixels of the three formats -/

section

variable {s : State} (dx : Nat) {dy : Nat} (hdy : dy < 4)

include hdy

theorem dxt1Pixel_srcBytes : dxt1Pixel (s.srcBytes 0 8) dx dy = pixelBytes (s.colourAt true 0 dx dy) := by
  have h0 := endpoint0_srcBytes (s := s) (o := 0) (le_refl 8)
  have h1 := endpoint1_srcBytes (s := s) (o := 0) (le_refl 8)
  rw [dxt1Pixel, State.colourAt, ← colourIndex_srcBytes (le_refl 8) dx hdy]
  split_ifs with hle
  · rw [rgba_eq, threeColour_channels h0 h1 (by rwa [h0, h1] at hle)]
  · rw [rgba_eq, fourColour_channels h0 h1, paletteEntry_of_lt (by rwa [h0, h1, Nat.not_le] at hle)]

theorem dxt3Pixel_srcBytes (hdx : dx < 4) : dxt3Pixel (s.srcBytes 0 16) dx dy =
    pixelBytes ((s.colourAt false 8 dx dy).take 3 ++ [s.explicitAlpha (dy * 4 + dx)]) := by
  rw [dxt3Pixel, srcBytes_drop, rgba_eq, fourColour_srcBytes (by omega) dx hdy, alphaNibble_srcBytes (by omega)]

theorem dxt5Pixel_srcBytes : dxt5Pixel (s.srcBytes 0 16) dx dy =
    pixelBytes ((s.colourAt false 8 dx dy).take 3 ++ [s.interpolatedAlpha (dy * 4 + dx)]) := by
  rw [dxt5Pixel, srcBytes_drop, rgba_eq, fourColour_srcBytes (by omega) dx hdy, alphaRamp_srcBytes (by omega)]

end

theorem pixelBytes_length (c : List Nat) : (pixelBytes c).length = c.length := List.length_map _

theorem pixelBytes_getD (c : List Nat) (j : Nat) : (pixelBytes c).getD j 0 = BitVec.ofNat 8 (c.getD j 0) :=
  List.getD_map c 0 (BitVec.ofNat 8)

/-! ## The commands -/

/-- What a DXT command places from a whole block into a legal raster (R273, R280). -/
theorem dxtBody_of_ok {s : State} {size : Nat} {pixel : List Byte → Nat → Nat → List Byte}
    {pixel' : Nat → Nat → List Byte} (hok : s.rasterOk 4) (hsrc : size ≤ s.src.len.toNat)
    (hpixel : ∀ dx, dx < 4 → ∀ dy, dy < 4 → pixel (s.srcBytes 0 size) dx dy = pixel' dx dy) :
    dxtBody size pixel s = (s.dstPlaced (blockWrites 4 4 pixel' s), .ok) := by
  have hdims : badDimensions 4 s = false := (badDimensions_eq_false 4 s).mpr hok
  simp [dxtBody, hdims, Nat.not_lt.mpr hsrc, blockWrites_congr hpixel]

/-- All that a DXT command does with a whole block and a legal raster. -/
theorem exec_dxt {i : Instr} {s : State} {size : Nat} {pixel : List Byte → Nat → Nat → List Byte}
    {pixel' : Nat → Nat → List Byte} (hc : i ≠ .clrerr) (hs : i ≠ .sreset) (hi : i.wellFormed = true)
    (hd : i.usesDst = true) (hbody : i.body = dxtBody size pixel) (hw : windowsOk i s = true) (hm : s.mem.wf)
    (hok : s.rasterOk 4) (hsrc : size ≤ s.src.len.toNat)
    (hpixel : ∀ dx, dx < 4 → ∀ dy, dy < 4 → pixel (s.srcBytes 0 size) dx dy = pixel' dx dy)
    (hlen : ∀ dx dy, (pixel' dx dy).length = 4) :
    ∃ t, exec i s = .next t ∧ t = { s.endedOk i with mem := t.mem } ∧ s.places t (s.blockByte 4 4 pixel') := by
  refine exec_block hc hs hi hd hw hm hok hlen (by omega) (by omega) ?_
  rw [hbody]
  exact dxtBody_of_ok (s := s.begun (encode i)) hok hsrc (by simpa using hpixel)

/-- Settles O59: in each format the pixels that the machine computes are those of the rules. -/
theorem dxtPlaces : Obligations.DxtPlaces := by
  intro s hm hok
  have hlen (alpha : Nat → Nat) (dx dy : Nat) :
      (pixelBytes ((s.colourAt false 8 dx dy).take 3 ++ [alpha (dy * 4 + dx)])).length = 4 := by
    simp [pixelBytes_length, State.colourAt, paletteEntry_length]
  refine ⟨fun hw hsrc => ?_, fun hw hsrc => ?_, fun hw hsrc => ?_⟩
  · exact exec_dxt (by simp) (by simp) rfl rfl rfl hw hm hok hsrc (fun dx _ _ hdy => dxt1Pixel_srcBytes dx hdy)
      fun _ _ => (pixelBytes_length _).trans (paletteEntry_length _ _ _ _)
  · exact exec_dxt (by simp) (by simp) rfl rfl rfl hw hm hok hsrc
      (fun dx hdx _ hdy => dxt3Pixel_srcBytes dx hdy hdx) (hlen s.explicitAlpha)
  · exact exec_dxt (by simp) (by simp) rfl rfl rfl hw hm hok hsrc
      (fun dx _ _ hdy => dxt5Pixel_srcBytes dx hdy) (hlen s.interpolatedAlpha)

/-- A pixel of the block that lies in the raster stands at its place in the raster, byte by byte (R73, R280). -/
theorem blockByte_pixel {side bpp dx dy j : Nat} {pixel : Nat → Nat → List Byte} {s : State}
    (hlen : ∀ dx dy, (pixel dx dy).length = bpp) (hdx : dx < side) (hdy : dy < side) (hj : j < bpp)
    (hx : s.arg2.toNat * side + dx < s.arg0.toNat) (hy : s.arg3.toNat * side + dy < s.arg1.toNat) :
    s.blockByte side bpp pixel
        (((s.arg3.toNat * side + dy) * s.arg0.toNat + (s.arg2.toNat * side + dx)) * bpp + j) =
      some ((pixel dx dy).getD j 0) := by
  rw [← mem_blockWrites_iff_blockByte hlen (by omega) (by omega) (by omega), blockWrites_mem]
  exact ⟨dx, dy, j, hdx, hdy, by rwa [hlen], hx, hy, rfl⟩

/-- Entry 3 of the four-colour branch (R274). -/
theorem paletteEntry_three_of_lt {c0 c1 : BitVec 16} (h : c1.toNat < c0.toNat) :
    paletteEntry true c0 c1 3 =
      List.zipWith (fun a b => (a + 2 * b) / 3) (channels565 c0) (channels565 c1) ++ [255] := by
  rw [paletteEntry_of_lt h]
  rfl

/-- Entry 3 of the three-colour branch is transparent black (R274). -/
theorem paletteEntry_three_of_le {c0 c1 : BitVec 16} (h : c0.toNat ≤ c1.toNat) :
    paletteEntry true c0 c1 3 = List.replicate 4 0 := by
  simp [paletteEntry, h]

/-- Settles O60: the bytes of the pixel are those of palette entry 3, and the endpoints decide its branch. -/
theorem dxt1AlphaMode : Obligations.Dxt1AlphaMode := by
  intro s t dx dy hw hm hok hsrc hdx hdy hidx hx hy hexec
  obtain ⟨t', hexec', -, hplaced, -⟩ := (dxtPlaces s hm hok).1 hw hsrc
  obtain rfl : t' = t := by simpa [hexec'] using hexec
  have hlen (dx dy : Nat) : (pixelBytes (s.colourAt true 0 dx dy)).length = 4 :=
    (pixelBytes_length _).trans (paletteEntry_length _ _ _ _)
  have hread {j : Nat} (hj : j < 4) := hplaced _ _ (blockByte_pixel hlen hdx hdy hj hx hy)
  simp only [pixelBytes_getD, State.colourAt, hidx, Nat.zero_add] at hread
  refine ⟨fun hlt => ?_, fun hle j hj => ?_⟩
  · rw [paletteEntry_three_of_lt hlt] at hread
    refine ⟨hread (by omega), fun j hj => (hread (by omega)).trans ?_⟩
    interval_cases j <;> rfl
  · rw [hread hj, paletteEntry_three_of_le hle, List.getD_replicate _ hj]
    rfl

end Sys2Proof.Machine
end

