-- ==== Sys2Proof/Proofs/SystemCommands.lean ====
section
/-!
PROOF. The system commands `NOP`, `CLRERR` and `SRESET` (R300 to R302), each with its whole effect on the state.
-/

namespace Sys2Proof.Machine

/-! ## `NOP` and `CLRERR` (R300, R301) -/

/-- A command that ended OK without flags keeps `FIRST` and the sticky flags (R314). -/
theorem Status.ended_ok (st : Status) :
    st.ended .ok false false false = { st with err := .ok, dstfull := false, trunc := false, eos := false } := by
  have hfirst : (if st.first = .ok then .ok else st.first) = st.first := ite_eq_right_iff.mpr Eq.symm
  simp only [Status.ended, hfirst, Bool.or_false]

/-- Settles O16: `NOP` uses no window and its pseudocode is empty, so only the two ends of a command's life are left. -/
theorem nopEffect : Obligations.NopEffect := by
  intro s
  have hexec : exec .nop s = .next ((s.begun (encode .nop)).complete .ok) :=
    exec_of_ok (by simp) (by simp) rfl (windowsOk_of_none rfl rfl)
  rw [hexec, begun_complete, State.ended, Status.ended_ok]
  rfl

/-- Settles O17: `STATUS` is cleared in place of step 4 of R314, and its cleared fields read as 0. -/
theorem clrerrEffect : Obligations.ClrerrEffect := by
  intro s
  have hzero : Status.zero.word = 0 := by decide
  exact ⟨_, exec_clrerr s, hzero, rfl⟩

/-! ## `SRESET` (R302) -/

/-- `CMD` alone reads what was put there; every other offset reads as before. -/
theorem readReg_setCmd (off : BitVec 8) (w : Word) (s : State) :
    readReg off { s with cmd := w } = if off = 0 then w else readReg off s := by
  by_cases h : off = 0
  · subst h
    rfl
  · have hne : off.toNat ≠ 0 := fun e => h (BitVec.eq_of_toNat_eq e)
    rw [if_neg h]
    unfold readReg
    split
    case h_1 hcmd => exact absurd hcmd hne
    all_goals rfl

/-- What a block reset keeps of the state is no register (R340). -/
theorem readReg_blockReset (off : BitVec 8) (s : State) : readReg off s.blockReset = readReg off State.reset := rfl

/-- Settles O18: the registers, slots and predictors are those of the reset state (O1), but for `CMD`. -/
theorem sresetEffect : Obligations.SresetEffect := by
  intro s
  obtain ⟨hreg, hhuff, hquant, hpred⟩ := resetState
  refine ⟨_, exec_sreset s, rfl, rfl, rfl, rfl, rfl, fun off => ?_, hhuff, hquant, hpred⟩
  rw [readReg_setCmd, readReg_blockReset, hreg]
  rfl

end Sys2Proof.Machine
end

