-- ==== Sys2Proof/Proofs/CommandFlags.lean ====
section
/-!
PROOF. `CMD` and the three per-command flags at the end of a command: which commands set which flag, which errors come
with none (R319), and that every command completes with one of its codes (R317).
-/

namespace Sys2Proof

open Machine

/-! ## What the pseudocode does to `CMD` and the flags -/

/-- The command reads bits with stuffing on, where a marker can stand at the cursor (R121). -/
def Instr.readsStuffed : Instr → Prop
  | .bsRd _ true _ _ | .hufDec _ true _ => True
  | _ => False

/-- The command writes bits, bytes or packets for which the destination window may have no room (R66, R67, R124). -/
def Instr.mayFill : Instr → Prop
  | .bsWr _ _ _ | .bsFlush _ _ _ | .hufEnc _ _ _ | .lzwDec _ _ | .rlePbd | .rlePbe | .rleHbd _ | .rleHbe _ => True
  | _ => False

/-- From `s` to `t` the word in `CMD` has stayed, and so has every flag that command `i` cannot set. The default proofs
fit an update that leaves the field as it is. -/
structure Instr.FlagFrame (i : Instr) (s t : State) : Prop where
  cmd : t.cmd = s.cmd := by rfl
  trunc : ¬ i.movesReadCursor → t.status.trunc = s.status.trunc := by intros; rfl
  eos : ¬ i.readsStuffed → t.status.eos = s.status.eos := by intros; rfl
  dstfull : ¬ i.mayFill → t.status.dstfull = s.status.dstfull := by intros; rfl

/-- The pseudocode of `i` answers `r` from `s`: within the frame of its flags, and with `STATUS` untouched unless it
ends with one of the three codes that can come with a flag (R319). -/
structure Instr.Ends (i : Instr) (s : State) (r : State × ResultCode) : Prop extends i.FlagFrame s r.1 where
  flagless : r.1.status = s.status ∨ r.2 ∈ [.ok, .truncatedData, .decompressionFailed]

section

variable {i : Instr} {s t u : State}

namespace Instr.FlagFrame

theorem refl (i : Instr) (s : State) : i.FlagFrame s s := {}

theorem trans (h : i.FlagFrame s t) (k : i.FlagFrame t u) : i.FlagFrame s u where
  cmd := k.cmd.trans h.cmd
  trunc hi := (k.trunc hi).trans (h.trunc hi)
  eos hi := (k.eos hi).trans (h.eos hi)
  dstfull hi := (k.dstfull hi).trans (h.dstfull hi)

theorem setDstfull (hd : i.mayFill) : i.FlagFrame s s.setDstfull := { dstfull := (absurd hd ·) }

theorem dstBytes (o : Nat) (vs : List Byte) : i.FlagFrame s (s.dstBytes o vs) := by
  rw [dstBytes_eq]
  exact {}

theorem dstPlaced (ps : List (Nat × Byte)) : i.FlagFrame s (s.dstPlaced ps) := by
  rw [dstPlaced_eq]
  exact {}

theorem emitAll (hd : i.mayFill) (bs : List Byte) : i.FlagFrame s (Machine.emitAll bs 0 s).2 := by
  rw [emitAll_eq]
  exact { dstfull := (absurd hd ·) }

theorem putPackets (hd : i.mayFill) (ps : List (List Byte × Nat)) :
    i.FlagFrame s (Machine.putPackets ps 0 0 s).2.2 := by
  rw [putPackets_spec ps 0 0 s (Nat.zero_le _)]
  simp only
  split
  · exact dstBytes 0 _
  · exact (dstBytes 0 _).trans (setDstfull hd)

theorem writeBits (hd : i.mayFill) (order : Order) (stuff : Bool) (bs : List Bool) :
    i.FlagFrame s (Machine.writeBits order stuff bs s).1 := by
  rcases writeBits_eq order stuff bs s with ⟨-, h⟩ | ⟨-, h⟩ <;> rw [h]
  · exact {}
  · exact { dstfull := (absurd hd ·) }

end Instr.FlagFrame

/-- Without stuffing the loop of `ReadBits` meets no marker (R123 (d)). -/
theorem Machine.readLoop_plain_eos (src : Nat → Option Byte) (order : Order) (zfill : Bool) (n k : Nat) (a : BitRead) :
    (readLoop src order false zfill n k a).1.eos = a.eos := by
  induction n generalizing k a with
  | zero => rfl
  | succ n ih =>
    unfold readLoop
    rcases rdBit_cases src order false a.cur with ⟨v, -, -, h⟩ | ⟨-, h⟩ | ⟨h, -⟩
    · rw [h]
      exact ih _ _
    · rw [h]
      cases zfill with
      | false => rfl
      | true => exact ih _ _
    · exact absurd h Bool.false_ne_true

theorem Instr.FlagFrame.readBits {stuff : Bool} (hr : i.movesReadCursor) (hstuff : stuff = true → i.readsStuffed)
    (n : Nat) (order : Order) (zfill : Bool) : i.FlagFrame s (Machine.readBits n order stuff zfill s).1 where
  trunc := (absurd hr ·)
  eos hi := by
    obtain rfl : stuff = false := Bool.eq_false_iff.mpr (hi ∘ hstuff)
    simp only [Machine.readBits, readLoop_plain_eos, Bool.or_false]

theorem Instr.FlagFrame.hufDecLoop {stuff : Bool} (hr : i.movesReadCursor) (hstuff : stuff = true → i.readsStuffed)
    (h : HuffTable) (zfill : Bool) (rows : List HuffRow) (len code : Nat) :
    i.FlagFrame s (Machine.hufDecLoop h stuff zfill rows len code s).1 := by
  induction rows generalizing s len code with
  | nil => exact .refl i s
  | cons row rows ih =>
    have hread := readBits (s := s) hr hstuff 1 .msb zfill
    unfold Machine.hufDecLoop
    split
    · next e => rwa [e] at hread
    · next e =>
      rw [e] at hread
      simp only
      split
      · exact hread.trans {}
      · exact hread.trans (ih _ _)

/-! ## The pseudocode of each command -/

namespace Instr.Ends

/-- An exit before anything has changed. -/
theorem untouched (i : Instr) (s : State) (e : ResultCode) : i.Ends s (s, e) := ⟨.refl i s, .inl rfl⟩

theorem placed (ps : List (Nat × Byte)) (e : ResultCode) : i.Ends s (s.dstPlaced ps, e) :=
  ⟨.dstPlaced ps, .inl (by rw [dstPlaced_eq])⟩

theorem writeBits (hd : i.mayFill) (order : Order) (stuff : Bool) (bs : List Bool) :
    i.Ends s (Machine.writeBits order stuff bs s) :=
  ⟨.writeBits hd order stuff bs, .inr (List.mem_append_left [_] (writeBits_code order stuff bs s))⟩

theorem finishDecode (hd : i.mayFill) {r : RleRun} (hr : r.err ∈ [.ok, .truncatedData]) :
    i.Ends s (Machine.finishDecode r s) :=
  ⟨(FlagFrame.emitAll hd r.out).trans {}, .inr (List.mem_append_left [_] hr)⟩

theorem finishEncode (hd : i.mayFill) (k : Nat) (ps : List (List Byte × Nat)) :
    i.Ends s (Machine.finishEncode k ps s) :=
  ⟨(FlagFrame.putPackets hd ps).trans {}, .inr List.mem_cons_self⟩

theorem rleHbeBody (hd : i.mayFill) (sz : Nat) : i.Ends s (Machine.rleHbeBody sz s) := by
  unfold Machine.rleHbeBody
  split
  · exact untouched i s _
  · exact finishEncode hd _ _

theorem bsRdBody {stuff : Bool} (hr : i.movesReadCursor) (hstuff : stuff = true → i.readsStuffed) (order : Order)
    (zfill : Bool) (n : Nat) : i.Ends s (Machine.bsRdBody order stuff zfill n s) := by
  refine ⟨?_, .inr (List.mem_append_left [_] (bsRdBody_code order stuff zfill n s))⟩
  have hread := FlagFrame.readBits (s := s) hr hstuff n order zfill
  unfold Machine.bsRdBody
  split
  · next e => rwa [e] at hread
  · next e =>
    rw [e] at hread
    exact hread.trans {}

theorem hufBuildBody (slot : BitVec 3) : i.Ends s (Machine.hufBuildBody slot s) := by
  have hclear (e : ResultCode) : i.Ends s (s.setHuff slot none, e) := ⟨{}, .inl rfl⟩
  have hfill (h : Option HuffTable) (a b : Nat) (e : ResultCode) :
      i.Ends s (((s.setHuff slot none).setHuff slot h).withRes a b, e) := ⟨{}, .inl rfl⟩
  unfold Machine.hufBuildBody
  simp only
  split
  · exact hclear _
  split
  · exact hclear _
  split
  · exact hclear _
  split
  · exact hclear _
  · exact hfill _ _ _ _

theorem hufDecBody {stuff : Bool} (hr : i.movesReadCursor) (hstuff : stuff = true → i.readsStuffed) (slot : BitVec 3)
    (zfill : Bool) : i.Ends s (Machine.hufDecBody slot stuff zfill s) := by
  unfold Machine.hufDecBody
  split
  · exact untouched i s _
  · exact ⟨.hufDecLoop hr hstuff _ zfill _ _ _, .inr (hufDecLoop_code _ stuff zfill _ _ _ s)⟩

theorem hufEncBody (hd : i.mayFill) (slot : BitVec 3) (stuff : Bool) (sym : Byte) :
    i.Ends s (Machine.hufEncBody slot stuff sym s) := by
  unfold Machine.hufEncBody
  split
  · exact untouched i s _
  split
  · exact untouched i s _
  · next len code _ =>
    have hwrite := writeBits (s := s) hd .msb stuff (bitsOf .msb len code)
    split
    · next e =>
      rw [e] at hwrite
      exact ⟨hwrite.toFlagFrame.trans {}, .inr List.mem_cons_self⟩
    · next e => rwa [e] at hwrite

theorem lzwDecBody (order : Order) (m : BitVec 4) :
    (Instr.lzwDec order m).Ends s (Machine.lzwDecBody order m.toNat s) :=
  ⟨(FlagFrame.emitAll (i := .lzwDec order m) trivial _).trans { trunc := (absurd trivial ·) },
    .inr (lzwLoop_code _ order _ _ _ _)⟩

theorem jpgLdqBody (slot : BitVec 2) : i.Ends s (Machine.jpgLdqBody slot s) := by
  unfold Machine.jpgLdqBody
  simp only
  split <;> exact ⟨{}, .inl rfl⟩

theorem jpgBlkBody (slot : BitVec 2) : i.Ends s (Machine.jpgBlkBody slot s) := by
  unfold Machine.jpgBlkBody
  split
  · exact untouched i s _
  split
  · exact untouched i s _
  split
  · exact untouched i s _
  · exact placed _ _

theorem jpgYccBody : i.Ends s (Machine.jpgYccBody s) := by
  unfold Machine.jpgYccBody
  simp only
  split
  · exact untouched i s _
  split
  · exact untouched i s _
  · exact placed _ _

theorem dxtBody (size : Nat) (pixel : List Byte → Nat → Nat → List Byte) : i.Ends s (Machine.dxtBody size pixel s) := by
  unfold Machine.dxtBody
  split
  · exact untouched i s _
  split
  · exact untouched i s _
  · exact placed _ _

end Instr.Ends

end

namespace Machine

/-- The pseudocode of every command keeps `CMD` and the flags that are not the command's, and sets no flag with the
errors that come with none. -/
theorem body_ends (i : Instr) (s : State) : i.Ends s (i.body s) := by
  cases i with
  | nop => exact .untouched _ s _
  | clrerr => exact .untouched _ s _
  | sreset => exact .untouched _ s _
  | bsRd order stuff zfill n => exact .bsRdBody (i := .bsRd order stuff zfill n) trivial (by rintro rfl; trivial) _ _ _
  | bsWr order stuff n => exact .writeBits (i := .bsWr order stuff n) trivial _ _ _
  | bsFlush order stuff pad => exact .writeBits (i := .bsFlush order stuff pad) trivial _ _ _
  | hufBuild slot => exact .hufBuildBody slot
  | hufDec slot stuff zfill => exact .hufDecBody (i := .hufDec slot stuff zfill) trivial (by rintro rfl; trivial) _ _
  | hufEnc slot stuff sym => exact .hufEncBody (i := .hufEnc slot stuff sym) trivial _ _ _
  | lzwDec order mincs => exact .lzwDecBody order mincs
  | rlePbd => exact .finishDecode (i := .rlePbd) trivial (pbDecode_code _ s.srcAll)
  | rlePbe => exact .finishEncode (i := .rlePbe) trivial _ _
  | rleHbd size => exact .finishDecode (i := .rleHbd size) trivial (hbDecode_code size.toNat _ s.srcAll)
  | rleHbe size => exact .rleHbeBody (i := .rleHbe size) trivial _
  | jpgLdq slot => exact .jpgLdqBody slot
  | jpgBlk slot => exact .jpgBlkBody slot
  | jpgYcc => exact .jpgYccBody
  | jpgDcp comp => exact ⟨{}, .inl rfl⟩
  | jpgRst => exact ⟨{}, .inl rfl⟩
  | dxt1Blk => exact .dxtBody _ _
  | dxt3Blk => exact .dxtBody _ _
  | dxt5Blk => exact .dxtBody _ _

/-! ## The obligations -/

/-- Every command answers a next state: none faults and none is refused (R7, R321). -/
theorem exec_next (i : Instr) (s : State) : ∃ t, exec i s = .next t := by
  by_cases hc : i = .clrerr
  · exact ⟨_, hc ▸ exec_clrerr s⟩
  by_cases hs : i = .sreset
  · exact ⟨_, hs ▸ exec_sreset s⟩
  exact ⟨_, exec_eq_launch hc hs s⟩

/-- Every command but the three system commands lists `IllegalCommand`, and `NOP` has no check that could fail. -/
theorem illegalCommand_mem {i : Instr} {s : State} (hbad : (i.wellFormed && windowsOk i s) = false) (hc : i ≠ .clrerr)
    (hs : i ≠ .sreset) : .illegalCommand ∈ i.possibleErrors := by
  cases i with
  | clrerr => exact absurd rfl hc
  | sreset => exact absurd rfl hs
  | nop => exact absurd hbad (by simp [Instr.wellFormed, windowsOk, Instr.usesSrc, Instr.usesDst])
  | _ => simp [Instr.possibleErrors]

/-- Settles O12: a command ends with the code of its pseudocode, with `IllegalCommand`, or with `STATUS` cleared. -/
theorem resultCodes : Obligations.ResultCodes := by
  intro i s
  obtain ⟨t, h⟩ := exec_next i s
  refine ⟨t, h, ?_⟩
  rcases exec_cases h with ⟨rfl, rfl⟩ | ⟨rfl, rfl⟩ | ⟨hc, hs, hbad, rfl⟩ | ⟨-, -, -, -, rfl⟩
  · exact ⟨rfl, List.mem_cons_self⟩
  · exact ⟨rfl, List.mem_cons_self⟩
  · exact ⟨rfl, illegalCommand_mem hbad hc hs⟩
  · exact ⟨(body_ends i _).cmd, body_code_mem i _⟩

/-- With stuffing on, only the MSB-first order is legal (R102). -/
theorem readsStuffed_cases {i : Instr} (hi : i.wellFormed = true) (h : i.readsStuffed) :
    (∃ zfill n, i = .bsRd .msb true zfill n) ∨ ∃ slot zfill, i = .hufDec slot true zfill := by
  cases i with
  | bsRd order stuff zfill n =>
    cases stuff with
    | false => exact h.elim
    | true =>
      cases order with
      | msb => exact .inl ⟨zfill, n, rfl⟩
      | lsb => simp [Instr.wellFormed, legalStuffing] at hi
  | hufDec slot stuff zfill =>
    cases stuff with
    | false => exact h.elim
    | true => exact .inr ⟨slot, zfill, rfl⟩
  | _ => exact h.elim

theorem mayFill_cases {i : Instr} (h : i.mayFill) :
    i.movesWriteCursor ∨ (∃ order m, i = .lzwDec order m) ∨ i = .rlePbd ∨ i = .rlePbe ∨ (∃ sz, i = .rleHbd sz) ∨
      ∃ sz, i = .rleHbe sz := by
  cases i with
  | bsWr order stuff n => exact .inl trivial
  | bsFlush order stuff pad => exact .inl trivial
  | hufEnc slot stuff sym => exact .inl trivial
  | lzwDec order m => exact .inr (.inl ⟨order, m, rfl⟩)
  | rlePbd => simp
  | rlePbe => simp
  | rleHbd sz => simp
  | rleHbe sz => simp
  | _ => exact h.elim

/-- The flags at the end of a command: all clear, or those its pseudocode left after step 2 of R314 cleared them. -/
theorem exec_flags {i : Instr} {s t : State} (h : exec i s = .next t) :
    (t.status.dstfull = false ∧ t.status.trunc = false ∧ t.status.eos = false) ∨
      ∃ r, i.wellFormed = true ∧ i.Ends (s.begun (encode i)) r ∧ t = r.1.complete r.2 := by
  rcases exec_cases h with ⟨-, rfl⟩ | ⟨-, rfl⟩ | ⟨-, -, -, rfl⟩ | ⟨-, -, hi, -, rfl⟩
  · exact .inl ⟨rfl, rfl, rfl⟩
  · exact .inl ⟨rfl, rfl, rfl⟩
  · exact .inl ⟨rfl, rfl, rfl⟩
  · exact .inr ⟨_, hi, body_ends i _, rfl⟩

/-- Settles O14: a flag that is set at the end was clear when the pseudocode began, so the pseudocode set it. -/
theorem flagsByCommand : Obligations.FlagsByCommand := by
  intro i s t h
  rcases exec_flags h with ⟨hdstfull, htrunc, heos⟩ | ⟨r, hi, hends, rfl⟩
  · simp [hdstfull, htrunc, heos]
  · refine ⟨fun hset => ?_, fun hset => readsStuffed_cases hi ?_, fun hset => mayFill_cases ?_, fun herr => ?_⟩
    · by_contra hn
      exact Bool.false_ne_true ((hends.trunc hn).symm.trans hset)
    · by_contra hn
      exact Bool.false_ne_true ((hends.eos hn).symm.trans hset)
    · by_contra hn
      exact Bool.false_ne_true ((hends.dstfull hn).symm.trans hset)
    · rcases hends.flagless with hkept | hcode
      · simp [hkept, Status.finished, Status.cleared]
      · have herr' : r.2 ∈ [.illegalCommand, .notReady, .invalidFormat, .invalidDimensions] := herr
        simp only [List.mem_cons, List.not_mem_nil, or_false] at herr' hcode
        rcases hcode with he | he | he <;> simp [he] at herr'

end Machine

end Sys2Proof
end

