-- ==== Sys2Proof/Proofs/ErrorCauses.lean ====
section
/-!
PROOF. The errors that change nothing but `CMD` and `STATUS`: `IllegalCommand` (R312), `NotReady` (R313),
`InvalidDimensions` (R318) and the `TruncatedData` of an operand that the source window does not hold (R316), each with
its causes.
-/

namespace Sys2Proof.Machine

/-! ## `IllegalCommand` (R65, R312) -/

theorem Window.fits_iff (w : Window) : w.fits = true ↔ ¬ 4294967296 < w.base.toNat + w.len.toNat := by
  simp [Window.fits]

theorem Window.overlaps_iff (a b : Window) : a.overlaps b = true ↔ 0 < a.len.toNat ∧ 0 < b.len.toNat ∧
    a.base.toNat < b.base.toNat + b.len.toNat ∧ b.base.toNat < a.base.toNat + a.len.toNat := by
  simp only [Window.overlaps, Bool.and_eq_true, decide_eq_true_eq, and_assoc]

/-- The window checks pass exactly when none of those of R65 fails. -/
theorem windowsOk_iff (i : Instr) (s : State) : windowsOk i s = true ↔ ¬ i.windowError s := by
  simp only [windowsOk, Instr.windowError, Bool.and_eq_true, Bool.or_eq_true, Bool.not_eq_true', ← Bool.not_eq_true,
    Window.fits_iff, Window.overlaps_iff]
  tauto

/-- An illegal field value or a failing window check: `CLRERR` and `SRESET` have neither, and every other command ends
before its pseudocode. -/
theorem exec_of_illegal {i : Instr} {s : State} (h : i.wellFormed = false ∨ i.windowError s) :
    exec i s = .next (s.ended i .illegalCommand false false false) := by
  have hbad : (i.wellFormed && windowsOk i s) = false :=
    Bool.and_eq_false_imp.mpr fun hi =>
      Bool.eq_false_iff.mpr fun hw => (windowsOk_iff i s).mp hw (h.resolve_left (by simp [hi]))
  have hc : i ≠ .clrerr := by
    rintro rfl
    exact absurd hbad (by simp [Instr.wellFormed, windowsOk, Instr.usesSrc, Instr.usesDst])
  have hs : i ≠ .sreset := by
    rintro rfl
    exact absurd hbad (by simp [Instr.wellFormed, windowsOk, Instr.usesSrc, Instr.usesDst])
  rw [exec_eq_launch hc hs, launch_of_not_ok hbad, illegalWord, begun_complete]

/-- Settles O11: the decoder refuses the word, or the command's life ends before its pseudocode. -/
theorem illegalCommandEffect : Obligations.IllegalCommandEffect := by
  refine ⟨fun s rest w e hrst hp hw => ?_, windowsOk_iff, fun i s h => exec_of_illegal h⟩
  rw [step_of_cmdWrite hrst hp, runWord_of_error hw]

/-! ## Pseudocode that ends in one of its checks -/

/-- A command whose pseudocode ends before it has changed anything changes `CMD` and `STATUS` only. -/
theorem exec_of_untouched {i : Instr} {s : State} {e : ResultCode} (hc : i ≠ .clrerr) (hs : i ≠ .sreset)
    (hi : i.wellFormed = true) (hw : windowsOk i s = true)
    (hbody : i.body (s.begun (encode i)) = (s.begun (encode i), e)) :
    exec i s = .next (s.ended i e false false false) := by
  rw [exec_of_ok hc hs hi hw, hbody, begun_complete]

section

variable {s : State}

theorem hufDecBody_of_invalid {slot : BitVec 3} {stuff zfill : Bool} (h : s.huffSlot slot = none) :
    hufDecBody slot stuff zfill s = (s, .notReady) := by
  simp [hufDecBody, h]

theorem hufEncBody_of_invalid {slot : BitVec 3} {stuff : Bool} {sym : Byte} (h : s.huffSlot slot = none) :
    hufEncBody slot stuff sym s = (s, .notReady) := by
  simp [hufEncBody, h]

theorem jpgBlkBody_of_invalid {slot : BitVec 2} (h : s.quantSlot slot = none) :
    jpgBlkBody slot s = (s, .notReady) := by
  simp [jpgBlkBody, h]

/-- The test of R318 fails for one of its five causes. -/
theorem badDimensions_eq_true (bpp : Nat) (s : State) : badDimensions bpp s = true ↔
    s.arg0 = 0 ∨ s.arg1 = 0 ∨ s.cfg.maxDim < s.arg0.toNat ∨ s.cfg.maxDim < s.arg1.toNat ∨
      s.dst.len.toNat < s.arg0.toNat * s.arg1.toNat * bpp := by
  simp [badDimensions, BitVec.toNat_eq, or_assoc]

theorem jpgBlkBody_of_badDimensions {slot : BitVec 2} (hslot : s.quantSlot slot ≠ none)
    (h : badDimensions 1 s = true) : jpgBlkBody slot s = (s, .invalidDimensions) := by
  obtain ⟨quant, hquant⟩ := Option.ne_none_iff_exists'.mp hslot
  simp [jpgBlkBody, hquant, h]

theorem dxtBody_of_badDimensions {size : Nat} {pixel : List Byte → Nat → Nat → List Byte}
    (h : badDimensions 4 s = true) : dxtBody size pixel s = (s, .invalidDimensions) := by
  simp [dxtBody, h]

theorem jpgYccBody_of_badDimensions (h : s.dst.len.toNat < 3 * s.arg0.toNat) :
    jpgYccBody s = (s, .invalidDimensions) := by
  simp [jpgYccBody, h]

theorem jpgBlkBody_of_short {slot : BitVec 2} (hslot : s.quantSlot slot ≠ none) (hok : s.rasterOk 1)
    (h : s.src.len.toNat < 128) : jpgBlkBody slot s = (s, .truncatedData) := by
  obtain ⟨quant, hquant⟩ := Option.ne_none_iff_exists'.mp hslot
  simp [jpgBlkBody, hquant, (badDimensions_eq_false 1 s).mpr hok, h]

theorem dxtBody_of_short {size : Nat} {pixel : List Byte → Nat → Nat → List Byte} (hok : s.rasterOk 4)
    (h : s.src.len.toNat < size) : dxtBody size pixel s = (s, .truncatedData) := by
  simp [dxtBody, (badDimensions_eq_false 4 s).mpr hok, h]

theorem jpgYccBody_of_short (hok : 3 * s.arg0.toNat ≤ s.dst.len.toNat)
    (h : s.src.len.toNat < s.arg1.toNat + s.arg0.toNat ∨ s.src.len.toNat < s.arg2.toNat + s.arg0.toNat ∨
      s.src.len.toNat < s.arg3.toNat + s.arg0.toNat) : jpgYccBody s = (s, .truncatedData) := by
  simp only [jpgYccBody, if_neg (Nat.not_lt.mpr hok), if_pos h]

/-! ## The only causes of `InvalidDimensions` -/

theorem badDimensions_of_jpgBlkBody {slot : BitVec 2} (h : (jpgBlkBody slot s).2 = .invalidDimensions) :
    badDimensions 1 s = true := by
  unfold jpgBlkBody at h
  split at h
  · simp at h
  split at h
  · assumption
  split at h <;> simp at h

theorem badDimensions_of_dxtBody {size : Nat} {pixel : List Byte → Nat → Nat → List Byte}
    (h : (dxtBody size pixel s).2 = .invalidDimensions) : badDimensions 4 s = true := by
  unfold dxtBody at h
  split at h
  · assumption
  split at h <;> simp at h

theorem dst_lt_of_jpgYccBody (h : (jpgYccBody s).2 = .invalidDimensions) :
    s.dst.len.toNat < 3 * s.arg0.toNat := by
  unfold jpgYccBody at h
  simp only at h
  split at h
  · assumption
  split at h <;> simp at h

/-- The pseudocode of a command ends with `InvalidDimensions` only where the test of its own rule fails (R318). -/
theorem cause_of_invalidDimensions {i : Instr} (h : (i.body s).2 = .invalidDimensions) :
    ((∃ slot, i = .jpgBlk slot) ∧ badDimensions 1 s = true) ∨
      (i ∈ [Instr.dxt1Blk, .dxt3Blk, .dxt5Blk] ∧ badDimensions 4 s = true) ∨
      (i = .jpgYcc ∧ s.dst.len.toNat < 3 * s.arg0.toNat) := by
  have hmem := body_code_mem i s
  rw [h] at hmem
  cases i with
  | jpgBlk slot => exact .inl ⟨⟨slot, rfl⟩, badDimensions_of_jpgBlkBody h⟩
  | dxt1Blk => exact .inr (.inl ⟨by simp, badDimensions_of_dxtBody h⟩)
  | dxt3Blk => exact .inr (.inl ⟨by simp, badDimensions_of_dxtBody h⟩)
  | dxt5Blk => exact .inr (.inl ⟨by simp, badDimensions_of_dxtBody h⟩)
  | jpgYcc => exact .inr (.inr ⟨rfl, dst_lt_of_jpgYccBody h⟩)
  | _ => simp [Instr.possibleErrors] at hmem

/-- A command that ended with `InvalidDimensions` ran its pseudocode, and that ended with it. -/
theorem body_of_invalidDimensions {i : Instr} {t : State} (h : exec i s = .next t)
    (he : t.status.err = .invalidDimensions) : (i.body (s.begun (encode i))).2 = .invalidDimensions := by
  rcases exec_cases h with ⟨-, rfl⟩ | ⟨-, rfl⟩ | ⟨-, -, -, rfl⟩ | ⟨-, -, -, -, rfl⟩
  · exact ResultCode.noConfusion he
  · exact ResultCode.noConfusion he
  · exact ResultCode.noConfusion he
  · exact he

end

/-! ## The obligations -/

/-- Settles O40: the slot is the first thing that the three commands look at. -/
theorem invalidSlotNotReady : Obligations.InvalidSlotNotReady := by
  refine fun s => ⟨fun slot stuff zfill hw hslot => ?_, fun slot stuff sym hw hslot => ?_, fun slot hw hslot => ?_⟩
  · exact exec_of_untouched (by simp) (by simp) rfl hw (hufDecBody_of_invalid (s := s.begun _) hslot)
  · exact exec_of_untouched (by simp) (by simp) rfl hw (hufEncBody_of_invalid (s := s.begun _) hslot)
  · exact exec_of_untouched (by simp) (by simp) rfl hw (jpgBlkBody_of_invalid (s := s.begun _) hslot)

/-- Settles O57: the test of R318 comes before the first access, and no other command has that code. -/
theorem invalidDimensionsEffect : Obligations.InvalidDimensionsEffect := by
  intro s
  simp only [← badDimensions_eq_true]
  refine ⟨fun slot hw hslot hbad => ?_, fun i hmem hw hbad => ?_, fun hw hbad => ?_, fun i t h he => ?_⟩
  · exact exec_of_untouched (by simp) (by simp) rfl hw (jpgBlkBody_of_badDimensions (s := s.begun _) hslot hbad)
  · simp only [List.mem_cons, List.not_mem_nil, or_false] at hmem
    rcases hmem with rfl | rfl | rfl <;>
      exact exec_of_untouched (by simp) (by simp) rfl hw (dxtBody_of_badDimensions (s := s.begun _) hbad)
  · exact exec_of_untouched (by simp) (by simp) rfl hw (jpgYccBody_of_badDimensions (s := s.begun _) hbad)
  · exact cause_of_invalidDimensions (s := s.begun _) (body_of_invalidDimensions h he)

/-- Settles O58: the length of the source window is tested before the first access. -/
theorem shortOperands : Obligations.ShortOperands := by
  refine fun s => ⟨fun slot hw hslot hok hshort => ?_, fun p hmem hw hok hshort => ?_, fun hw hok hshort => ?_⟩
  · exact exec_of_untouched (by simp) (by simp) rfl hw (jpgBlkBody_of_short (s := s.begun _) hslot hok hshort)
  · simp only [List.mem_cons, List.not_mem_nil, or_false] at hmem
    rcases hmem with rfl | rfl | rfl <;>
      exact exec_of_untouched (by simp) (by simp) rfl hw (dxtBody_of_short (s := s.begun _) hok hshort)
  · exact exec_of_untouched (by simp) (by simp) rfl hw (jpgYccBody_of_short (s := s.begun _) hok hshort)

end Sys2Proof.Machine
end

