-- ==== Sys2Proof/Proofs/ResetAndTransactions.lean ====
section
/-!
PROOF. Reset and the transactions that are no command (R60, R61, R340, R341): what the reset input does, the idle step,
the host's own loads and stores, and the invariant at the reset state.
-/

namespace Sys2Proof.Machine

/-! ## The reset input (R340) -/

/-- An aligned write of `CMD` runs its word, unless `rst` is asserted. -/
theorem transact_cmdWrite (w : Word) (s : State) :
    transact (.regWrite 0 4 w) s = if s.rst then .next s else runWord w s := rfl

/-- The release of `rst` is the reset of the block, with the input released. -/
theorem driveRst_release {s : State} (h : s.rst = true) :
    driveRst false s = State.blockReset { s with rst := false } := by
  rw [driveRst, if_pos (by simp [h])]
  rfl

/-- Settles O2: the released block has the registers, slots and predictors of the reset state (O1). -/
theorem resetInput : Obligations.ResetInput := by
  refine ⟨fun s w hrst => ?_, fun s hrst => ?_⟩
  · rw [transact_cmdWrite, if_pos hrst]
  · obtain ⟨hreg, hhuff, hquant, hpred⟩ := resetState
    have hrelease : transact (.setRst false) s = .next (State.blockReset { s with rst := false }) :=
      congrArg Host.Outcome.next (driveRst_release hrst)
    exact ⟨_, hrelease, rfl, rfl, fun off => (readReg_blockReset off _).trans (hreg off), hhuff, hquant, hpred⟩

/-! ## Steps and the host's memory accesses (R60, R61, R341) -/

theorem step_of_idle {s : State} (h : s.pending = []) : step s = .next s := by
  rw [step, serve, h]

theorem step_of_pending {s : State} {op : HostOp} {rest : List HostOp} (h : s.pending = op :: rest) :
    step s = transact op { s with pending := rest } := by
  rw [step, serve, h]

/-- Settles O4: `step` looks at the queue alone, and a store of the host is one `Memory.write`. -/
theorem outsideTransactions : Obligations.OutsideTransactions :=
  ⟨fun _ => step_of_idle, fun _ _ _ => step_of_pending, fun _ _ => rfl,
    fun _ a v hm => ⟨_, rfl, rfl, fun b => Memory.read_write hm a b v⟩⟩

/-! ## The invariant at reset (R340) -/

/-- Settles O22: the reset state is its own block reset, and its memory lists no cell. -/
theorem resetHasInvariant : Obligations.ResetHasInvariant :=
  blockReset_wf (s := State.reset) Memory.wf_nil

end Sys2Proof.Machine
end
